-- ==== Sys2Proof/Word.lean ====
section
/-! DEFINITION. Word.lean: the word types of the GF2M-RS unit (00_scope.md R8, R9). -/

namespace Sys2Proof

/-- A command word, a host data word, a 32-bit CSR (R8). -/
abbrev Word := BitVec 32

/-- One element: an M-bit symbol in a 16-bit container (M ≤ 16, R6; log entry 6). -/
abbrev Symbol := BitVec 16

/-- A symbol read as a field value: bit i is the coefficient of x^i (R9, R10). -/
abbrev Value := Symbol

/-- A symbol read as a log-index (R10). -/
abbrev Index := Symbol

/-- A 16-bit counter CSR: ECNT, LREG, DEG, NROOTS (R8). -/
abbrev Half := BitVec 16

/-- A host word address (R8, R61). -/
abbrev HostAddr := BitVec 20

/-- `zext_32` of a symbol or a counter (R11). -/
def zext32 (x : BitVec 16) : Word := x.setWidth 32

end Sys2Proof
end

