-- ==== Sys2Proof/Config.lean ====
section
/-! DEFINITION. Config.lean: the elaboration parameters of a unit (00_scope.md R6, R7). The spec leaves no value free
that a command produces, so there is no uninterpreted constant here. -/

namespace Sys2Proof

/-- The tuple a unit is elaborated for (R6). Which tuples are legal is `Params.valid` (Machine/Tables.lean). -/
structure Params where
  m : Nat
  poly : Nat
  nr : Nat
  fcr : Nat
deriving DecidableEq, Repr

/-- Q = 2^M, the field size (R6). -/
def Params.q (p : Params) : Nat := 2 ^ p.m

/-- N = Q − 1, the code length and the sentinel index (R6, R10). -/
def Params.n (p : Params) : Nat := p.q - 1

/-- K = N − NR, the message length (R6). -/
def Params.k (p : Params) : Nat := p.n - p.nr

namespace Config

/-- RS(15, 11) (R7). -/
def rs15_11 : Params := ⟨4, 0x13, 4, 1⟩

/-- RS(255, 239) (R7). -/
def rs255_239 : Params := ⟨8, 0x11D, 16, 1⟩

/-- RS(65535, 65471) (R7). -/
def rs65535_65471 : Params := ⟨16, 0x1100B, 64, 1⟩

/-- The tuple of `State.reset`. DESIGN CHOICE: the configuration of the spec's worked examples and programs (log
entry 3). -/
def unit : Params := rs15_11

end Config

end Sys2Proof
end

