-- ==== Sys2Proof/Syntax.lean ====
section
/-! DEFINITION. Syntax.lean: the 26 commands of 30_encoding.md R96, one constructor for each row of the opcode table. -/

namespace Sys2Proof

/-- The number of a value register, V[0] to V[7] (10_state.md R23). -/
abbrev VReg := Fin 8

/-- The number of an index register, I[0] to I[7] (10_state.md R24). -/
abbrev IReg := Fin 8

/-- A command with its operands, destination first (R96, R99). `sp` is the space number as the word holds it: a number
the command does not allow is E_ILLEGAL (R97), see `Instr.wf`. -/
inductive Instr where
  /-- R160 -/
  | nop
  /-- R161: `ldiv vD, imm` -/
  | ldiv (d : VReg) (imm : BitVec 16)
  /-- R162: `ldii iD, imm` -/
  | ldii (d : IReg) (imm : BitVec 16)
  /-- R163: `ldv vD, space[idx]` -/
  | ldv (r : VReg) (sp : BitVec 4) (idx : BitVec 16)
  /-- R164: `stv vA, code[idx]` -/
  | stv (r : VReg) (sp : BitVec 4) (idx : BitVec 16)
  /-- R165: `ldx iD, space[idx]` -/
  | ldx (r : IReg) (sp : BitVec 4) (idx : BitVec 16)
  /-- R166: `stx iA, eras[idx]` -/
  | stx (r : IReg) (sp : BitVec 4) (idx : BitVec 16)
  /-- R167: `log iD, vA` -/
  | log (d : IReg) (a : VReg)
  /-- R168: `exp vD, iA` -/
  | exp (d : VReg) (a : IReg)
  /-- R120: `fadd vD, vA, vB` -/
  | fadd (d a b : VReg)
  /-- R121: `imul iD, iA, iB` -/
  | imul (d a b : IReg)
  /-- R122: `idiv iD, iA, iB` -/
  | idiv (d a b : IReg)
  /-- R123: `vmul vD, vA, vB` -/
  | vmul (d a b : VReg)
  /-- R124: `vdiv vD, vA, vB` -/
  | vdiv (d a b : VReg)
  /-- R125: `vrcp vD, vA` -/
  | vrcp (d a : VReg)
  /-- R126: `fmavv vD, vA, vB, vC` -/
  | fmavv (d a b c : VReg)
  /-- R127: `fmaiv vD, iA, vB, vC` -/
  | fmaiv (d : VReg) (a : IReg) (b c : VReg)
  /-- R128: `fmaii vD, iA, iB, vC` -/
  | fmaii (d : VReg) (a b : IReg) (c : VReg)
  /-- R129: `asim vD, vA` -/
  | asim (d a : VReg)
  /-- R181 -/
  | encode
  /-- R191 -/
  | synd
  /-- R201 -/
  | eseed
  /-- R205 -/
  | bm
  /-- R220 -/
  | roots
  /-- R241 -/
  | forney
  /-- R250 -/
  | decode
deriving DecidableEq, Repr

end Sys2Proof
end

