-- ==== Sys2Proof/WellFormed.lean ====
section
/-! DEFINITION. WellFormed.lean: what an instruction term must satisfy to be one of the 26 commands (30_encoding.md R97).
Register fields, `imm` and `idx` cannot be ill-formed as syntax: their ranges depend on the unit and are checked by the
meanings (R95, R101). -/

namespace Sys2Proof

/-- The space numbers LDV allows (R97, R163). -/
def ldvSpaceNumbers : List Nat := [0, 2, 3, 4, 6, 9, 10]

/-- The space numbers LDX allows (R97, R165). -/
def ldxSpaceNumbers : List Nat := [1, 5, 7, 8]

/-- An M-format command names a space its rule allows; every other command is well formed (R97). -/
def Instr.wf : Instr → Bool
  | .ldv _ sp _ => decide (sp.toNat ∈ ldvSpaceNumbers)
  | .stv _ sp _ => decide (sp.toNat = 0)
  | .ldx _ sp _ => decide (sp.toNat ∈ ldxSpaceNumbers)
  | .stx _ sp _ => decide (sp.toNat = 1)
  | .nop | .ldiv .. | .ldii .. | .log .. | .exp .. | .fadd .. | .imul .. | .idiv .. | .vmul .. | .vdiv .. | .vrcp ..
  | .fmavv .. | .fmaiv .. | .fmaii .. | .asim .. | .encode | .synd | .eseed | .bm | .roots | .forney | .decode => true

end Sys2Proof
end

