-- ==== Sys2Proof/Decode.lean ====
section
/-! DEFINITION. Decode.lean: the command word and the command (30_encoding.md R90 to R101): the decoder, total on every
word and rejecting by name, and the encoder. A command word is one host word, so there is no byte order (20_memory.md
R66) and bit 0 is the least significant bit (00_scope.md R9). -/

namespace Sys2Proof

/-- Why a word is no command (R97). Both are E_ILLEGAL when written to CMD. The third cause of R97, a space the command
does not allow, is `Instr.wf` of the decoded command, and its meaning raises E_ILLEGAL (R163 to R166; log entry 10). -/
inductive Reject where
  /-- `op` is not in R96 -/
  | unassignedOpcode
  /-- a must-be-zero bit of the format is 1 -/
  | mustBeZero
deriving DecidableEq, Repr

/-- A register field of 3 bits at bit `lo` (R92 to R94). -/
def regField (w : Word) (lo : Nat) : Fin 8 := (w.extractLsb' lo 3).toFin

/-- Bits 15:0: `imm` of format I, `idx` of format M (R93 to R95). -/
def immField (w : Word) : BitVec 16 := w.extractLsb' 0 16

/-- Bits 22:19 of format M: the space number (R94). -/
def spField (w : Word) : BitVec 4 := w.extractLsb' 19 4

/-- Bits 31:26, the opcode of every format (R90). -/
def opField (w : Word) : BitVec 6 := w.extractLsb' 26 6

/-- The must-be-zero bits of a word of format Z (R91). -/
def zeroBitsZ : Word := 0x03FFFFFF#32
/-- ... of format I (R93). -/
def zeroBitsI : Word := 0x007F0000#32
/-- ... of format M (R94). -/
def zeroBitsM : Word := 0x00070000#32
/-- ... of format R with the fields d, a (R92: unused fields are zero). -/
def zeroBitsR2 : Word := 0x000FFFFF#32
/-- ... of format R with the fields d, a, b. -/
def zeroBitsR3 : Word := 0x0001FFFF#32
/-- ... of format R with the fields d, a, b, c. -/
def zeroBitsR4 : Word := 0x00003FFF#32

/-- The second check of R101: no must-be-zero bit is set. -/
def checkZero (w bits : Word) (i : Instr) : Except Reject Instr :=
  if w &&& bits = 0 then .ok i else .error .mustBeZero

/-- The first two checks of R101 and the operand fields of R91 to R94, by the map of R96. -/
def decode (w : Word) : Except Reject Instr :=
  let d := regField w 23
  let a := regField w 20
  let b := regField w 17
  let c := regField w 14
  match (opField w).toNat with
  | 0x00 => checkZero w zeroBitsZ .nop
  | 0x01 => checkZero w zeroBitsI (.ldiv d (immField w))
  | 0x02 => checkZero w zeroBitsI (.ldii d (immField w))
  | 0x03 => checkZero w zeroBitsM (.ldv d (spField w) (immField w))
  | 0x04 => checkZero w zeroBitsM (.stv d (spField w) (immField w))
  | 0x05 => checkZero w zeroBitsM (.ldx d (spField w) (immField w))
  | 0x06 => checkZero w zeroBitsM (.stx d (spField w) (immField w))
  | 0x07 => checkZero w zeroBitsR2 (.log d a)
  | 0x08 => checkZero w zeroBitsR2 (.exp d a)
  | 0x10 => checkZero w zeroBitsR3 (.fadd d a b)
  | 0x11 => checkZero w zeroBitsR3 (.imul d a b)
  | 0x12 => checkZero w zeroBitsR3 (.idiv d a b)
  | 0x13 => checkZero w zeroBitsR3 (.vmul d a b)
  | 0x14 => checkZero w zeroBitsR3 (.vdiv d a b)
  | 0x15 => checkZero w zeroBitsR2 (.vrcp d a)
  | 0x16 => checkZero w zeroBitsR4 (.fmavv d a b c)
  | 0x17 => checkZero w zeroBitsR4 (.fmaiv d a b c)
  | 0x18 => checkZero w zeroBitsR4 (.fmaii d a b c)
  | 0x19 => checkZero w zeroBitsR2 (.asim d a)
  | 0x20 => checkZero w zeroBitsZ .encode
  | 0x21 => checkZero w zeroBitsZ .synd
  | 0x22 => checkZero w zeroBitsZ .eseed
  | 0x23 => checkZero w zeroBitsZ .bm
  | 0x24 => checkZero w zeroBitsZ .roots
  | 0x25 => checkZero w zeroBitsZ .forney
  | 0x26 => checkZero w zeroBitsZ .decode
  | _ => .error .unassignedOpcode

/-- The opcode of a command (R96). -/
def opcode : Instr → BitVec 6
  | .nop => 0x00#6
  | .ldiv .. => 0x01#6
  | .ldii .. => 0x02#6
  | .ldv .. => 0x03#6
  | .stv .. => 0x04#6
  | .ldx .. => 0x05#6
  | .stx .. => 0x06#6
  | .log .. => 0x07#6
  | .exp .. => 0x08#6
  | .fadd .. => 0x10#6
  | .imul .. => 0x11#6
  | .idiv .. => 0x12#6
  | .vmul .. => 0x13#6
  | .vdiv .. => 0x14#6
  | .vrcp .. => 0x15#6
  | .fmavv .. => 0x16#6
  | .fmaiv .. => 0x17#6
  | .fmaii .. => 0x18#6
  | .asim .. => 0x19#6
  | .encode => 0x20#6
  | .synd => 0x21#6
  | .eseed => 0x22#6
  | .bm => 0x23#6
  | .roots => 0x24#6
  | .forney => 0x25#6
  | .decode => 0x26#6

/-- A register number as its 3-bit field. -/
def regBits (r : Fin 8) : BitVec 3 := BitVec.ofFin r

/-- A field at bit `lo` of a word that is 0 elsewhere. -/
def place {n : Nat} (x : BitVec n) (lo : Nat) : Word := x.setWidth 32 <<< lo

/-- Format Z (R91). -/
def packZ (op : BitVec 6) : Word := place op 26

/-- Format R (R92). -/
def packR (op : BitVec 6) (d a b c : Fin 8) : Word :=
  place op 26 ||| place (regBits d) 23 ||| place (regBits a) 20 ||| place (regBits b) 17 ||| place (regBits c) 14

/-- Format I (R93). -/
def packI (op : BitVec 6) (d : Fin 8) (imm : BitVec 16) : Word := place op 26 ||| place (regBits d) 23 ||| place imm 0

/-- Format M (R94). -/
def packM (op : BitVec 6) (r : Fin 8) (sp : BitVec 4) (idx : BitVec 16) : Word :=
  place op 26 ||| place (regBits r) 23 ||| place sp 19 ||| place idx 0

/-- The command word of a command (R91 to R96); a field it does not use is 0. -/
def encode (i : Instr) : Word :=
  match i with
  | .nop | .encode | .synd | .eseed | .bm | .roots | .forney | .decode => packZ (opcode i)
  | .ldiv d imm | .ldii d imm => packI (opcode i) d imm
  | .ldv r sp idx | .stv r sp idx | .ldx r sp idx | .stx r sp idx => packM (opcode i) r sp idx
  | .log d a | .exp d a | .vrcp d a | .asim d a => packR (opcode i) d a 0 0
  | .fadd d a b | .imul d a b | .idiv d a b | .vmul d a b | .vdiv d a b => packR (opcode i) d a b 0
  | .fmavv d a b c | .fmaiv d a b c | .fmaii d a b c => packR (opcode i) d a b c

/-- The host's view of the decoder: the command in the table's `nbits`-bit word `w`. Every row has 32 bits and one word
(R90), so the bits above `nbits` are 0 anyway. -/
def decodeTableWord (nbits w : Nat) : Option Instr :=
  match decode (BitVec.ofNat 32 (w % 2 ^ nbits)) with
  | .ok i => some i
  | .error _ => none

end Sys2Proof
end

