-- ==== Sys2Proof/Machine/State.lean ====
section
/-! DEFINITION. Machine/State.lean: the architectural state of the GF2M-RS unit (10_state.md R20 to R47) and its reset
values (R46, 70_reset_and_hazards.md R290). -/

namespace Sys2Proof.Machine

/-- The fourteen spaces, numbered 0 to 13 in this order (20_memory.md R60). -/
inductive Space where
  | code | eras | syn | lambda | omega | loc | mag | g | logt | expt | asit | vreg | ireg | csr
deriving DecidableEq, Repr

/-- The control and status registers, at CSR indices 0x0 to 0xD in this order (10_state.md R26). -/
inductive Csr where
  | cmd | status | result | ecnt | lreg | deg | nroots | finfo
  | paramM | paramPoly | paramNr | paramFcr | paramN | paramK
deriving DecidableEq, Repr

/-- The fault causes of 60_exceptions.md R261. -/
inductive Cause where
  | illegal | range | divZero | sentinel | ecnt | bus
deriving DecidableEq, Repr

/-- What the outside world does to the unit: one port transaction (20_memory.md R61) or a reset (70_reset_and_hazards.md
R290). -/
inductive HostEvent where
  | read (addr : HostAddr)
  | write (addr : HostAddr) (data : Word)
  | reset
deriving DecidableEq, Repr

/-- What stops the machine with a fault: nothing. Every fault of the spec sets the fault latch and is a NEXT state
(60_exceptions.md R262), so no one raises a value of this type (log entry 17; safe). -/
inductive Fault where
deriving DecidableEq, Repr

/-- Why the model makes no claim about a run. -/
inductive Refusal where
  /-- An instruction without a meaning in `exec`. No arm uses it. Safe. -/
  | notModelled (mnemonic : String)
  /-- Raised by a command or a host read that reads array element `index` of `space` before anything has written it
  since reset: 10_state.md R47 and 93_implementation_defined.md U1 ask a model to refuse it. Safe (log entry 2). -/
  | unspecifiedElement (space : Space) (index : Nat)
  /-- Raised by `State.elaborate` on a parameter tuple for which no unit exists (00_scope.md R6, 93_implementation_defined.md
  U9, U10). Safe (log entry 14). -/
  | noSuchUnit
deriving DecidableEq, Repr

/-- One listed array element: its host word address (20_memory.md R61) and its symbol. -/
abbrev Cell := Nat × Symbol

/-- The arrays, spaces 0 to 6 (10_state.md R36 to R42). An address that is not listed is unspecified (R47). -/
abbrev Memory := List Cell

/-- The canonical form: addresses strictly rising. An unlisted address has no value, so no listed entry can equal what
an unlisted one reads as. -/
abbrev Memory.wf (m : Memory) : Prop := m.Pairwise (fun x y => x.1 < y.1)

/-- The state of one unit. -/
structure State where
  /-- (M, POLY, NR, FCR): PARAM_M .. PARAM_K (R35) and, through them, the ROMs G, LOGT, EXPT, ASIT (R43) -/
  params : Params
  /-- V[0..7] (R23) -/
  vreg : Vector Symbol 8
  /-- I[0..7] (R24) -/
  ireg : Vector Symbol 8
  /-- CODE, ERAS, SYN, LAMBDA, OMEGA, LOC, MAG (R36 to R42) -/
  mem : Memory
  /-- STATUS (R28) -/
  status : Word
  /-- RESULT (R29) -/
  result : Word
  /-- ECNT (R30) -/
  ecnt : Half
  /-- LREG (R31) -/
  lreg : Half
  /-- DEG (R32) -/
  deg : Half
  /-- NROOTS (R33) -/
  nroots : Half
  /-- FINFO (R34) -/
  finfo : Word
  /-- The model's own: the events still to come from outside, the next one first (log entry 4). -/
  host : List HostEvent
  /-- The model's own: the data the port returned to the last host read (log entry 5). -/
  rdata : Option Word
deriving DecidableEq, Repr

/-- The state after reset of the unit elaborated for `p` (R46, R290). V and I are 0 by DESIGN CHOICE (log entry 1); no
array element is listed (log entry 2). -/
def State.resetOf (p : Params) : State where
  params := p
  vreg := Vector.replicate 8 0
  ireg := Vector.replicate 8 0
  mem := []
  status := 0
  result := 0
  ecnt := 0
  lreg := 0
  deg := 0
  nroots := 0
  finfo := 0
  host := []
  rdata := none

/-- The machine right after reset: the unit of `Config.unit`, nothing pending from outside. -/
def State.reset : State := State.resetOf Config.unit

end Sys2Proof.Machine
end

