-- ==== Sys2Proof/Machine/Flags.lean ====
section
/-! DEFINITION. Machine/Flags.lean: the unit has no condition codes and no arithmetic flags (10_state.md R25). Its only
status bits are those of STATUS (R28), whose fields and codes stand here. -/

namespace Sys2Proof.Machine

/-- STATUS.FAULT, bit 0 (R28). -/
def faultBit (status : Word) : Bool := status.getLsbD 0

/-- STATUS.ECODE, bits 7:4 (R28). -/
def ecodeField (status : Word) : BitVec 4 := status.extractLsb' 4 4

/-- The code of a fault cause (60_exceptions.md R261). -/
def causeCode : Cause → BitVec 4
  | .illegal => 1
  | .range => 2
  | .divZero => 3
  | .sentinel => 4
  | .ecnt => 5
  | .bus => 6

/-- STATUS after a fault: FAULT = 1, ECODE = the code, every other bit 0 (R28, R262). -/
def faultStatus (c : Cause) : Word := 0#24 ++ causeCode c ++ 0#3 ++ 1#1

/-- STATUS.FAULT of a state. -/
def State.faulted (s : State) : Bool := faultBit s.status

end Sys2Proof.Machine
end

