-- ==== Sys2Proof/Machine/Tables.lean ====
section
/-! DEFINITION. Machine/Tables.lean: the contents of LOGT, EXPT and ASIT as functions of (M, POLY), and the test of a
parameter tuple (41_tables_and_generator.md R140 to R144, 00_scope.md R6). The integers of the walk are unbounded, as in
R142; the entries are symbols. -/

namespace Sys2Proof.Machine

/-- One step of the builder walk: multiply by x modulo POLY (R142). -/
def walkStep (p : Params) (a : Nat) : Nat :=
  if a &&& (p.q >>> 1) ≠ 0 then (a <<< 1) ^^^ p.poly else a <<< 1

/-- The walk's value after `i` steps from 1: α^i (R141, R142). -/
def alphaPow (p : Params) : Nat → Nat
  | 0 => 1
  | i + 1 => walkStep p (alphaPow p i)

/-- The builder's test of POLY (R142): `fuel` more steps from `a`, none of them at 0 or at a value already seen, and the
walk ends at 1. -/
def walkAccepts (p : Params) : Nat → Nat → List Nat → Bool
  | 0, a, _ => decide (a = 1)
  | fuel + 1, a, seen => decide (a ≠ 0) && !seen.contains a && walkAccepts p fuel (walkStep p a) (a :: seen)

/-- EXPT: α^i for i in [0, N), 0 at the sentinel position N (R141). -/
def expt (p : Params) (i : Nat) : Value := if i < p.n then BitVec.ofNat 16 (alphaPow p i) else 0

/-- The first step at which the walk, now at `a` after `i` steps, meets `v`, looking at `fuel` steps; N if none does. -/
def logSearch (p : Params) (v : Nat) : Nat → Nat → Nat → Nat
  | 0, _, _ => p.n
  | fuel + 1, i, a => if a = v then i else logSearch p v fuel (i + 1) (walkStep p a)

/-- LOGT: N for the value 0, and the i with α^i = v otherwise (R141). -/
def logt (p : Params) (v : Value) : Nat := if v = 0 then p.n else logSearch p v.toNat p.n 0 1

/-- y = x² + x, computed as R143 does. -/
def asitImage (p : Params) (x : Value) : Value := expt p ((2 * logt p x) % p.n) ^^^ x

/-- Every even x in [2, N) (R143). -/
def asitDomain (p : Params) : List Nat := List.range' 2 (p.q / 2 - 1) 2

/-- ASIT: the even x with y = x² + x, 0 where there is none; Q entries (R143, R144). -/
def asit (p : Params) (y : Value) : Value :=
  (asitDomain p).foldl (fun entry x => if asitImage p (BitVec.ofNat 16 x) = y then BitVec.ofNat 16 x else entry) 0

end Sys2Proof.Machine

namespace Sys2Proof

/-- The tuples a unit exists for (R6, R142). -/
def Params.valid (p : Params) : Bool :=
  decide (2 ≤ p.m) && decide (p.m ≤ 16) && decide (p.poly >>> p.m = 1) && decide (1 ≤ p.nr) && decide (p.nr ≤ p.n - 1)
    && decide (p.fcr ≤ p.n - 1) && Machine.walkAccepts p p.n 1 []

end Sys2Proof
end

