-- ==== Sys2Proof/Machine/Field.lean ====
section
/-! DEFINITION. Machine/Field.lean: the field helper functions of 40_field_alu.md R110 to R118. Values are symbols, indices
are natural numbers in [0, N]. A helper's precondition is its caller's business (part 1 of that file). -/

namespace Sys2Proof.Machine

/-- The storage form of an index (10_state.md R24). -/
def toIndex (i : Nat) : Index := BitVec.ofNat 16 i

/-- R110. -/
def add (a b : Value) : Value := a ^^^ b

/-- R111; precondition i, j ≠ N. -/
def imul (p : Params) (i j : Nat) : Nat := (i + j) % p.n

/-- R112, the mathematical residue of i − j; precondition i, j ≠ N. -/
def idiv (p : Params) (i j : Nat) : Nat := (((i : Int) - (j : Int)) % (p.n : Int)).toNat

/-- R113. -/
def mulV (p : Params) (a b : Value) : Value :=
  if a = 0 ∨ b = 0 then 0 else expt p ((logt p a + logt p b) % p.n)

/-- R114; precondition b ≠ 0. -/
def divV (p : Params) (a b : Value) : Value :=
  if a = 0 then 0 else expt p (((logt p a : Int) - (logt p b : Int)) % (p.n : Int)).toNat

/-- R115; precondition a ≠ 0. -/
def rcp (p : Params) (a : Value) : Value := expt p ((p.n - logt p a) % p.n)

/-- R116; precondition i ≠ N. -/
def mulIv (p : Params) (i : Nat) (b : Value) : Value := if b = 0 then 0 else expt p ((i + logt p b) % p.n)

/-- R116. -/
def fmaVv (p : Params) (a b c : Value) : Value := add (mulV p a b) c

/-- R116; precondition i ≠ N. -/
def fmaIv (p : Params) (i : Nat) (b c : Value) : Value := add (mulIv p i b) c

/-- R116; precondition i, j ≠ N. -/
def fmaIi (p : Params) (i j : Nat) (c : Value) : Value := add (expt p ((i + j) % p.n)) c

/-- R117. -/
def asImap (p : Params) (y : Value) : Value := asit p y

/-- R118: `alpha(k)` for an integer k. -/
def alpha (p : Params) (k : Int) : Value := expt p (k % (p.n : Int)).toNat

/-- The XOR of a list of values: the sums of 44_syndrome.md to 47_forney.md. -/
def sumV (xs : List Value) : Value := xs.foldl add 0

end Sys2Proof.Machine
end

