-- ==== Sys2Proof/Machine/Generator.lean ====
section
/-! DEFINITION. Machine/Generator.lean: the contents of the ROM G (41_tables_and_generator.md R146 to R148). -/

namespace Sys2Proof.Machine

/-- Pass i of R147. `lower` is tmp[0..i−1], the coefficients below the leading one of the product so far; `tmp[i] <- 1`
makes that one explicit. The passes over j go down, so each reads tmp[j] and tmp[j−1] as they were before the pass; the
0 below tmp[0] makes its step `mul_iv`. -/
def genPass (p : Params) (lower : List Value) (i : Nat) : List Value :=
  let tmp := lower ++ [1]
  List.zipWith (fmaIv p ((p.fcr + i) % p.n)) tmp (0 :: tmp)

/-- The coefficients g_0 .. g_NR of the generator polynomial as values (R146, R147). -/
def genPoly (p : Params) : List Value := (List.range p.nr).foldl (genPass p) [] ++ [1]

/-- G[k], the index of g_k (R146). -/
def gRom (p : Params) (k : Nat) : Nat := logt p ((genPoly p).getD k 0)

end Sys2Proof.Machine
end

