-- ==== Sys2Proof/Machine/Ops.lean ====
section
/-! DEFINITION. Machine/Ops.lean: the named operations over the state: the spaces and their elements (20_memory.md R60,
R61), the memory, the registers, taking a fault (60_exceptions.md R262) and leaving the fault state (R265). -/

namespace Sys2Proof.Machine

/-- The space number (R60). -/
def Space.number : Space → Nat
  | .code => 0
  | .eras => 1
  | .syn => 2
  | .lambda => 3
  | .omega => 4
  | .loc => 5
  | .mag => 6
  | .g => 7
  | .logt => 8
  | .expt => 9
  | .asit => 10
  | .vreg => 11
  | .ireg => 12
  | .csr => 13

/-- The number of locations of a space (R60). -/
def Space.size (p : Params) : Space → Nat
  | .code => p.n
  | .eras => p.nr
  | .syn => p.nr
  | .lambda => p.nr + 1
  | .omega => p.nr
  | .loc => p.nr
  | .mag => p.nr
  | .g => p.nr + 1
  | .logt => p.q
  | .expt => p.q
  | .asit => p.q
  | .vreg => 8
  | .ireg => 8
  | .csr => 14

/-- The host word address of location (space, index) (R61). -/
def addressOf (sp : Space) (k : Nat) : Nat := sp.number * 65536 + k

/-- The symbol listed at an address. -/
def Memory.find (a : Nat) : Memory → Option Symbol
  | [] => none
  | (b, x) :: rest => if a = b then some x else Memory.find a rest

/-- List `x` at address `a`, keeping the addresses rising. -/
def Memory.put (a : Nat) (x : Symbol) : Memory → Memory
  | [] => [(a, x)]
  | (b, y) :: rest =>
    if a < b then (a, x) :: (b, y) :: rest
    else if a = b then (a, x) :: rest
    else (b, y) :: Memory.put a x rest

/-- V[r] <- x (R11). -/
def State.setV (s : State) (r : VReg) (x : Value) : State := { s with vreg := s.vreg.set r x }

/-- I[r] <- x (R11). -/
def State.setI (s : State) (r : IReg) (x : Index) : State := { s with ireg := s.ireg.set r x }

/-- V[r] (R11). -/
def State.v (s : State) (r : VReg) : Value := s.vreg[r]

/-- I[r] as a number (R11). -/
def State.i (s : State) (r : IReg) : Nat := s.ireg[r].toNat

/-- Element k of a space with M-bit elements; none where nothing has written it since reset (R47). The ROMs are their
constant contents (R43). -/
def State.elem (s : State) (sp : Space) (k : Nat) : Option Symbol :=
  match sp with
  | .code | .eras | .syn | .lambda | .omega | .loc | .mag => Memory.find (addressOf sp k) s.mem
  | .g => some (toIndex (gRom s.params k))
  | .logt => some (toIndex (Machine.logt s.params (BitVec.ofNat 16 k)))
  | .expt => some (Machine.expt s.params k)
  | .asit => some (Machine.asit s.params (BitVec.ofNat 16 k))
  | .vreg => s.vreg[k]?
  | .ireg => s.ireg[k]?
  | .csr => none

/-- SPACE[k] <- x for a space of 10_state.md section 6 (R11). -/
def State.setElem (s : State) (sp : Space) (k : Nat) (x : Symbol) : State :=
  { s with mem := Memory.put (addressOf sp k) x s.mem }

/-- Write `xs` to the elements of `sp` from `k` up. -/
def State.setRange (s : State) (sp : Space) (k : Nat) : List Symbol → State
  | [] => s
  | x :: xs => (s.setElem sp k x).setRange sp (k + 1) xs

/-- Why a command ends before its last write: `raise Fault(code)` (R11), or a read the model refuses (R47). -/
inductive Stop where
  | raise (c : Cause)
  | refuse (r : Refusal)
deriving DecidableEq, Repr

/-- A computation of a command. -/
abbrev Run := Except Stop

/-- SPACE[k] (R11); an element that nothing has written is refused (R47). -/
def readElem (s : State) (sp : Space) (k : Nat) : Run Symbol :=
  match s.elem sp k with
  | some x => .ok x
  | none => .error (.refuse (.unspecifiedElement sp k))

/-- SPACE[k .. k + count) in ascending order. -/
def readRange (s : State) (sp : Space) (k : Nat) : Nat → Run (List Symbol)
  | 0 => .ok []
  | count + 1 => do
    let x ← readElem s sp k
    let xs ← readRange s sp (k + 1) count
    .ok (x :: xs)

/-- TAKING A FAULT, the unit's one exception (R262): STATUS.FAULT <- 1, STATUS.ECODE <- code, FINFO <- `info`, nothing else.
`info` is the command word or the word address. With STATUS.FAULT = 1 no fault can be raised. -/
def raiseFault (info : Word) (c : Cause) (s : State) : State :=
  if s.faulted then s else { s with status := faultStatus c, finfo := info }

/-- LEAVING THE FAULT STATE: reset, the only way out (R265), which puts every part of the unit in its reset state
(70_reset_and_hazards.md R290). What the outside world will do next is no part of the unit and stays. -/
def resetUnit (s : State) : State := { State.resetOf s.params with host := s.host }

/-- RESULT <- w (10_state.md R29). -/
def State.setResult (s : State) (w : Word) : State := { s with result := w }

/-- The number of nonzero symbols, the return value of SYND and FORNEY (10_state.md R29). -/
def countNonzero (xs : List Value) : Nat := (xs.filter (· ≠ 0)).length

/-- A count as RESULT holds it. -/
def countWord (xs : List Value) : Word := BitVec.ofNat 32 (countNonzero xs)

/-- The end of a command: what it wrote, or its fault over the state `s` it started from with FINFO the command word
(R262), or a refusal. -/
def complete (i : Instr) (s : State) (r : Run State) : Host.Outcome State Fault Refusal :=
  match r with
  | .ok t => .next t
  | .error (.raise c) => .next (raiseFault (encode i) c s)
  | .error (.refuse r) => .refused r

/-- Elaboration of a tuple (00_scope.md R6, 93_implementation_defined.md U9, U10): the unit as reset leaves it, or no unit. -/
def State.elaborate (p : Params) : Host.Outcome State Fault Refusal :=
  if p.valid then .next (State.resetOf p) else .refused .noSuchUnit

end Sys2Proof.Machine
end

