-- ==== Sys2Proof/Machine/Operands.lean ====
section
/-! DEFINITION. Machine/Operands.lean: the operand forms (30_encoding.md R92 to R97): immediates, index registers used as
factors, and the space and index of the M-format commands, with their checks in the order of R101. -/

namespace Sys2Proof.Machine

/-- `imm` as a symbol: imm < Q, else E_RANGE (R95). -/
def immOperand (s : State) (imm : BitVec 16) : Run Symbol :=
  if imm.toNat < s.params.q then .ok imm else .error (.raise .range)

/-- An index register used in a multiplicative operation: the sentinel N is E_SENTINEL (40_field_alu.md R121, R127). -/
def factorOperand (s : State) (r : IReg) : Run Nat :=
  if s.i r = s.params.n then .error (.raise .sentinel) else .ok (s.i r)

/-- A value register used as a divisor: 0 is E_DIVZERO (40_field_alu.md R124, R125). -/
def divisorOperand (s : State) (r : VReg) : Run Value :=
  if s.v r = 0 then .error (.raise .divZero) else .ok (s.v r)

/-- The space an LDV names, if its number is legal (42_moves.md R163). -/
def ldvSpace (sp : BitVec 4) : Option Space :=
  match sp.toNat with
  | 0 => some .code
  | 2 => some .syn
  | 3 => some .lambda
  | 4 => some .omega
  | 6 => some .mag
  | 9 => some .expt
  | 10 => some .asit
  | _ => none

/-- R164. -/
def stvSpace (sp : BitVec 4) : Option Space :=
  match sp.toNat with
  | 0 => some .code
  | _ => none

/-- R165. -/
def ldxSpace (sp : BitVec 4) : Option Space :=
  match sp.toNat with
  | 1 => some .eras
  | 5 => some .loc
  | 7 => some .g
  | 8 => some .logt
  | _ => none

/-- R166. -/
def stxSpace (sp : BitVec 4) : Option Space :=
  match sp.toNat with
  | 1 => some .eras
  | _ => none

/-- The location an M-format command names: E_ILLEGAL for a space it does not allow, then E_RANGE for an index outside it
(R97, R95, R101). -/
def memOperand (s : State) (space : Option Space) (idx : BitVec 16) : Run (Space × Nat) :=
  match space with
  | none => .error (.raise .illegal)
  | some sp => if idx.toNat < sp.size s.params then .ok (sp, idx.toNat) else .error (.raise .range)

end Sys2Proof.Machine
end

