-- ==== Sys2Proof/Machine/Alu.lean ====
section
/-! DEFINITION. Machine/Alu.lean: the field ALU commands (40_field_alu.md R120 to R129). All sources are read before the
destination is written (section 3 of that file). -/

namespace Sys2Proof.Machine

/-- FADD (R120). -/
def execFadd (d a b : VReg) (s : State) : Host.Outcome State Fault Refusal :=
  .next (s.setV d (add (s.v a) (s.v b)))

/-- IMUL (R121). -/
def execImul (d a b : IReg) (s : State) : Host.Outcome State Fault Refusal :=
  complete (.imul d a b) s do
    let i ← factorOperand s a
    let j ← factorOperand s b
    .ok (s.setI d (toIndex (imul s.params i j)))

/-- IDIV (R122). -/
def execIdiv (d a b : IReg) (s : State) : Host.Outcome State Fault Refusal :=
  complete (.idiv d a b) s do
    let i ← factorOperand s a
    let j ← factorOperand s b
    .ok (s.setI d (toIndex (idiv s.params i j)))

/-- VMUL (R123). -/
def execVmul (d a b : VReg) (s : State) : Host.Outcome State Fault Refusal :=
  .next (s.setV d (mulV s.params (s.v a) (s.v b)))

/-- VDIV (R124): the divisor is tested also when the dividend is 0. -/
def execVdiv (d a b : VReg) (s : State) : Host.Outcome State Fault Refusal :=
  complete (.vdiv d a b) s do
    let y ← divisorOperand s b
    .ok (s.setV d (divV s.params (s.v a) y))

/-- VRCP (R125). -/
def execVrcp (d a : VReg) (s : State) : Host.Outcome State Fault Refusal :=
  complete (.vrcp d a) s do
    let x ← divisorOperand s a
    .ok (s.setV d (rcp s.params x))

/-- FMAVV (R126). -/
def execFmavv (d a b c : VReg) (s : State) : Host.Outcome State Fault Refusal :=
  .next (s.setV d (fmaVv s.params (s.v a) (s.v b) (s.v c)))

/-- FMAIV (R127): the sentinel is tested before V[b] is looked at. -/
def execFmaiv (d : VReg) (a : IReg) (b c : VReg) (s : State) : Host.Outcome State Fault Refusal :=
  complete (.fmaiv d a b c) s do
    let i ← factorOperand s a
    .ok (s.setV d (fmaIv s.params i (s.v b) (s.v c)))

/-- FMAII (R128). -/
def execFmaii (d : VReg) (a b : IReg) (c : VReg) (s : State) : Host.Outcome State Fault Refusal :=
  complete (.fmaii d a b c) s do
    let i ← factorOperand s a
    let j ← factorOperand s b
    .ok (s.setV d (fmaIi s.params i j (s.v c)))

/-- ASIM (R129). -/
def execAsim (d a : VReg) (s : State) : Host.Outcome State Fault Refusal :=
  .next (s.setV d (asImap s.params (s.v a)))

end Sys2Proof.Machine
end

