-- ==== Sys2Proof/Machine/Locator.lean ====
section
/-! DEFINITION. Machine/Locator.lean: the position convention, ESEED and BM (45_eseed_bm.md R200 to R207). -/

namespace Sys2Proof.Machine

/-- Index of the locator value X_p = α^(N−1−p) of a position: idiv(N − 1, p) (R200, R201). -/
def locatorIndex (p : Params) (pos : Nat) : Nat := idiv p (p.n - 1) pos

/-- Index of the root X_p^(−1) = α^((p+1) mod N) of a position (R200). -/
def rootOfPosition (p : Params) (pos : Nat) : Nat := (pos + 1) % p.n

/-- The check loop of R201 over ERAS[k .. k + count): the entries are read in ascending order, and the first that is N
raises E_SENTINEL. -/
def readErasures (s : State) (k : Nat) : Nat → Run (List Nat)
  | 0 => .ok []
  | count + 1 => do
    let e ← readElem s .eras k
    if e.toNat = s.params.n then .error (.raise .sentinel)
    else do
      let es ← readErasures s (k + 1) count
      .ok (e.toNat :: es)

/-- One erasure's pass of R201: lam[j+1] <- lam[j+1] + X · lam[j], every lam[j] as it was before the pass (j descends);
lam[0] stays. -/
def seedPass (p : Params) (lam : List Value) (pos : Nat) : List Value :=
  List.zipWith (fun x below => add x (mulIv p (locatorIndex p pos) below)) lam (0 :: lam)

/-- The erasure locator ∏ (1 + x · X_e) (R201, R202). On lam = 1, 0, .., 0 the pass gives R201's "First erasure" line,
because X · 1 = EXPT[index of X]. -/
def seedLocator (p : Params) (eras : List Nat) : List Value :=
  eras.foldl (seedPass p) (1 :: List.replicate p.nr 0)

/-- The ESEED stage (R201): E_ECNT, then E_SENTINEL, then LAMBDA is written. -/
def eseedStage (s : State) : Run State :=
  if s.ecnt.toNat > s.params.nr then .error (.raise .ecnt)
  else do
    let eras ← readErasures s 0 s.ecnt.toNat
    .ok (s.setRange .lambda 0 (seedLocator s.params eras))

/-- The temporaries of BM: lam, B, dprev, L (R205). -/
structure BmState where
  lam : List Value
  b : List Value
  dprev : Value
  len : Nat
deriving DecidableEq, Repr

/-- Δ = Σ_{k=0}^{L} lam[k] · SYN[n−k] (R205). -/
def discrepancy (p : Params) (syn lam : List Value) (len n : Nat) : Value :=
  sumV ((List.range (len + 1)).map fun k => mulV p (lam.getD k 0) (syn.getD (n - k) 0))

/-- x · B, the coefficient of x^(NR+1) dropped (R205). -/
def shiftB (p : Params) (b : List Value) : List Value := 0 :: b.take p.nr

/-- Pass n of R205 with `e` erasures. The length update is n + 1 − L + e (90_conflicts.md C2). -/
def bmPass (p : Params) (syn : List Value) (e : Nat) (st : BmState) (n : Nat) : BmState :=
  let d := discrepancy p syn st.lam st.len n
  let xb := shiftB p st.b
  if d = 0 then { st with b := xb }
  else
    let c := divV p d st.dprev
    let lam := List.zipWith (fun l x => add l (mulV p c x)) st.lam xb
    if 2 * st.len ≤ n + e then { lam := lam, b := st.lam, dprev := d, len := n + 1 - st.len + e }
    else { st with lam := lam, b := xb }

/-- The passes n = e, .., NR − 1 of R205 from the locator `lam`. -/
def berlekampMassey (p : Params) (syn lam : List Value) (e : Nat) : BmState :=
  (List.range' e (p.nr - e)).foldl (bmPass p syn e) { lam := lam, b := lam, dprev := 1, len := e }

/-- SYN as BM reads it: with ECNT = NR no pass runs and nothing is read (R205; log entry 11). -/
def readSynForBm (s : State) (e : Nat) : Run (List Value) :=
  if e < s.params.nr then readRange s .syn 0 s.params.nr else .ok []

/-- The BM stage (R205): writes LAMBDA and LREG. -/
def bmStage (s : State) : Run State :=
  if s.ecnt.toNat > s.params.nr then .error (.raise .ecnt)
  else do
    let lam ← readRange s .lambda 0 (s.params.nr + 1)
    let syn ← readSynForBm s s.ecnt.toNat
    let st := berlekampMassey s.params syn lam s.ecnt.toNat
    .ok { s.setRange .lambda 0 st.lam with lreg := BitVec.ofNat 16 st.len }

/-- ESEED (R201). -/
def execEseed (s : State) : Host.Outcome State Fault Refusal := complete .eseed s (eseedStage s)

/-- BM (R205). -/
def execBm (s : State) : Host.Outcome State Fault Refusal := complete .bm s (bmStage s)

end Sys2Proof.Machine
end

