-- ==== Sys2Proof/Machine/Roots.lean ====
section
/-! DEFINITION. Machine/Roots.lean: ROOTS, the root finder (46_rootfinder.md R220 to R225). -/

namespace Sys2Proof.Machine

/-- The trimmed degree: scanning lam from degree `d` down for the first nonzero coefficient (R220). -/
def trimmedDegree (lam : List Value) : Nat → Nat
  | 0 => 0
  | d + 1 => if lam.getD (d + 1) 0 = 0 then trimmedDegree lam d else d + 1

/-- pos(x) = (LOGT[x] − 1) mod N, the location of a root x (R220). -/
def positionOfRoot (p : Params) (x : Value) : Nat := idiv p (logt p x) 1

/-- Degree 1 (R222). -/
def rootsDeg1 (p : Params) (lam : List Value) : List Nat := [positionOfRoot p (rcp p (lam.getD 1 0))]

/-- Degree 2, the quadratic solver (R223): the root from R first, the one from R + 1 second. -/
def rootsDeg2 (p : Params) (lam : List Value) : List Nat :=
  let c := lam.getD 0 0
  let b := lam.getD 1 0
  let a := lam.getD 2 0
  if b = 0 ∨ c = 0 then []
  else
    let ba := divV p b a
    let kq := divV p (mulV p a c) (mulV p b b)
    let r := asImap p kq
    if r = 0 then []
    else [positionOfRoot p (mulV p ba r), positionOfRoot p (mulV p ba (add r 1))]

/-- Σ_j cs[j] · α^(j·r): the polynomial `cs` at the point of index `r` (R224, R241). -/
def evalAt (p : Params) (cs : List Value) (r : Nat) : Value :=
  sumV ((List.range cs.length).map fun j => mulIv p ((j * r) % p.n) (cs.getD j 0))

/-- Degree 3 and more, the Chien search (R224): the positions, ascending, whose root makes lam[0..deg] vanish. -/
def rootsChien (p : Params) (lam : List Value) (deg : Nat) : List Nat :=
  (List.range p.n).filter fun pos => evalAt p (lam.take (deg + 1)) (rootOfPosition p pos) = 0

/-- The dispatch on the trimmed degree (R220, R221). -/
def findRoots (p : Params) (lam : List Value) (deg : Nat) : List Nat :=
  match deg with
  | 0 => []
  | 1 => rootsDeg1 p lam
  | 2 => rootsDeg2 p lam
  | _ => rootsChien p lam deg

/-- The ROOTS stage (R220): writes DEG, NROOTS, LOC[0..NROOTS). -/
def rootsStage (s : State) : Run State := do
  let lam ← readRange s .lambda 0 (s.params.nr + 1)
  let deg := trimmedDegree lam s.params.nr
  let locs := findRoots s.params lam deg
  .ok { s.setRange .loc 0 (locs.map toIndex) with deg := BitVec.ofNat 16 deg, nroots := BitVec.ofNat 16 locs.length }

/-- ROOTS (R220). -/
def execRoots (s : State) : Host.Outcome State Fault Refusal := complete .roots s (rootsStage s)

end Sys2Proof.Machine
end

