-- ==== Sys2Proof/Machine/Forney.lean ====
section
/-! DEFINITION. Machine/Forney.lean: FORNEY, the error-magnitude evaluator and corrector (47_forney.md R240 to R244). -/

namespace Sys2Proof.Machine

/-- Ω[i] = Σ_{j=0}^{i} Λ[j] · S[i−j] for i in [0, NR) (R240, R241). -/
def evaluator (p : Params) (lam syn : List Value) : List Value :=
  (List.range p.nr).map fun i =>
    sumV ((List.range (i + 1)).map fun j => mulV p (lam.getD j 0) (syn.getD (i - j) 0))

/-- Λ′ at the point of index `r`: the odd j ≤ NR, one degree dropped (R240, R241). -/
def derivativeAt (p : Params) (lam : List Value) (r : Nat) : Value :=
  sumV ((List.range' 1 ((p.nr + 1) / 2) 2).map fun j => mulIv p (((j - 1) * r) % p.n) (lam.getD j 0))

/-- The magnitude at location `l` (R241): E_DIVZERO where Λ′ vanishes. -/
def magnitude (p : Params) (om lam : List Value) (l : Nat) : Run Value :=
  let xk := locatorIndex p l
  let r := rootOfPosition p l
  let dv := derivativeAt p lam r
  if dv = 0 then .error (.raise .divZero)
  else
    let t := divV p (evalAt p om r) dv
    if t = 0 then .ok 0
    else .ok (alpha p ((logt p t : Int) + (1 - (p.fcr : Int)) * (xk : Int)))

/-- The magnitudes of all recorded locations, computed before anything is written (R241). -/
def magnitudes (p : Params) (om lam : List Value) : List Nat → Run (List Value)
  | [] => .ok []
  | l :: ls => do
    let m ← magnitude p om lam l
    let ms ← magnitudes p om lam ls
    .ok (m :: ms)

/-- CODE[LOC[k]] <- CODE[LOC[k]] + mag[k] for each k in turn (R241). -/
def applyMagnitudes (s : State) : List (Nat × Value) → Run State
  | [] => .ok s
  | (l, m) :: rest => do
    let c ← readElem s .code l
    applyMagnitudes (s.setElem .code l (add c m)) rest

/-- The FORNEY stage (R241): writes OMEGA, MAG[0..NROOTS), CODE at the recorded locations, RESULT. -/
def forneyStage (s : State) : Run State := do
  let syn ← readRange s .syn 0 s.params.nr
  let lam ← readRange s .lambda 0 (s.params.nr + 1)
  let locs ← readRange s .loc 0 s.nroots.toNat
  let om := evaluator s.params lam syn
  let ls := locs.map BitVec.toNat
  let mags ← magnitudes s.params om lam ls
  let t ← applyMagnitudes ((s.setRange .omega 0 om).setRange .mag 0 mags) (ls.zip mags)
  .ok (t.setResult (countWord mags))

/-- FORNEY (R241). -/
def execForney (s : State) : Host.Outcome State Fault Refusal := complete .forney s (forneyStage s)

end Sys2Proof.Machine
end

