-- ==== Sys2Proof/Machine/Syndrome.lean ====
section
/-! DEFINITION. Machine/Syndrome.lean: SYND, the Horner syndrome engine (44_syndrome.md R190 to R193). -/

namespace Sys2Proof.Machine

/-- Index of root_i = α^(FCR+i) (R191). -/
def rootIndex (p : Params) (i : Nat) : Nat := (p.fcr + i) % p.n

/-- S_i <- CODE[0], then S_i <- root_i · S_i + CODE[j] for j = 1, 2, .. (R191). -/
def horner (p : Params) (root : Nat) : List Value → Value
  | [] => 0
  | c :: cs => cs.foldl (fun acc x => fmaIv p root acc x) c

/-- The NR syndromes of CODE. The running values of different i do not meet, so each is run by itself (R191). -/
def syndromes (p : Params) (code : List Value) : List Value :=
  (List.range p.nr).map fun i => horner p (rootIndex p i) code

/-- The syndromes of the CODE array (R191: reads CODE[0..N)). -/
def readSyndromes (s : State) : Run (List Value) := do
  let code ← readRange s .code 0 s.params.n
  .ok (syndromes s.params code)

/-- SYND (R191): writes SYN[0..NR) and RESULT, the count of nonzero syndromes. -/
def execSynd (s : State) : Host.Outcome State Fault Refusal :=
  complete .synd s do
    let syn ← readSyndromes s
    .ok ((s.setRange .syn 0 syn).setResult (countWord syn))

end Sys2Proof.Machine
end

