-- ==== Sys2Proof/Machine/Decoder.lean ====
section
/-! DEFINITION. Machine/Decoder.lean: DECODE, the orchestration of the stages (48_decode.md R250 to R254). -/

namespace Sys2Proof.Machine

/-- Run one stage of DECODE and go on with `rest`. A fault of the stage is latched over the state the earlier stages left:
DECODE's E_SENTINEL comes after SYN has been written (R250, 60_exceptions.md R262). -/
def decodeStage (stage : State → Run State) (s : State) (rest : State → Host.Outcome State Fault Refusal) :
    Host.Outcome State Fault Refusal :=
  match stage s with
  | .ok t => rest t
  | .error e => complete .decode s (.error e)

/-- Steps 3 to 6 of R250, from the state with SYN written: ESEED, BM, ROOTS, the root count test, FORNEY. -/
def decodeNonzero (s : State) : Host.Outcome State Fault Refusal :=
  decodeStage eseedStage s fun s1 =>
    decodeStage bmStage s1 fun s2 =>
      decodeStage rootsStage s2 fun s3 =>
        if s3.deg.toNat = 0 ∨ s3.nroots.toNat < s3.deg.toNat then .next (s3.setResult 0xFFFFFFFF#32)
        else decodeStage forneyStage s3 fun s4 => .next s4

/-- DECODE (R250): E_ECNT first; SYN is written without SYND's RESULT; a clean word ends with RESULT = 0. -/
def execDecode (s : State) : Host.Outcome State Fault Refusal :=
  if s.ecnt.toNat > s.params.nr then complete .decode s (.error (.raise .ecnt))
  else
    match readSyndromes s with
    | .error e => complete .decode s (.error e)
    | .ok syn =>
      if countNonzero syn = 0 then .next ((s.setRange .syn 0 syn).setResult 0)
      else decodeNonzero (s.setRange .syn 0 syn)

end Sys2Proof.Machine
end

