-- ==== Sys2Proof/Machine/Encoder.lean ====
section
/-! DEFINITION. Machine/Encoder.lean: ENCODE, the LFSR parity generator (43_encoder.md R180 to R183). -/

namespace Sys2Proof.Machine

/-- G[0], .., G[NR − 1] (R181). -/
def feedbackTaps (p : Params) : List Nat := (List.range p.nr).map (gRom p)

/-- Pass i of R181 for the message symbol `c`: `par` is CODE[K..N) before it, the result CODE[K..N) after it. The loop over
j ascends and reads CODE[K+j] before it is overwritten, so every stage is computed from the old stages: stage j − 1 gets
fma_ii(fbi, G[NR − j], old stage j), and the last one the G[0] product alone. -/
def encodePass (p : Params) (taps : List Nat) (par : List Value) (c : Value) : List Value :=
  let fb := add c (par.getD 0 0)
  if fb = 0 then par.tail ++ [0]
  else
    let fbi := logt p fb
    List.zipWith (fun g x => fmaIi p fbi g x) taps.tail.reverse par.tail ++ [expt p ((taps.getD 0 0 + fbi) % p.n)]

/-- The parity of a message (R180, R181): NR zero stages, one pass for each message symbol. -/
def parity (p : Params) (msg : List Value) : List Value :=
  msg.foldl (encodePass p (feedbackTaps p)) (List.replicate p.nr 0)

/-- ENCODE (R181): reads CODE[0..K), writes CODE[K..N). -/
def execEncode (s : State) : Host.Outcome State Fault Refusal :=
  complete .encode s do
    let msg ← readRange s .code 0 s.params.k
    .ok (s.setRange .code s.params.k (parity s.params msg))

end Sys2Proof.Machine
end

