-- ==== Sys2Proof/Machine/Moves.lean ====
section
/-! DEFINITION. Machine/Moves.lean: the data movement and conversion commands (42_moves.md R160 to R168). -/

namespace Sys2Proof.Machine

/-- NOP (R160): no state changes. -/
def execNop (s : State) : Host.Outcome State Fault Refusal := .next s

/-- LDIV (R161): V[d] <- imm. -/
def execLdiv (d : VReg) (imm : BitVec 16) (s : State) : Host.Outcome State Fault Refusal :=
  complete (.ldiv d imm) s do
    let x ← immOperand s imm
    .ok (s.setV d x)

/-- LDII (R162): I[d] <- imm; imm = N is legal. -/
def execLdii (d : IReg) (imm : BitVec 16) (s : State) : Host.Outcome State Fault Refusal :=
  complete (.ldii d imm) s do
    let x ← immOperand s imm
    .ok (s.setI d x)

/-- LDV (R163): V[r] <- SPACE[idx]. -/
def execLdv (r : VReg) (sp : BitVec 4) (idx : BitVec 16) (s : State) : Host.Outcome State Fault Refusal :=
  complete (.ldv r sp idx) s do
    let (space, k) ← memOperand s (ldvSpace sp) idx
    let x ← readElem s space k
    .ok (s.setV r x)

/-- STV (R164): CODE[idx] <- V[r]. -/
def execStv (r : VReg) (sp : BitVec 4) (idx : BitVec 16) (s : State) : Host.Outcome State Fault Refusal :=
  complete (.stv r sp idx) s do
    let (space, k) ← memOperand s (stvSpace sp) idx
    .ok (s.setElem space k (s.v r))

/-- LDX (R165): I[r] <- SPACE[idx]. -/
def execLdx (r : IReg) (sp : BitVec 4) (idx : BitVec 16) (s : State) : Host.Outcome State Fault Refusal :=
  complete (.ldx r sp idx) s do
    let (space, k) ← memOperand s (ldxSpace sp) idx
    let x ← readElem s space k
    .ok (s.setI r x)

/-- STX (R166): ERAS[idx] <- I[r]; the sentinel N may be stored. -/
def execStx (r : IReg) (sp : BitVec 4) (idx : BitVec 16) (s : State) : Host.Outcome State Fault Refusal :=
  complete (.stx r sp idx) s do
    let (space, k) ← memOperand s (stxSpace sp) idx
    .ok (s.setElem space k s.ireg[r])

/-- LOG (R167): I[d] <- LOGT[V[a]]; the value 0 gives N. -/
def execLog (d : IReg) (a : VReg) (s : State) : Host.Outcome State Fault Refusal :=
  .next (s.setI d (toIndex (logt s.params (s.v a))))

/-- EXP (R168): V[d] <- EXPT[I[a]]; the index N gives 0. -/
def execExp (d : VReg) (a : IReg) (s : State) : Host.Outcome State Fault Refusal :=
  .next (s.setV d (expt s.params (s.i a)))

end Sys2Proof.Machine
end

