-- ==== Sys2Proof/Machine/Dispatch.lean ====
section
/-! DEFINITION. Machine/Dispatch.lean: the meaning of each command (30_encoding.md R96). -/

namespace Sys2Proof.Machine

def exec (i : Instr) (s : State) : Host.Outcome State Fault Refusal :=
  match i with
  -- moves and conversions
  | .nop => Sys2Proof.Machine.execNop s
  | .ldiv d imm => Sys2Proof.Machine.execLdiv d imm s
  | .ldii d imm => Sys2Proof.Machine.execLdii d imm s
  | .ldv r sp idx => Sys2Proof.Machine.execLdv r sp idx s
  | .stv r sp idx => Sys2Proof.Machine.execStv r sp idx s
  | .ldx r sp idx => Sys2Proof.Machine.execLdx r sp idx s
  | .stx r sp idx => Sys2Proof.Machine.execStx r sp idx s
  | .log d a => Sys2Proof.Machine.execLog d a s
  | .exp d a => Sys2Proof.Machine.execExp d a s
  -- field ALU
  | .fadd d a b => Sys2Proof.Machine.execFadd d a b s
  | .imul d a b => Sys2Proof.Machine.execImul d a b s
  | .idiv d a b => Sys2Proof.Machine.execIdiv d a b s
  | .vmul d a b => Sys2Proof.Machine.execVmul d a b s
  | .vdiv d a b => Sys2Proof.Machine.execVdiv d a b s
  | .vrcp d a => Sys2Proof.Machine.execVrcp d a s
  | .fmavv d a b c => Sys2Proof.Machine.execFmavv d a b c s
  | .fmaiv d a b c => Sys2Proof.Machine.execFmaiv d a b c s
  | .fmaii d a b c => Sys2Proof.Machine.execFmaii d a b c s
  | .asim d a => Sys2Proof.Machine.execAsim d a s
  -- codec stages
  | .encode => Sys2Proof.Machine.execEncode s
  | .synd => Sys2Proof.Machine.execSynd s
  | .eseed => Sys2Proof.Machine.execEseed s
  | .bm => Sys2Proof.Machine.execBm s
  | .roots => Sys2Proof.Machine.execRoots s
  | .forney => Sys2Proof.Machine.execForney s
  | .decode => Sys2Proof.Machine.execDecode s

end Sys2Proof.Machine
end

