-- ==== Sys2Proof/Machine/Port.lean ====
section
/-! DEFINITION. Machine/Port.lean: the host port (20_memory.md R60 to R73), the CMD register (10_state.md R27,
30_encoding.md R101) and the reset event (70_reset_and_hazards.md R290). -/

namespace Sys2Proof.Machine

/-- The space of a space number; 14 and 15 do not exist (R60). -/
def spaceOf : Nat → Option Space
  | 0 => some .code
  | 1 => some .eras
  | 2 => some .syn
  | 3 => some .lambda
  | 4 => some .omega
  | 5 => some .loc
  | 6 => some .mag
  | 7 => some .g
  | 8 => some .logt
  | 9 => some .expt
  | 10 => some .asit
  | 11 => some .vreg
  | 12 => some .ireg
  | 13 => some .csr
  | _ => none

/-- The CSR of a CSR index; 0xE and up are unmapped (10_state.md R26). -/
def csrOf : Nat → Option Csr
  | 0x0 => some .cmd
  | 0x1 => some .status
  | 0x2 => some .result
  | 0x3 => some .ecnt
  | 0x4 => some .lreg
  | 0x5 => some .deg
  | 0x6 => some .nroots
  | 0x7 => some .finfo
  | 0x8 => some .paramM
  | 0x9 => some .paramPoly
  | 0xA => some .paramNr
  | 0xB => some .paramFcr
  | 0xC => some .paramN
  | 0xD => some .paramK
  | _ => none

/-- A location the port can name: an element, or a CSR (R60). -/
inductive Location where
  | elem (sp : Space) (k : Nat)
  | csr (c : Csr)
deriving DecidableEq, Repr

/-- addr[19:16] (R61). -/
def spaceField (addr : HostAddr) : BitVec 4 := addr.extractLsb' 16 4

/-- addr[15:0] (R61). -/
def indexField (addr : HostAddr) : BitVec 16 := addr.extractLsb' 0 16

/-- The word address of CMD (R61). -/
def cmdAddr : HostAddr := 0xD0000#20

/-- The location at a word address, if there is one (R60, R61, R71). -/
def locate (p : Params) (addr : HostAddr) : Option Location :=
  let k := (indexField addr).toNat
  match spaceOf (spaceField addr).toNat with
  | none => none
  | some .csr => (csrOf k).map .csr
  | some sp => if k < sp.size p then some (.elem sp k) else none

/-- A CSR as the host reads it (10_state.md R26 to R35). -/
def csrRead (s : State) : Csr → Word
  | .cmd => 0
  | .status => s.status
  | .result => s.result
  | .ecnt => zext32 s.ecnt
  | .lreg => zext32 s.lreg
  | .deg => zext32 s.deg
  | .nroots => zext32 s.nroots
  | .finfo => s.finfo
  | .paramM => BitVec.ofNat 32 s.params.m
  | .paramPoly => BitVec.ofNat 32 s.params.poly
  | .paramNr => BitVec.ofNat 32 s.params.nr
  | .paramFcr => BitVec.ofNat 32 s.params.fcr
  | .paramN => BitVec.ofNat 32 s.params.n
  | .paramK => BitVec.ofNat 32 s.params.k

/-- A bus fault: E_BUS with FINFO the zero-extended word address (R64). -/
def busFault (addr : HostAddr) (s : State) : State := raiseFault (addr.setWidth 32) .bus s

/-- HostRead returns `data` (R62). -/
def returnData (s : State) (data : Word) : State := { s with rdata := some data }

/-- HostRead (R62, R64, R65): also while FAULT = 1. An element that nothing has written is refused (10_state.md R47). -/
def hostRead (addr : HostAddr) (s : State) : Host.Outcome State Fault Refusal :=
  match locate s.params addr with
  | none => .next (returnData (busFault addr s) 0)
  | some (.csr c) => .next (returnData s (csrRead s c))
  | some (.elem sp k) =>
    match s.elem sp k with
    | some x => .next (returnData s (zext32 x))
    | none => .refused (.unspecifiedElement sp k)

/-- The command word `w` written to CMD with FAULT = 0 (10_state.md R27, 30_encoding.md R101). -/
def runCommand (w : Word) (s : State) : Host.Outcome State Fault Refusal :=
  match decode w with
  | .ok i => exec i s
  | .error _ => .next (raiseFault w .illegal s)

/-- The write of a host read-write element (R60, R63); none for a read-only space. -/
def writeElem (s : State) (sp : Space) (k : Nat) (x : Symbol) : Option State :=
  match sp with
  | .code => some (s.setElem .code k x)
  | .eras => some (s.setElem .eras k x)
  | .vreg => some (s.setV (Fin.ofNat 8 k) x)
  | .ireg => some (s.setI (Fin.ofNat 8 k) x)
  | .syn | .lambda | .omega | .loc | .mag | .g | .logt | .expt | .asit | .csr => none

/-- HostWrite with FAULT = 0 to a location other than CMD (R63): the state after it, or none for a bus fault. Data must
fit the target: data[31:M] = 0 for an element, data[31:16] = 0 for ECNT. -/
def writeLocation (s : State) (data : Word) : Location → Option State
  | .elem sp k => if data.toNat < s.params.q then writeElem s sp k (data.setWidth 16) else none
  | .csr .ecnt => if data.toNat < 65536 then some { s with ecnt := data.setWidth 16 } else none
  | .csr _ => none

/-- HostWrite (R63 to R65): ignored while FAULT = 1. -/
def hostWrite (addr : HostAddr) (data : Word) (s : State) : Host.Outcome State Fault Refusal :=
  if s.faulted then .next s
  else
    match locate s.params addr with
    | some (.csr .cmd) => runCommand data s
    | some l =>
      match writeLocation s data l with
      | some t => .next t
      | none => .next (busFault addr s)
    | none => .next (busFault addr s)

/-- One event from outside: a port transaction (R61) or a reset (70_reset_and_hazards.md R290). -/
def hostEvent (e : HostEvent) (s : State) : Host.Outcome State Fault Refusal :=
  match e with
  | .read addr => hostRead addr s
  | .write addr data => hostWrite addr data s
  | .reset => .next (resetUnit s)

/-- The next event from outside, taken from `host` (R73: one total order); with none the unit is idle (R290). -/
def takeEvent (s : State) : Host.Outcome State Fault Refusal :=
  match s.host with
  | [] => .next s
  | e :: rest => hostEvent e { s with host := rest }

/-- The outside world's next event is the write of `w` to CMD: the place a command comes from (10_state.md R22, R27). -/
def offerCommand (s : State) (w : Word) : State := { s with host := .write cmdAddr w :: s.host }

end Sys2Proof.Machine
end

