-- ==== Sys2Proof/Machine/Step.lean ====
section
/-! DEFINITION. Machine/Step.lean: one step of the machine: the next event from outside, to its end (10_state.md R20, R27;
20_memory.md R73). -/

namespace Sys2Proof.Machine

/-- One step: the next port transaction or reset, and the whole command if it is a write to CMD (R20: commands are
atomic). -/
def step (s : State) : Host.Outcome State Fault Refusal := takeEvent s

/-- `s` with the command word `w` as the next thing the host writes to CMD. A command word has 32 bits (30_encoding.md R90);
the bits above `nbits` are 0. -/
def State.withFetchWord (s : State) (nbits w : Nat) : State := offerCommand s (BitVec.ofNat 32 (w % 2 ^ nbits))

end Sys2Proof.Machine
end

