-- ==== Sys2Proof/Safety.lean ====
section
/-! DEFINITION. Safety.lean: what the claims call a legal state and a safe run. -/

namespace Sys2Proof.Machine

/-- The match and the mask of each row of the opcode table, in its order (30_encoding.md R96): a word is of the row when it
agrees with the match on the opcode and on every must-be-zero bit. -/
def opcodeRows : List (Word × Word) :=
  [(0x00000000#32, 0xFFFFFFFF#32), (0x04000000#32, 0xFC7F0000#32), (0x08000000#32, 0xFC7F0000#32),
    (0x0C000000#32, 0xFC070000#32), (0x10000000#32, 0xFC070000#32), (0x14000000#32, 0xFC070000#32),
    (0x18000000#32, 0xFC070000#32), (0x1C000000#32, 0xFC0FFFFF#32), (0x20000000#32, 0xFC0FFFFF#32)]
  ++ [(0x40000000#32, 0xFC01FFFF#32), (0x44000000#32, 0xFC01FFFF#32), (0x48000000#32, 0xFC01FFFF#32),
    (0x4C000000#32, 0xFC01FFFF#32), (0x50000000#32, 0xFC01FFFF#32), (0x54000000#32, 0xFC0FFFFF#32),
    (0x58000000#32, 0xFC003FFF#32), (0x5C000000#32, 0xFC003FFF#32), (0x60000000#32, 0xFC003FFF#32),
    (0x64000000#32, 0xFC0FFFFF#32)]
  ++ [(0x80000000#32, 0xFFFFFFFF#32), (0x84000000#32, 0xFFFFFFFF#32), (0x88000000#32, 0xFFFFFFFF#32),
    (0x8C000000#32, 0xFFFFFFFF#32), (0x90000000#32, 0xFFFFFFFF#32), (0x94000000#32, 0xFFFFFFFF#32),
    (0x98000000#32, 0xFFFFFFFF#32)]

/-- The spaces held by the memory: the data arrays (10_state.md R36 to R42). -/
def Space.isArray (sp : Space) : Bool := decide (sp.number < 7)

/-- A legal state: what every state of a unit satisfies, from any elaboration on. -/
structure State.Inv (s : State) : Prop where
  /-- a unit exists only for a legal tuple (00_scope.md R6) -/
  paramsLegal : s.params.valid = true
  /-- the memory is in canonical form -/
  memCanonical : Memory.wf s.mem
  /-- every listed cell is an element of an array (20_memory.md R60); how many elements of LOC and MAG can be listed is
  `State.CountsBounded` -/
  memOnlyArrays : ∀ c ∈ s.mem, ∃ sp k, sp.isArray = true ∧ k < 65536 ∧ c.1 = addressOf sp k ∧
    (sp ≠ .loc → sp ≠ .mag → k < sp.size s.params)
  /-- every element is an M-bit pattern (10_state.md R36 to R42) -/
  memSymbols : ∀ c ∈ s.mem, c.2.toNat < s.params.q
  /-- every value register is an M-bit pattern (R23) -/
  vregSymbols : ∀ r, (s.v r).toNat < s.params.q
  /-- every index register is an M-bit pattern (R24) -/
  iregSymbols : ∀ r, s.i r < s.params.q
  /-- LAMBDA[0] = 1 whenever LAMBDA is specified (R39) -/
  lambdaMonic : ∀ x, s.elem .lambda 0 = some x → x = 1
  /-- an element of LOC is a position (R41) -/
  locPositions : ∀ k x, k < 65536 → s.elem .loc k = some x → x.toNat < s.params.n
  /-- STATUS and FINFO: both 0, or FAULT = 1 with an assigned cause and the reserved bits 0 (R28, R34) -/
  faultLatch : (s.status = 0 ∧ s.finfo = 0) ∨ ∃ c, s.status = faultStatus c
  /-- LREG is in [0, NR] (R31) -/
  lregBounded : s.lreg.toNat ≤ s.params.nr
  /-- DEG is in [0, NR] (R32) -/
  degBounded : s.deg.toNat ≤ s.params.nr

/-- The counts the root finder and the correctors leave: NROOTS ≤ DEG (46_rootfinder.md R225), RESULT is −1 or in
[0, NR] (10_state.md R29), and LOC and MAG are listed only inside [0, NR) (R41, R42). -/
structure State.CountsBounded (s : State) : Prop where
  nrootsLeDeg : s.nroots.toNat ≤ s.deg.toNat
  resultInRange : s.result = 0xFFFFFFFF#32 ∨ s.result.toNat ≤ s.params.nr
  locMagInside : ∀ c ∈ s.mem, ∀ sp k, sp = .loc ∨ sp = .mag → k < 65536 → c.1 = addressOf sp k → k < s.params.nr

/-- A run of `k` steps is safe: no step is refused and the unit is not in the fault state afterwards, so no step of it has
raised a fault since the last reset (60_exceptions.md R264). -/
def SafeRun (k : Nat) (s : State) : Prop :=
  match Host.Core.run Sys2Proof.core k s with
  | .next t => t.faulted = false
  | .fault _ => False
  | .refused _ => False

end Sys2Proof.Machine
end

