-- ==== Sys2Proof/Certificates/Slice0/Obligations.lean ====
section
/-! DEFINITION. Certificates/Slice0/Obligations.lean: the statements about the GF2M-RS unit. -/

open Sys2Proof Sys2Proof.Machine

/-! ### Encoding -/

/-- 30_encoding.md R91 to R96: the fields of every command are where the decoder looks for them. -/
def Obligations.DecodeInvertsEncode : Prop := ∀ i : Instr, decode (encode i) = .ok i

/-- 30_encoding.md R97: there is no reserved-but-ignored bit, so a command word is the encoding of what it decodes to. -/
def Obligations.EncodeInvertsDecode : Prop := ∀ w i, decode w = .ok i → encode i = w

/-- The words the decoder accepts are those of the rows of the opcode table: the first two checks of 30_encoding.md R101. That
a space number the command does not allow (R101's third check) is left to the command's meaning is the model's split
(log entry 10): the unit still answers E_ILLEGAL, see `IllegalWordRaisesIllegal`. -/
def Obligations.DecodeAcceptsExactlyTheOpcodeTable : Prop :=
  ∀ w, (∃ i, decode w = .ok i) ↔ ∃ row ∈ opcodeRows, w &&& row.2 = row.1

/-- 30_encoding.md R98, R99: words of each format, field by field. -/
def Obligations.SpecWordsDecode : Prop :=
  decode 0b01011100000100001000000000000000#32 = .ok (.fmaiv 0 1 0 2) ∧
  decode 0b00010100101110000000000000000010#32 = .ok (.ldx 1 7 2) ∧
  decode 0b00001001000000000000000000001111#32 = .ok (.ldii 2 15) ∧
  decode 0b00010001100000000000000000000000#32 = .ok (.stv 3 0 0) ∧
  decode 0b01001111111111100000000000000000#32 = .ok (.vmul 7 7 7) ∧
  decode 0b10011000000000000000000000000000#32 = .ok .decode

/-- 30_encoding.md R97: an unassigned opcode, a must-be-zero bit or a space the command does not allow is E_ILLEGAL and
nothing else happens; every other word is a command with all unused bits zero. -/
def Obligations.IllegalWordRaisesIllegal : Prop :=
  ∀ w : Word,
    ((∀ row ∈ opcodeRows, w &&& row.2 ≠ row.1) ∨ (∃ i, decode w = .ok i ∧ i.wf = false) →
      ∀ s, s.faulted = false → runCommand w s = .next { s with status := 0x11#32, finfo := w }) ∧
    (∀ row ∈ opcodeRows, w &&& row.2 = row.1 →
      ∃ i, decode w = .ok i ∧ encode i = w ∧
        (i.wf = false → ∃ r sp idx, (i = .ldv r sp idx ∧ sp.toNat ∉ [0, 2, 3, 4, 6, 9, 10]) ∨ (i = .stv r sp idx ∧ sp.toNat ≠ 0) ∨
          (i = .ldx r sp idx ∧ sp.toNat ∉ [1, 5, 7, 8]) ∨ (i = .stx r sp idx ∧ sp.toNat ≠ 1)))

/-! ### Stepping -/

/-- 10_state.md R27: a write to CMD with FAULT = 0 decodes and executes its word as one command; a read of CMD gives 0. -/
def Obligations.StepRunsTheCommandWrittenToCmd : Prop :=
  ∀ s rest w,
    (s.host = .write 0xD0000#20 w :: rest → s.faulted = false →
      (∀ i, decode w = .ok i → step s = exec i { s with host := rest }) ∧
      (∀ r, decode w = .error r → step s = .next { s with host := rest, status := 0x11#32, finfo := w })) ∧
    (s.host = .read 0xD0000#20 :: rest → step s = .next { s with host := rest, rdata := some 0 })

/-- `withFetchWord` makes the very next step run the word's command (log entry 4). -/
def Obligations.FetchWordIsTheNextCommand : Prop :=
  ∀ s w i, s.faulted = false → decode (BitVec.ofNat 32 w) = .ok i → step (s.withFetchWord 32 w) = exec i s

/-! ### Reset and elaboration -/

/-- 70_reset_and_hazards.md R290, 10_state.md R46: what reset leaves. V and I, which the spec leaves unspecified, are not
mentioned (log entry 1); an unspecified array element is one without a value (R47). The last conjunct but one, that the
data of the last host read is cleared, and that the events to come stay, are the model's choices (log entries 5 and 4), not
the spec's. -/
def Obligations.ResetLeavesTheResetState : Prop :=
  ∀ s rest, s.host = .reset :: rest →
    ∃ t, step s = .next t ∧ t.params = s.params ∧ t.status = 0 ∧ t.result = 0 ∧ t.ecnt = 0 ∧ t.lreg = 0 ∧ t.deg = 0 ∧
      t.nroots = 0 ∧ t.finfo = 0 ∧ t.host = rest ∧ t.rdata = none ∧
      (∀ sp k, sp.isArray = true → t.elem sp k = none)

/-- 00_scope.md R6, 41_tables_and_generator.md R142: a tuple has a unit only if its ranges are legal and the walk from 1
visits N different nonzero values below Q and returns to 1. -/
def Obligations.ElaborationAcceptsOnlyPrimitiveTuples : Prop :=
  ∀ p s, State.elaborate p = .next s →
    s = State.resetOf p ∧ 2 ≤ p.m ∧ p.m ≤ 16 ∧ p.poly >>> p.m = 1 ∧ 1 ≤ p.nr ∧ p.nr ≤ p.n - 1 ∧ p.fcr ≤ p.n - 1 ∧
    ((List.range p.n).map (alphaPow p)).Nodup ∧ (∀ i, 1 ≤ alphaPow p i ∧ alphaPow p i < p.q) ∧ alphaPow p p.n = 1

/-! ### Moves and conversions -/

/-- 42_moves.md R160. -/
def Obligations.NopChangesNothing : Prop :=
  encode .nop = 0 ∧ (∀ s, exec .nop s = .next s) ∧
  (∀ w s, opField w = 0 → w ≠ 0 → s.faulted = false →
    runCommand w s = .next { s with status := 0x11#32, finfo := w })

/-- 42_moves.md R161, R162. -/
def Obligations.ImmediateLoads : Prop :=
  ∀ s d (imm : BitVec 16),
    (imm.toNat < s.params.q →
      exec (.ldiv d imm) s = .next { s with vreg := s.vreg.set d imm } ∧
      exec (.ldii d imm) s = .next { s with ireg := s.ireg.set d imm }) ∧
    (s.params.q ≤ imm.toNat → s.faulted = false →
      exec (.ldiv d imm) s = .next { s with status := 0x21#32, finfo := encode (.ldiv d imm) } ∧
      exec (.ldii d imm) s = .next { s with status := 0x21#32, finfo := encode (.ldii d imm) })

/-- 42_moves.md R163: the seven value-typed spaces, then the two faults. -/
def Obligations.LdvFollowsItsRule : Prop :=
  ∀ s r (sp : BitVec 4) (idx : BitVec 16),
    (∀ space, (sp.toNat, space) ∈ [(0, Space.code), (2, .syn), (3, .lambda), (4, .omega), (6, .mag), (9, .expt), (10, .asit)] →
      (idx.toNat < space.size s.params → ∀ x, s.elem space idx.toNat = some x →
        exec (.ldv r sp idx) s = .next { s with vreg := s.vreg.set r x }) ∧
      (space.size s.params ≤ idx.toNat → s.faulted = false →
        exec (.ldv r sp idx) s = .next { s with status := 0x21#32, finfo := encode (.ldv r sp idx) })) ∧
    (sp.toNat ∉ [0, 2, 3, 4, 6, 9, 10] → s.faulted = false →
      exec (.ldv r sp idx) s = .next { s with status := 0x11#32, finfo := encode (.ldv r sp idx) })

/-- 42_moves.md R165: the four index-typed spaces, then the two faults. -/
def Obligations.LdxFollowsItsRule : Prop :=
  ∀ s r (sp : BitVec 4) (idx : BitVec 16),
    (∀ space, (sp.toNat, space) ∈ [(1, Space.eras), (5, .loc), (7, .g), (8, .logt)] →
      (idx.toNat < space.size s.params → ∀ x, s.elem space idx.toNat = some x →
        exec (.ldx r sp idx) s = .next { s with ireg := s.ireg.set r x }) ∧
      (space.size s.params ≤ idx.toNat → s.faulted = false →
        exec (.ldx r sp idx) s = .next { s with status := 0x21#32, finfo := encode (.ldx r sp idx) })) ∧
    (sp.toNat ∉ [1, 5, 7, 8] → s.faulted = false →
      exec (.ldx r sp idx) s = .next { s with status := 0x11#32, finfo := encode (.ldx r sp idx) })

/-- 42_moves.md R164, R166: the one element stored to, every other location as before, and the faults. -/
def Obligations.StoresWriteOneElement : Prop :=
  ∀ s r (sp : BitVec 4) (idx : BitVec 16),
    (sp = 0 → idx.toNat < s.params.n → ∃ t, exec (.stv r sp idx) s = .next t ∧
      t.elem .code idx.toNat = some (s.v r) ∧ { t with mem := s.mem } = s ∧
      ∀ b k, k < 65536 → ¬(b = .code ∧ k = idx.toNat) → t.elem b k = s.elem b k) ∧
    (sp = 1 → idx.toNat < s.params.nr → ∃ t, exec (.stx r sp idx) s = .next t ∧
      t.elem .eras idx.toNat = some s.ireg[r] ∧ { t with mem := s.mem } = s ∧
      ∀ b k, k < 65536 → ¬(b = .eras ∧ k = idx.toNat) → t.elem b k = s.elem b k) ∧
    (s.faulted = false →
      (sp ≠ 0 → exec (.stv r sp idx) s = .next { s with status := 0x11#32, finfo := encode (.stv r sp idx) }) ∧
      (sp ≠ 1 → exec (.stx r sp idx) s = .next { s with status := 0x11#32, finfo := encode (.stx r sp idx) }) ∧
      (sp = 0 → s.params.n ≤ idx.toNat →
        exec (.stv r sp idx) s = .next { s with status := 0x21#32, finfo := encode (.stv r sp idx) }) ∧
      (sp = 1 → s.params.nr ≤ idx.toNat →
        exec (.stx r sp idx) s = .next { s with status := 0x21#32, finfo := encode (.stx r sp idx) }))

/-- 42_moves.md R167, R168: the conversions read the ROMs and never fault; the value 0 gives the index N, the index N the
value 0, every other index a nonzero value. -/
def Obligations.ConversionsReadTheTables : Prop :=
  ∀ s (r r' : Fin 8),
    (∀ x, s.elem .logt (s.v r').toNat = some x → exec (.log r r') s = .next { s with ireg := s.ireg.set r x }) ∧
    (s.v r' = 0 → exec (.log r r') s = .next { s with ireg := s.ireg.set r (BitVec.ofNat 16 s.params.n) }) ∧
    (∀ x, s.elem .expt (s.i r') = some x → exec (.exp r r') s = .next { s with vreg := s.vreg.set r x }) ∧
    (s.i r' = s.params.n → exec (.exp r r') s = .next { s with vreg := s.vreg.set r 0 }) ∧
    (s.params.valid = true → s.i r' < s.params.n → ∃ x, x ≠ 0 ∧ x = BitVec.ofNat 16 (alphaPow s.params (s.i r')) ∧
      exec (.exp r r') s = .next { s with vreg := s.vreg.set r x })

/-- 10_state.md R47: an array element nothing has written since reset has no value, and a command or a host read that reads
one is refused, naming such an element. Which elements the codec commands read is the model's reading of their pseudocode
(log entry 11), and so is the order of these refusals and the faults. -/
def Obligations.UnspecifiedReadIsRefused : Prop :=
  ∀ s : State,
    (∀ r (sp : BitVec 4) (idx : BitVec 16) (space : Space), space.number = sp.toNat → idx.toNat < space.size s.params →
      s.elem space idx.toNat = none →
      (sp.toNat ∈ [0, 2, 3, 4, 6] → exec (.ldv r sp idx) s = .refused (.unspecifiedElement space idx.toNat)) ∧
      (sp.toNat ∈ [1, 5] → exec (.ldx r sp idx) s = .refused (.unspecifiedElement space idx.toNat)) ∧
      (sp.toNat < 7 → hostRead (sp ++ idx) s = .refused (.unspecifiedElement space idx.toNat))) ∧
    ((∃ k, k < s.params.k ∧ s.elem .code k = none) →
      ∃ k, k < s.params.k ∧ s.elem .code k = none ∧ exec .encode s = .refused (.unspecifiedElement .code k)) ∧
    ((∃ k, k < s.params.n ∧ s.elem .code k = none) →
      ∃ k, k < s.params.n ∧ s.elem .code k = none ∧ exec .synd s = .refused (.unspecifiedElement .code k) ∧
        (s.ecnt.toNat ≤ s.params.nr → exec .decode s = .refused (.unspecifiedElement .code k))) ∧
    (∀ k, s.ecnt.toNat ≤ s.params.nr → k < s.ecnt.toNat → s.elem .eras k = none →
      (∀ j x, j < k → s.elem .eras j = some x → x.toNat ≠ s.params.n) →
      ∃ j, j ≤ k ∧ s.elem .eras j = none ∧ exec .eseed s = .refused (.unspecifiedElement .eras j) ∧
        ∀ code, s.params.valid = true → readRange s .code 0 s.params.n = .ok code →
          (∃ x ∈ syndromes s.params code, x ≠ 0) → exec .decode s = .refused (.unspecifiedElement .eras j)) ∧
    (s.ecnt.toNat ≤ s.params.nr →
      (∃ k, k ≤ s.params.nr ∧ s.elem .lambda k = none) ∨
        (s.ecnt.toNat < s.params.nr ∧ ∃ k, k < s.params.nr ∧ s.elem .syn k = none) →
      ∃ sp k, s.elem sp k = none ∧ ((sp = .lambda ∧ k ≤ s.params.nr) ∨ (sp = .syn ∧ k < s.params.nr)) ∧
        exec .bm s = .refused (.unspecifiedElement sp k)) ∧
    ((∃ k, k ≤ s.params.nr ∧ s.elem .lambda k = none) →
      ∃ k, k ≤ s.params.nr ∧ s.elem .lambda k = none ∧ exec .roots s = .refused (.unspecifiedElement .lambda k)) ∧
    ((∃ k, k < s.params.nr ∧ s.elem .syn k = none) ∨ (∃ k, k ≤ s.params.nr ∧ s.elem .lambda k = none) ∨
        (∃ k, k < s.nroots.toNat ∧ s.elem .loc k = none) →
      ∃ sp k, s.elem sp k = none ∧
        ((sp = .syn ∧ k < s.params.nr) ∨ (sp = .lambda ∧ k ≤ s.params.nr) ∨ (sp = .loc ∧ k < s.nroots.toNat)) ∧
        exec .forney s = .refused (.unspecifiedElement sp k)) ∧
    (∀ syn lam locs, s.params.valid = true → readRange s .syn 0 s.params.nr = .ok syn →
      readRange s .lambda 0 (s.params.nr + 1) = .ok lam → readRange s .loc 0 s.nroots.toNat = .ok locs →
      (∀ l ∈ locs, derivativeAt s.params lam ((l.toNat + 1) % s.params.n) ≠ 0) →
      (∃ l ∈ locs, s.elem .code l.toNat = none) →
      ∃ l ∈ locs, s.elem .code l.toNat = none ∧ exec .forney s = .refused (.unspecifiedElement .code l.toNat))

/-! ### Field ALU -/

/-- 40_field_alu.md R120, R123, R126, R129: the four commands that cannot fault, on all operands. -/
def Obligations.FaultFreeValueResults : Prop :=
  ∀ s (d a b c : VReg),
    exec (.fadd d a b) s = .next { s with vreg := s.vreg.set d (s.v a ^^^ s.v b) } ∧
    (s.v a = 0 ∨ s.v b = 0 →
      exec (.vmul d a b) s = .next { s with vreg := s.vreg.set d 0 } ∧
      exec (.fmavv d a b c) s = .next { s with vreg := s.vreg.set d (s.v c) }) ∧
    (s.v a ≠ 0 → s.v b ≠ 0 →
      exec (.vmul d a b) s =
        .next { s with vreg := s.vreg.set d (expt s.params ((logt s.params (s.v a) + logt s.params (s.v b)) % s.params.n)) } ∧
      exec (.fmavv d a b c) s = .next { s with
        vreg := s.vreg.set d
          (expt s.params ((logt s.params (s.v a) + logt s.params (s.v b)) % s.params.n) ^^^ s.v c) }) ∧
    (∀ x, s.elem .asit (s.v a).toNat = some x → exec (.asim d a) s = .next { s with vreg := s.vreg.set d x })

/-- 40_field_alu.md R121, R122: with no sentinel the sum and the difference modulo N, in [0, N); with one E_SENTINEL. -/
def Obligations.IndexAluFollowsItsRules : Prop :=
  ∀ s (d a b : IReg), 0 < s.params.n → s.params.n ≤ 65536 →
    (s.i a ≠ s.params.n → s.i b ≠ s.params.n →
      (∃ t, exec (.imul d a b) s = .next t ∧ t.i d = (s.i a + s.i b) % s.params.n ∧
        (∀ r, r ≠ d → t.i r = s.i r) ∧ { t with ireg := s.ireg } = s) ∧
      (∃ t, exec (.idiv d a b) s = .next t ∧ t.i d < s.params.n ∧ ((t.i d + s.i b) % s.params.n = s.i a % s.params.n) ∧
        (∀ r, r ≠ d → t.i r = s.i r) ∧ { t with ireg := s.ireg } = s)) ∧
    (s.i a = s.params.n ∨ s.i b = s.params.n → s.faulted = false →
      exec (.imul d a b) s = .next { s with status := 0x41#32, finfo := encode (.imul d a b) } ∧
      exec (.idiv d a b) s = .next { s with status := 0x41#32, finfo := encode (.idiv d a b) })

/-- 40_field_alu.md R124, R125: a zero divisor is E_DIVZERO, also for 0 / 0; otherwise the quotient and the reciprocal. -/
def Obligations.DivisionFollowsItsRules : Prop :=
  ∀ s (d a b : VReg),
    (s.v b ≠ 0 → s.v a = 0 → exec (.vdiv d a b) s = .next { s with vreg := s.vreg.set d 0 }) ∧
    (s.v b ≠ 0 → s.v a ≠ 0 → exec (.vdiv d a b) s = .next { s with
      vreg := s.vreg.set d
        (expt s.params (((logt s.params (s.v a) : Int) - (logt s.params (s.v b) : Int)) % (s.params.n : Int)).toNat) }) ∧
    (s.v b = 0 → s.faulted = false →
      exec (.vdiv d a b) s = .next { s with status := 0x31#32, finfo := encode (.vdiv d a b) }) ∧
    (s.v a ≠ 0 → exec (.vrcp d a) s = .next { s with
      vreg := s.vreg.set d
        (expt s.params ((s.params.n - logt s.params (s.v a)) % s.params.n)) }) ∧
    (s.v a = 0 → s.faulted = false →
      exec (.vrcp d a) s = .next { s with status := 0x31#32, finfo := encode (.vrcp d a) })

/-- 40_field_alu.md R127, R128: the fused multiply-adds with index factors; the sentinel is tested whatever V[b] is. -/
def Obligations.IndexFusedMultiplyAddsFollowTheirRules : Prop :=
  ∀ s (d a b c : Fin 8),
    (s.i a ≠ s.params.n →
      exec (.fmaiv d a b c) s = .next { s with
        vreg := s.vreg.set d
          ((if s.v b = 0 then 0 else expt s.params ((s.i a + logt s.params (s.v b)) % s.params.n)) ^^^ s.v c) }) ∧
    (s.i a = s.params.n → s.faulted = false →
      exec (.fmaiv d a b c) s = .next { s with status := 0x41#32, finfo := encode (.fmaiv d a b c) }) ∧
    (s.i a ≠ s.params.n → s.i b ≠ s.params.n →
      exec (.fmaii d a b c) s = .next { s with
        vreg := s.vreg.set d
          (expt s.params ((s.i a + s.i b) % s.params.n) ^^^ s.v c) }) ∧
    (s.i a = s.params.n ∨ s.i b = s.params.n → s.faulted = false →
      exec (.fmaii d a b c) s = .next { s with status := 0x41#32, finfo := encode (.fmaii d a b c) })

/-! ### Frames of the register commands -/

/-- The commands with a value register as destination change that register alone, or take a fault and change no
register (10_state.md R23, 60_exceptions.md R262). -/
def Obligations.ValueRegisterCommandFrame : Prop :=
  ∀ s t (d a b c : Fin 8) (imm : BitVec 16) (sp : BitVec 4),
    ∀ i ∈ [Instr.ldiv d imm, .ldv d sp imm, .exp d a, .fadd d a b, .vmul d a b, .vdiv d a b, .vrcp d a, .fmavv d a b c,
        .fmaiv d a b c, .fmaii d a b c, .asim d a],
      exec i s = .next t →
        (∀ r, r ≠ d → t.v r = s.v r) ∧ (∀ space k, space ≠ .vreg → t.elem space k = s.elem space k) ∧
        { t with vreg := s.vreg, status := s.status, finfo := s.finfo } = s ∧
        ((t.status = s.status ∧ t.finfo = s.finfo) ∨ t = raiseFault (encode i) .range s ∨
          t = raiseFault (encode i) .illegal s ∨ t = raiseFault (encode i) .divZero s ∨
          t = raiseFault (encode i) .sentinel s)

/-- The commands with an index register as destination: the same (10_state.md R24, 60_exceptions.md R262). -/
def Obligations.IndexRegisterCommandFrame : Prop :=
  ∀ s t (d a b : Fin 8) (imm : BitVec 16) (sp : BitVec 4),
    ∀ i ∈ [Instr.ldii d imm, .ldx d sp imm, .log d a, .imul d a b, .idiv d a b],
      exec i s = .next t →
        (∀ r, r ≠ d → t.i r = s.i r) ∧ (∀ space k, space ≠ .ireg → t.elem space k = s.elem space k) ∧
        { t with ireg := s.ireg, status := s.status, finfo := s.finfo } = s ∧
        ((t.status = s.status ∧ t.finfo = s.finfo) ∨ t = raiseFault (encode i) .range s ∨
          t = raiseFault (encode i) .illegal s ∨ t = raiseFault (encode i) .sentinel s)

/-- STV and STX change one element of CODE or ERAS, the one `idx` names, or take a fault (42_moves.md R164, R166). -/
def Obligations.StoreCommandFrame : Prop :=
  ∀ s t (r : Fin 8) (sp : BitVec 4) (idx : BitVec 16),
    (exec (.stv r sp idx) s = .next t →
      (∀ b k, k < 65536 → ¬(b = .code ∧ k = idx.toNat) → t.elem b k = s.elem b k) ∧
      { t with mem := s.mem, status := s.status, finfo := s.finfo } = s ∧
      ((t.status = s.status ∧ t.finfo = s.finfo) ∨ t.mem = s.mem)) ∧
    (exec (.stx r sp idx) s = .next t →
      (∀ b k, k < 65536 → ¬(b = .eras ∧ k = idx.toNat) → t.elem b k = s.elem b k) ∧
      { t with mem := s.mem, status := s.status, finfo := s.finfo } = s ∧
      ((t.status = s.status ∧ t.finfo = s.finfo) ∨ t.mem = s.mem))

/-! ### Tables and field laws -/

/-- 41_tables_and_generator.md R145, 40_field_alu.md R118: LOGT and EXPT are inverse, with the sentinel entries and the
small entries as listed. -/
def Obligations.TablesAreInverse : Prop :=
  ∀ p : Params, p.valid = true →
    (∀ i, i < p.n → logt p (expt p i) = i) ∧
    (∀ v : Value, v ≠ 0 → v.toNat < p.q → logt p v < p.n ∧ expt p (logt p v) = v) ∧
    logt p 0 = p.n ∧ expt p p.n = 0 ∧ logt p 1 = 0 ∧ logt p 2 = 1 ∧
    (∀ i, i < p.m → (expt p i).toNat = 2 ^ i) ∧ (expt p p.m).toNat = p.poly - p.q

/-- 40_field_alu.md R119: the field laws of add and mul_v, and div_v as the product with the reciprocal. -/
def Obligations.FieldLaws : Prop :=
  ∀ p : Params, p.valid = true → ∀ a b c : Value, a.toNat < p.q → b.toNat < p.q → c.toNat < p.q →
    (mulV p a b).toNat < p.q ∧
    mulV p a b = mulV p b a ∧ mulV p (mulV p a b) c = mulV p a (mulV p b c) ∧
    mulV p a (add b c) = add (mulV p a b) (mulV p a c) ∧
    mulV p a 1 = a ∧ add a 0 = a ∧ add a a = 0 ∧
    (a ≠ 0 → mulV p a (rcp p a) = 1) ∧ (b ≠ 0 → divV p a b = mulV p a (rcp p b))

/-- 41_tables_and_generator.md R143, 40_field_alu.md R117: ASIT inverts x ↦ x² + x on the even x, and holds 0 elsewhere. -/
def Obligations.AsitInvertsTheArtinSchreierMap : Prop :=
  ∀ p : Params, p.valid = true → asit p 0 = 0 ∧
    (∀ x : Value, 2 ≤ x.toNat → x.toNat < p.q → x.toNat % 2 = 0 → asit p (add (mulV p x x) x) = x) ∧
    (∀ y : Value, asit p y ≠ 0 → (asit p y).toNat % 2 = 0 ∧ (asit p y).toNat < p.q ∧
      add (mulV p (asit p y) (asit p y)) (asit p y) = y)

/-- 41_tables_and_generator.md R146, R147: G is monic of degree NR and vanishes at α^FCR, .., α^(FCR+NR−1). -/
def Obligations.GeneratorHasTheConsecutiveRoots : Prop :=
  ∀ p : Params, p.valid = true →
    (genPoly p).length = p.nr + 1 ∧ gRom p p.nr = 0 ∧
    ∀ i, i < p.nr → evalAt p (genPoly p) ((p.fcr + i) % p.n) = 0

/-- 41_tables_and_generator.md R146, R148: no entry of G is the sentinel. -/
def Obligations.GeneratorHoldsNoSentinel : Prop :=
  ∀ p : Params, p.valid = true → ∀ k, k ≤ p.nr → gRom p k < p.n

/-! ### ENCODE and SYND -/

/-- 43_encoder.md R181: ENCODE completes when the message is specified; the message stays, the parity of the LFSR is
written, and nothing else changes. -/
def Obligations.EncodeWritesTheParity : Prop :=
  ∀ s msg, s.params.valid = true → readRange s .code 0 s.params.k = .ok msg →
    ∃ t, exec .encode s = .next t ∧ { t with mem := s.mem } = s ∧
      (parity s.params msg).length = s.params.nr ∧
      (∀ j, j < s.params.nr → t.elem .code (s.params.k + j) = some ((parity s.params msg).getD j 0)) ∧
      (∀ b k, k < 65536 → ¬(b = .code ∧ s.params.k ≤ k ∧ k < s.params.n) → t.elem b k = s.elem b k)

/-- 43_encoder.md R182: ENCODE is idempotent. -/
def Obligations.EncodeIsIdempotent : Prop :=
  ∀ s t, s.Inv → exec .encode s = .next t → exec .encode t = .next t

/-- 43_encoder.md R182: after ENCODE all syndromes are 0, whatever the message, on a unit whose G holds no sentinel (the
property of R146; `GeneratorHoldsNoSentinel` states it of every unit). -/
def Obligations.EncodedWordHasZeroSyndromes : Prop :=
  ∀ s t, s.Inv → (∀ k, k < s.params.nr → gRom s.params k < s.params.n) → exec .encode s = .next t →
    ∃ u, exec .synd t = .next u ∧ u.result = 0 ∧ ∀ i, i < s.params.nr → u.elem .syn i = some 0

/-- 44_syndrome.md R190, R191: SYND completes when CODE is specified; SYN[i] is R(α^(FCR+i)), the sum of
CODE[j] · α^((FCR+i)(N−1−j)); RESULT counts the nonzero ones; nothing else changes. -/
def Obligations.SyndWritesTheSyndromes : Prop :=
  ∀ s code, s.Inv → readRange s .code 0 s.params.n = .ok code →
    ∃ (t : State) (syn : List Value), exec .synd s = .next t ∧ syn.length = s.params.nr ∧
      (∀ i, i < s.params.nr → syn.getD i 0 = sumV ((List.range s.params.n).map fun j =>
        mulIv s.params (((s.params.fcr + i) * (s.params.n - 1 - j)) % s.params.n) (code.getD j 0))) ∧
      (∀ i, i < s.params.nr → t.elem .syn i = some (syn.getD i 0)) ∧
      t.result.toNat = (syn.filter (fun x => x ≠ 0)).length ∧
      { t with mem := s.mem, result := s.result } = s ∧
      (∀ b k, k < 65536 → ¬(b = .syn ∧ k < s.params.nr) → t.elem b k = s.elem b k)

/-! ### ESEED and BM -/

/-- 45_eseed_bm.md R201: ESEED completes when the erasures are specified positions; LAMBDA gets the erasure locator, whose
coefficient 0 is 1 and whose coefficients above ECNT are 0; nothing else changes. -/
def Obligations.EseedWritesTheErasureLocator : Prop :=
  ∀ s (es : List Symbol), s.params.valid = true → s.ecnt.toNat ≤ s.params.nr →
    readRange s .eras 0 s.ecnt.toNat = .ok es → (∀ e ∈ es, e.toNat ≠ s.params.n) →
    ∃ t lam, exec .eseed s = .next t ∧ { t with mem := s.mem } = s ∧
      lam = seedLocator s.params (es.map BitVec.toNat) ∧ lam.length = s.params.nr + 1 ∧
      (∀ k, k ≤ s.params.nr → t.elem .lambda k = some (lam.getD k 0)) ∧ lam.getD 0 0 = 1 ∧
      (∀ k, s.ecnt.toNat < k → lam.getD k 0 = 0) ∧
      (∀ b k, k < 65536 → ¬(b = .lambda ∧ k ≤ s.params.nr) → t.elem b k = s.elem b k)

/-- 45_eseed_bm.md R200, R201: the seeded locator vanishes at the root α^((e+1) mod N) of every erased position e. -/
def Obligations.SeededLocatorVanishesAtErasures : Prop :=
  ∀ (p : Params) (es : List Nat), p.valid = true → es.length ≤ p.nr → (∀ e ∈ es, e < p.n) →
    ∀ e ∈ es, evalAt p (seedLocator p es) ((e + 1) % p.n) = 0

/-- 45_eseed_bm.md R201, R205, 48_decode.md R250, 60_exceptions.md R261: ECNT > NR is E_ECNT, before anything is read; an
erasure entry N is E_SENTINEL, in ESEED before anything is written, in DECODE of a word that is not clean after SYN has been
written. Entries behind the first N need not be specified: ERAS is read in order (log entry 11). -/
def Obligations.ErasureFaults : Prop :=
  ∀ s, s.faulted = false →
    (s.params.nr < s.ecnt.toNat →
      exec .eseed s = .next { s with status := 0x51#32, finfo := 0x88000000#32 } ∧
      exec .bm s = .next { s with status := 0x51#32, finfo := 0x8C000000#32 } ∧
      exec .decode s = .next { s with status := 0x51#32, finfo := 0x98000000#32 }) ∧
    (s.ecnt.toNat ≤ s.params.nr → ∀ k, k < s.ecnt.toNat →
      (∃ x, s.elem .eras k = some x ∧ x.toNat = s.params.n) →
      (∀ j, j < k → ∃ x, s.elem .eras j = some x) →
      exec .eseed s = .next { s with status := 0x41#32, finfo := 0x88000000#32 } ∧
      ∀ code, s.params.valid = true → readRange s .code 0 s.params.n = .ok code →
        (∃ x ∈ syndromes s.params code, x ≠ 0) →
        ∃ t, exec .decode s = .next t ∧ t.status = 0x41#32 ∧ t.finfo = 0x98000000#32 ∧
          (∀ i, i < s.params.nr → t.elem .syn i = some ((syndromes s.params code).getD i 0)) ∧
          { t with mem := s.mem, status := s.status, finfo := s.finfo } = s ∧
          (∀ b k, k < 65536 → ¬(b = .syn ∧ k < s.params.nr) → t.elem b k = s.elem b k))

/-- 45_eseed_bm.md R205, R206: BM completes when SYN and LAMBDA are specified; LAMBDA and LREG get the results of the passes;
LAMBDA[0] stays; ECNT ≤ LREG ≤ NR; nothing else changes. -/
def Obligations.BmWritesTheLocator : Prop :=
  ∀ s lam syn, s.params.valid = true → s.ecnt.toNat ≤ s.params.nr →
    readRange s .lambda 0 (s.params.nr + 1) = .ok lam → readRange s .syn 0 s.params.nr = .ok syn →
    ∃ t st, exec .bm s = .next t ∧ st = berlekampMassey s.params syn lam s.ecnt.toNat ∧
      st.lam.length = s.params.nr + 1 ∧ t.lreg.toNat = st.len ∧ s.ecnt.toNat ≤ st.len ∧ st.len ≤ s.params.nr ∧
      (∀ k, k ≤ s.params.nr → t.elem .lambda k = some (st.lam.getD k 0)) ∧ t.elem .lambda 0 = s.elem .lambda 0 ∧
      { t with mem := s.mem, lreg := s.lreg } = s ∧
      (∀ b k, k < 65536 → ¬(b = .lambda ∧ k ≤ s.params.nr) → t.elem b k = s.elem b k)

/-- 45_eseed_bm.md R205: with ECNT = NR no pass runs: LAMBDA is unchanged and LREG = NR. That SYN need not be specified then is
the model's reading (log entry 11): R205's first line lists SYN among what BM reads, its loop reads none of it. -/
def Obligations.BmWithAllErasuresRunsNoPass : Prop :=
  ∀ s lam, s.Inv → s.ecnt.toNat = s.params.nr → readRange s .lambda 0 (s.params.nr + 1) = .ok lam →
    exec .bm s = .next { s with lreg := s.ecnt }

/-! ### ROOTS -/

/-- 46_rootfinder.md R220: ROOTS completes when LAMBDA is specified; DEG is the trimmed degree, NROOTS the number of
locations, LOC[0..NROOTS) the locations; nothing else changes. -/
def Obligations.RootsWritesDegreeAndLocations : Prop :=
  ∀ s lam, s.params.valid = true → readRange s .lambda 0 (s.params.nr + 1) = .ok lam →
    ∃ t deg locs, exec .roots s = .next t ∧ t.deg.toNat = deg ∧ deg ≤ s.params.nr ∧
      (deg ≠ 0 → lam.getD deg 0 ≠ 0) ∧ (∀ k, deg < k → lam.getD k 0 = 0) ∧
      locs = findRoots s.params lam deg ∧ t.nroots.toNat = locs.length ∧
      (∀ k, k < locs.length → t.elem .loc k = some (BitVec.ofNat 16 (locs.getD k 0))) ∧
      { t with mem := s.mem, deg := s.deg, nroots := s.nroots } = s ∧
      (∀ b k, k < 65536 → ¬(b = .loc ∧ k < locs.length) → t.elem b k = s.elem b k)

/-- 46_rootfinder.md R225: at most DEG locations, pairwise different, each a position in [0, N). -/
def Obligations.RootCountIsAtMostTheDegree : Prop :=
  ∀ (p : Params) (lam : List Value), p.valid = true → lam.length = p.nr + 1 → (∀ x ∈ lam, x.toNat < p.q) →
    (findRoots p lam (trimmedDegree lam p.nr)).length ≤ trimmedDegree lam p.nr ∧
    (findRoots p lam (trimmedDegree lam p.nr)).Nodup ∧ ∀ l ∈ findRoots p lam (trimmedDegree lam p.nr), l < p.n

/-- 46_rootfinder.md R223, R224, R225: whichever path produced them, the locations are exactly the positions p with
Λ(α^((p+1) mod N)) = 0, but for a degree 2 locator with b = 0, a double root, which gives none. -/
def Obligations.RootsAreTheZerosOfTheLocator : Prop :=
  ∀ (p : Params) (lam : List Value), p.valid = true → lam.length = p.nr + 1 → (∀ x ∈ lam, x.toNat < p.q) →
    lam.getD 0 0 = 1 →
    (trimmedDegree lam p.nr = 2 → lam.getD 1 0 = 0 → findRoots p lam (trimmedDegree lam p.nr) = []) ∧
    (¬(trimmedDegree lam p.nr = 2 ∧ lam.getD 1 0 = 0) →
      ∀ pos, pos < p.n →
        (pos ∈ findRoots p lam (trimmedDegree lam p.nr) ↔ evalAt p lam ((pos + 1) % p.n) = 0))

/-! ### FORNEY -/

/-- 47_forney.md R241: FORNEY completes when its inputs are specified and Λ′ vanishes at no recorded root; OMEGA, MAG,
RESULT and CODE at the recorded locations are written, nothing else changes. -/
def Obligations.ForneyCorrectsTheRecordedLocations : Prop :=
  ∀ s syn lam locs, s.Inv → s.nroots.toNat ≤ s.params.nr →
    readRange s .syn 0 s.params.nr = .ok syn → readRange s .lambda 0 (s.params.nr + 1) = .ok lam →
    readRange s .loc 0 s.nroots.toNat = .ok locs → locs.Nodup →
    (∀ l ∈ locs, ∃ x, s.elem .code l.toNat = some x) →
    (∀ l ∈ locs, derivativeAt s.params lam ((l.toNat + 1) % s.params.n) ≠ 0) →
    ∃ t mags, exec .forney s = .next t ∧
      magnitudes s.params (evaluator s.params lam syn) lam (locs.map BitVec.toNat) = .ok mags ∧
      mags.length = locs.length ∧
      (∀ i, i < s.params.nr → t.elem .omega i = some ((evaluator s.params lam syn).getD i 0)) ∧
      (∀ k, k < locs.length → t.elem .mag k = some (mags.getD k 0)) ∧
      (∀ k, k < locs.length → ∀ x, s.elem .code (locs.getD k 0).toNat = some x →
        t.elem .code (locs.getD k 0).toNat = some (x ^^^ mags.getD k 0)) ∧
      t.result.toNat = (mags.filter (fun x => x ≠ 0)).length ∧
      { t with mem := s.mem, result := s.result } = s ∧
      (∀ b k, k < 65536 →
        ¬((b = .omega ∧ k < s.params.nr) ∨ (b = .mag ∧ k < locs.length) ∨ (b = .code ∧ ∃ l ∈ locs, l.toNat = k)) →
        t.elem b k = s.elem b k)

/-- 47_forney.md R241: if Λ′ vanishes at a recorded root, FORNEY faults with E_DIVZERO and changes nothing else. -/
def Obligations.ForneyFaultsOnAVanishingDerivative : Prop :=
  ∀ s syn lam locs, s.faulted = false →
    readRange s .syn 0 s.params.nr = .ok syn → readRange s .lambda 0 (s.params.nr + 1) = .ok lam →
    readRange s .loc 0 s.nroots.toNat = .ok locs →
    (∃ l ∈ locs, derivativeAt s.params lam ((l.toNat + 1) % s.params.n) = 0) →
    exec .forney s = .next { s with status := 0x31#32, finfo := 0x94000000#32 }

/-! ### DECODE -/

/-- 48_decode.md R250, R253: a clean word returns 0 without running BM: only SYN and RESULT are written. -/
def Obligations.DecodeOfACleanWordWritesOnlySynAndResult : Prop :=
  ∀ s code, s.params.valid = true → s.ecnt.toNat ≤ s.params.nr → readRange s .code 0 s.params.n = .ok code →
    (∀ x ∈ syndromes s.params code, x = 0) →
    ∃ t, exec .decode s = .next t ∧ t.result = 0 ∧ (∀ i, i < s.params.nr → t.elem .syn i = some 0) ∧
      { t with mem := s.mem, result := s.result } = s ∧
      (∀ b k, k < 65536 → ¬(b = .syn ∧ k < s.params.nr) → t.elem b k = s.elem b k)

/-- 48_decode.md R251: DECODE leaves what the stage commands leave, the host taking the two decisions; on the −1 exits RESULT
is 0xFFFFFFFF. -/
def Obligations.DecodeEqualsTheStagedCommands : Prop :=
  ∀ s s1 s2 s3 s4 s5, s.Inv → s.faulted = false → s.ecnt.toNat ≤ s.params.nr → exec .synd s = .next s1 →
    (s1.result = 0 → exec .decode s = .next s1) ∧
    (s1.result ≠ 0 → exec .eseed s1 = .next s2 → s2.faulted = false → exec .bm s2 = .next s3 → exec .roots s3 = .next s4 →
      (s4.deg = 0 ∨ s4.nroots.toNat < s4.deg.toNat → exec .decode s = .next { s4 with result := 0xFFFFFFFF#32 } ∧ s4.result = s1.result) ∧
      (s4.deg ≠ 0 → s4.deg.toNat ≤ s4.nroots.toNat → exec .forney s4 = .next s5 → s5.faulted = false →
        exec .decode s = .next s5))

/-- 48_decode.md R250, R252, 47_forney.md R242: DECODE of a specified word with specified erasure positions completes
without a fault, for every word: RESULT is −1 or a count in [0, NR], and V, I, ERAS, ECNT stay. -/
def Obligations.DecodeCompletesWithoutFault : Prop :=
  ∀ s code es, s.Inv → s.faulted = false → s.ecnt.toNat ≤ s.params.nr →
    readRange s .code 0 s.params.n = .ok code → readRange s .eras 0 s.ecnt.toNat = .ok es →
    (∀ e ∈ es, e.toNat ≠ s.params.n) →
    ∃ t, exec .decode s = .next t ∧ t.status = s.status ∧ t.finfo = s.finfo ∧
      (t.result = 0xFFFFFFFF#32 ∨ t.result.toNat ≤ s.params.nr) ∧
      t.vreg = s.vreg ∧ t.ireg = s.ireg ∧ t.ecnt = s.ecnt ∧ ∀ k, k < 65536 → t.elem .eras k = s.elem .eras k

/-- 48_decode.md R250: a DECODE that returns −1 leaves CODE, OMEGA and MAG as they were. -/
def Obligations.FailedDecodeLeavesTheWord : Prop :=
  ∀ s t, s.Inv → exec .decode s = .next t → t.result = 0xFFFFFFFF#32 →
    ∀ k, k < 65536 → t.elem .code k = s.elem .code k ∧ t.elem .omega k = s.elem .omega k ∧ t.elem .mag k = s.elem .mag k

/-- 48_decode.md R253, its erasure part: a word that differs from a codeword at erased positions only (at most NR, pairwise
different) is restored, and RESULT is the number of positions at which it differed. -/
def Obligations.DecodeFillsErasures : Prop :=
  ∀ (s : State) (word recv es : List Symbol), s.Inv → s.faulted = false → s.ecnt.toNat ≤ s.params.nr →
    readRange s .code 0 s.params.n = .ok recv → readRange s .eras 0 s.ecnt.toNat = .ok es →
    es.Nodup → (∀ e ∈ es, e.toNat ≠ s.params.n) →
    word.length = s.params.n → (∀ x ∈ word, x.toNat < s.params.q) → (∀ x ∈ syndromes s.params word, x = 0) →
    (∀ j, j < s.params.n → word.getD j 0 ≠ recv.getD j 0 → BitVec.ofNat 16 j ∈ es) →
    ∃ t, exec .decode s = .next t ∧ t.status = s.status ∧
      t.result.toNat = ((List.range s.params.n).filter fun j => word.getD j 0 ≠ recv.getD j 0).length ∧
      ∀ j, j < s.params.n → t.elem .code j = some (word.getD j 0)

/-- 48_decode.md R253: a codeword with errors at positions outside the erasure list and any values at the erased positions
is restored whenever 2 · errors + erasures ≤ NR, and RESULT is the number of positions at which it differed. -/
def Obligations.DecodeCorrectsWithinTheBound : Prop :=
  ∀ (s : State) (word recv es : List Symbol), s.Inv → s.faulted = false →
    readRange s .code 0 s.params.n = .ok recv → readRange s .eras 0 s.ecnt.toNat = .ok es →
    es.Nodup → (∀ e ∈ es, e.toNat ≠ s.params.n) →
    word.length = s.params.n → (∀ x ∈ word, x.toNat < s.params.q) → (∀ x ∈ syndromes s.params word, x = 0) →
    2 * ((List.range s.params.n).filter fun j => word.getD j 0 ≠ recv.getD j 0 ∧ BitVec.ofNat 16 j ∉ es).length
      + es.length ≤ s.params.nr →
    ∃ t, exec .decode s = .next t ∧ t.status = s.status ∧
      t.result.toNat = ((List.range s.params.n).filter fun j => word.getD j 0 ≠ recv.getD j 0).length ∧
      ∀ j, j < s.params.n → t.elem .code j = some (word.getD j 0)

/-! ### Faults -/

/-- 60_exceptions.md R262: taking a fault: STATUS holds FAULT and the code, FINFO the word, nothing else changes; with
FAULT = 1 nothing changes at all. -/
def Obligations.FaultEntryWritesTheLatchOnce : Prop :=
  ∀ s w, (s.faulted = true → ∀ c, raiseFault w c s = s) ∧
    (s.faulted = false →
      ∀ e ∈ [(Cause.illegal, 0x11#32), (.range, 0x21#32), (.divZero, 0x31#32), (.sentinel, 0x41#32), (.ecnt, 0x51#32),
          (.bus, 0x61#32)],
        raiseFault w e.1 s = { s with status := e.2, finfo := w })

/-- 60_exceptions.md R262: a command that faults changes nothing but the latch, which records its word; DECODE's E_SENTINEL
comes after SYN has been written. -/
def Obligations.FaultingCommandChangesOnlyTheLatch : Prop :=
  ∀ i s t, s.params.valid = true → s.faulted = false → exec i s = .next t → t.faulted = true →
    t.finfo = encode i ∧
    (i ≠ .decode → { t with status := s.status, finfo := s.finfo } = s) ∧
    (i = .decode → ecodeField t.status = 5 → { t with status := s.status, finfo := s.finfo } = s) ∧
    (i = .decode → ecodeField t.status = 4 →
      { t with status := s.status, finfo := s.finfo, mem := s.mem } = s ∧
      ∀ b k, k < 65536 → ¬(b = .syn ∧ k < s.params.nr) → t.elem b k = s.elem b k)

/-- 60_exceptions.md R264, R265, 20_memory.md R65: in the fault state every write is ignored and every event but reset leaves
the unit as it is. -/
def Obligations.FaultStateIsTerminal : Prop :=
  ∀ s e rest, s.faulted = true → s.host = e :: rest →
    (∀ a d, e = .write a d → step s = .next { s with host := rest }) ∧
    (∀ a, e = .read a → step s = hostRead a { s with host := rest }) ∧
    (∀ t, e ≠ .reset → step s = .next t → { t with host := s.host, rdata := s.rdata } = s) ∧
    (e = .reset → ∃ t, step s = .next t ∧ t.faulted = false)

/-! ### Host port -/

/-- 20_memory.md R61, R62: a host read of a specified location returns it zero-extended and changes no state; any other
address returns 0 and is a bus fault. `rdata` is where the model keeps what a read returns (log entry 5). -/
def Obligations.HostReadReturnsTheLocation : Prop :=
  ∀ s,
    (∀ sp k x, k < 65536 → sp ≠ .csr → k < sp.size s.params → s.elem sp k = some x →
      hostRead (BitVec.ofNat 20 (sp.number * 65536 + k)) s = .next { s with rdata := some (x.setWidth 32) }) ∧
    (∀ e ∈ [(0, 0), (1, s.status), (2, s.result), (3, s.ecnt.setWidth 32), (4, s.lreg.setWidth 32), (5, s.deg.setWidth 32),
        (6, s.nroots.setWidth 32), (7, s.finfo), (8, BitVec.ofNat 32 s.params.m), (9, BitVec.ofNat 32 s.params.poly),
        (10, BitVec.ofNat 32 s.params.nr), (11, BitVec.ofNat 32 s.params.fcr), (12, BitVec.ofNat 32 s.params.n),
        (13, BitVec.ofNat 32 s.params.k)],
      hostRead (0xD0000#20 + BitVec.ofNat 20 e.1) s = .next { s with rdata := some e.2 }) ∧
    (∀ addr : HostAddr, (∀ (sp : Space) k, k < sp.size s.params → addr.toNat ≠ sp.number * 65536 + k) →
      hostRead addr s = .next { raiseFault (addr.setWidth 32) .bus s with rdata := some 0 })

/-- 20_memory.md R63: with FAULT = 0 a host write stores data that fits into CODE, ERAS, V, I or ECNT, runs the command
written to CMD, and is a bus fault that writes nothing on any other location or data. -/
def Obligations.HostWriteFollowsItsRule : Prop :=
  ∀ s (d : Word), s.params.valid = true → s.faulted = false →
    (d.toNat < s.params.q →
      (∀ k, k < s.params.n → hostWrite (BitVec.ofNat 20 k) d s = .next (s.setElem .code k (d.setWidth 16))) ∧
      (∀ k, k < s.params.nr → hostWrite (BitVec.ofNat 20 (0x10000 + k)) d s = .next (s.setElem .eras k (d.setWidth 16))) ∧
      (∀ r : Fin 8, hostWrite (BitVec.ofNat 20 (0xB0000 + r.val)) d s = .next { s with vreg := s.vreg.set r (d.setWidth 16) } ∧
        hostWrite (BitVec.ofNat 20 (0xC0000 + r.val)) d s = .next { s with ireg := s.ireg.set r (d.setWidth 16) })) ∧
    (d.toNat < 65536 → hostWrite 0xD0003#20 d s = .next { s with ecnt := d.setWidth 16 }) ∧
    hostWrite 0xD0000#20 d s = runCommand d s ∧
    (∀ addr : HostAddr,
      ((∀ k, k < s.params.n → addr.toNat ≠ k) ∧ (∀ k, k < s.params.nr → addr.toNat ≠ 0x10000 + k) ∧
        (∀ k, k < 8 → addr.toNat ≠ 0xB0000 + k ∧ addr.toNat ≠ 0xC0000 + k) ∧ addr.toNat ≠ 0xD0000 ∧ addr.toNat ≠ 0xD0003) ∨
      (addr.toNat < 0xD0000 ∧ s.params.q ≤ d.toNat) ∨ (addr.toNat = 0xD0003 ∧ 65536 ≤ d.toNat) →
      hostWrite addr d s = .next { s with status := 0x61#32, finfo := addr.setWidth 32 })

/-! ### Whole-machine rules -/

/-- 10_state.md R35, R43: no step changes the parameters or a ROM. -/
def Obligations.ParametersAndRomsNeverChange : Prop :=
  ∀ s t, step s = .next t → t.params = s.params ∧
    ∀ sp ∈ [Space.g, .logt, .expt, .asit], ∀ k, t.elem sp k = s.elem sp k

/-- 10_state.md R30: only the host writes ECNT: a step that changes it is a write to its address or a reset. -/
def Obligations.OnlyTheHostWritesEcnt : Prop :=
  ∀ s t, step s = .next t → t.ecnt ≠ s.ecnt → ∃ rest, s.host = .reset :: rest ∨ ∃ d, s.host = .write 0xD0003#20 d :: rest

/-- 10_state.md R23, R24, R37: the codec commands leave V, I, ECNT and ERAS alone. -/
def Obligations.CodecCommandsLeaveRegistersAlone : Prop :=
  ∀ i ∈ [Instr.encode, .synd, .eseed, .bm, .roots, .forney, .decode], ∀ s t, s.Inv → exec i s = .next t →
    t.params = s.params ∧ t.vreg = s.vreg ∧ t.ireg = s.ireg ∧ t.ecnt = s.ecnt ∧ t.host = s.host ∧ t.rdata = s.rdata ∧
    ∀ k, k < 65536 → t.elem .eras k = s.elem .eras k

/-- 10_state.md R29, R31, R32, R33: only SYND, FORNEY and DECODE write RESULT, only BM and DECODE write LREG, only ROOTS and
DECODE write DEG and NROOTS. -/
def Obligations.CountRegistersHaveTheirWriters : Prop :=
  ∀ i s t, exec i s = .next t →
    (i ∉ [Instr.synd, .forney, .decode] → t.result = s.result) ∧
    (i ∉ [Instr.bm, .decode] → t.lreg = s.lreg) ∧
    (i ∉ [Instr.roots, .decode] → t.deg = s.deg ∧ t.nroots = s.nroots)

/-- The reset state of every unit is legal (R6, R46; V and I at the model's value 0, log entry 1). -/
def Obligations.ResetStateIsLegal : Prop := ∀ p : Params, p.valid = true → (State.resetOf p).Inv ∧ (State.resetOf p).CountsBounded

/-- Every step keeps a state legal: the memory canonical and inside the arrays, every symbol M bits wide, LAMBDA[0] = 1, LOC
in [0, N), the fault latch well formed, LREG and DEG in [0, NR] (10_state.md R23, R24, R28, R31, R32, R34, R39, R41). -/
def Obligations.StepKeepsTheStateLegal : Prop := ∀ s t, s.Inv → step s = .next t → t.Inv

/-- Every step keeps NROOTS ≤ DEG, RESULT = −1 or in [0, NR], and LOC and MAG inside [0, NR) (10_state.md R29, R33, R41, R42;
46_rootfinder.md R225). -/
def Obligations.StepKeepsTheCountsBounded : Prop := ∀ s t, s.Inv → s.CountsBounded → step s = .next t → t.CountsBounded
end

