-- ==== Sys2Proof/Laws/State.lean ====
section
/-! SUPPORT. Laws/State.lean: what each update of the state leaves in each field. -/

namespace Sys2Proof.Machine

variable (s : State)

@[simp] theorem State.setV_params (r : VReg) (x : Value) : (s.setV r x).params = s.params := rfl
@[simp] theorem State.setV_vreg (r : VReg) (x : Value) : (s.setV r x).vreg = s.vreg.set r x := rfl
@[simp] theorem State.setV_ireg (r : VReg) (x : Value) : (s.setV r x).ireg = s.ireg := rfl
@[simp] theorem State.setV_mem (r : VReg) (x : Value) : (s.setV r x).mem = s.mem := rfl
@[simp] theorem State.setV_status (r : VReg) (x : Value) : (s.setV r x).status = s.status := rfl
@[simp] theorem State.setV_result (r : VReg) (x : Value) : (s.setV r x).result = s.result := rfl
@[simp] theorem State.setV_ecnt (r : VReg) (x : Value) : (s.setV r x).ecnt = s.ecnt := rfl
@[simp] theorem State.setV_lreg (r : VReg) (x : Value) : (s.setV r x).lreg = s.lreg := rfl
@[simp] theorem State.setV_deg (r : VReg) (x : Value) : (s.setV r x).deg = s.deg := rfl
@[simp] theorem State.setV_nroots (r : VReg) (x : Value) : (s.setV r x).nroots = s.nroots := rfl
@[simp] theorem State.setV_finfo (r : VReg) (x : Value) : (s.setV r x).finfo = s.finfo := rfl
@[simp] theorem State.setV_host (r : VReg) (x : Value) : (s.setV r x).host = s.host := rfl
@[simp] theorem State.setV_rdata (r : VReg) (x : Value) : (s.setV r x).rdata = s.rdata := rfl

@[simp] theorem State.setI_params (r : IReg) (x : Index) : (s.setI r x).params = s.params := rfl
@[simp] theorem State.setI_vreg (r : IReg) (x : Index) : (s.setI r x).vreg = s.vreg := rfl
@[simp] theorem State.setI_ireg (r : IReg) (x : Index) : (s.setI r x).ireg = s.ireg.set r x := rfl
@[simp] theorem State.setI_mem (r : IReg) (x : Index) : (s.setI r x).mem = s.mem := rfl
@[simp] theorem State.setI_status (r : IReg) (x : Index) : (s.setI r x).status = s.status := rfl
@[simp] theorem State.setI_result (r : IReg) (x : Index) : (s.setI r x).result = s.result := rfl
@[simp] theorem State.setI_ecnt (r : IReg) (x : Index) : (s.setI r x).ecnt = s.ecnt := rfl
@[simp] theorem State.setI_lreg (r : IReg) (x : Index) : (s.setI r x).lreg = s.lreg := rfl
@[simp] theorem State.setI_deg (r : IReg) (x : Index) : (s.setI r x).deg = s.deg := rfl
@[simp] theorem State.setI_nroots (r : IReg) (x : Index) : (s.setI r x).nroots = s.nroots := rfl
@[simp] theorem State.setI_finfo (r : IReg) (x : Index) : (s.setI r x).finfo = s.finfo := rfl
@[simp] theorem State.setI_host (r : IReg) (x : Index) : (s.setI r x).host = s.host := rfl
@[simp] theorem State.setI_rdata (r : IReg) (x : Index) : (s.setI r x).rdata = s.rdata := rfl

@[simp] theorem State.setElem_params (sp : Space) (k : Nat) (x : Symbol) : (s.setElem sp k x).params = s.params := rfl
@[simp] theorem State.setElem_vreg (sp : Space) (k : Nat) (x : Symbol) : (s.setElem sp k x).vreg = s.vreg := rfl
@[simp] theorem State.setElem_ireg (sp : Space) (k : Nat) (x : Symbol) : (s.setElem sp k x).ireg = s.ireg := rfl
@[simp] theorem State.setElem_mem (sp : Space) (k : Nat) (x : Symbol) : (s.setElem sp k x).mem = Memory.put (addressOf sp k) x s.mem := rfl
@[simp] theorem State.setElem_status (sp : Space) (k : Nat) (x : Symbol) : (s.setElem sp k x).status = s.status := rfl
@[simp] theorem State.setElem_result (sp : Space) (k : Nat) (x : Symbol) : (s.setElem sp k x).result = s.result := rfl
@[simp] theorem State.setElem_ecnt (sp : Space) (k : Nat) (x : Symbol) : (s.setElem sp k x).ecnt = s.ecnt := rfl
@[simp] theorem State.setElem_lreg (sp : Space) (k : Nat) (x : Symbol) : (s.setElem sp k x).lreg = s.lreg := rfl
@[simp] theorem State.setElem_deg (sp : Space) (k : Nat) (x : Symbol) : (s.setElem sp k x).deg = s.deg := rfl
@[simp] theorem State.setElem_nroots (sp : Space) (k : Nat) (x : Symbol) : (s.setElem sp k x).nroots = s.nroots := rfl
@[simp] theorem State.setElem_finfo (sp : Space) (k : Nat) (x : Symbol) : (s.setElem sp k x).finfo = s.finfo := rfl
@[simp] theorem State.setElem_host (sp : Space) (k : Nat) (x : Symbol) : (s.setElem sp k x).host = s.host := rfl
@[simp] theorem State.setElem_rdata (sp : Space) (k : Nat) (x : Symbol) : (s.setElem sp k x).rdata = s.rdata := rfl

@[simp] theorem State.setResult_params (w : Word) : (s.setResult w).params = s.params := rfl
@[simp] theorem State.setResult_vreg (w : Word) : (s.setResult w).vreg = s.vreg := rfl
@[simp] theorem State.setResult_ireg (w : Word) : (s.setResult w).ireg = s.ireg := rfl
@[simp] theorem State.setResult_mem (w : Word) : (s.setResult w).mem = s.mem := rfl
@[simp] theorem State.setResult_status (w : Word) : (s.setResult w).status = s.status := rfl
@[simp] theorem State.setResult_result (w : Word) : (s.setResult w).result = w := rfl
@[simp] theorem State.setResult_ecnt (w : Word) : (s.setResult w).ecnt = s.ecnt := rfl
@[simp] theorem State.setResult_lreg (w : Word) : (s.setResult w).lreg = s.lreg := rfl
@[simp] theorem State.setResult_deg (w : Word) : (s.setResult w).deg = s.deg := rfl
@[simp] theorem State.setResult_nroots (w : Word) : (s.setResult w).nroots = s.nroots := rfl
@[simp] theorem State.setResult_finfo (w : Word) : (s.setResult w).finfo = s.finfo := rfl
@[simp] theorem State.setResult_host (w : Word) : (s.setResult w).host = s.host := rfl
@[simp] theorem State.setResult_rdata (w : Word) : (s.setResult w).rdata = s.rdata := rfl

@[simp] theorem State.returnData_params (d : Word) : (returnData s d).params = s.params := rfl
@[simp] theorem State.returnData_vreg (d : Word) : (returnData s d).vreg = s.vreg := rfl
@[simp] theorem State.returnData_ireg (d : Word) : (returnData s d).ireg = s.ireg := rfl
@[simp] theorem State.returnData_mem (d : Word) : (returnData s d).mem = s.mem := rfl
@[simp] theorem State.returnData_status (d : Word) : (returnData s d).status = s.status := rfl
@[simp] theorem State.returnData_result (d : Word) : (returnData s d).result = s.result := rfl
@[simp] theorem State.returnData_ecnt (d : Word) : (returnData s d).ecnt = s.ecnt := rfl
@[simp] theorem State.returnData_lreg (d : Word) : (returnData s d).lreg = s.lreg := rfl
@[simp] theorem State.returnData_deg (d : Word) : (returnData s d).deg = s.deg := rfl
@[simp] theorem State.returnData_nroots (d : Word) : (returnData s d).nroots = s.nroots := rfl
@[simp] theorem State.returnData_finfo (d : Word) : (returnData s d).finfo = s.finfo := rfl
@[simp] theorem State.returnData_host (d : Word) : (returnData s d).host = s.host := rfl
@[simp] theorem State.returnData_rdata (d : Word) : (returnData s d).rdata = some d := rfl

@[simp] theorem State.offerCommand_params (w : Word) : (offerCommand s w).params = s.params := rfl
@[simp] theorem State.offerCommand_vreg (w : Word) : (offerCommand s w).vreg = s.vreg := rfl
@[simp] theorem State.offerCommand_ireg (w : Word) : (offerCommand s w).ireg = s.ireg := rfl
@[simp] theorem State.offerCommand_mem (w : Word) : (offerCommand s w).mem = s.mem := rfl
@[simp] theorem State.offerCommand_status (w : Word) : (offerCommand s w).status = s.status := rfl
@[simp] theorem State.offerCommand_result (w : Word) : (offerCommand s w).result = s.result := rfl
@[simp] theorem State.offerCommand_ecnt (w : Word) : (offerCommand s w).ecnt = s.ecnt := rfl
@[simp] theorem State.offerCommand_lreg (w : Word) : (offerCommand s w).lreg = s.lreg := rfl
@[simp] theorem State.offerCommand_deg (w : Word) : (offerCommand s w).deg = s.deg := rfl
@[simp] theorem State.offerCommand_nroots (w : Word) : (offerCommand s w).nroots = s.nroots := rfl
@[simp] theorem State.offerCommand_finfo (w : Word) : (offerCommand s w).finfo = s.finfo := rfl
@[simp] theorem State.offerCommand_host (w : Word) : (offerCommand s w).host = .write cmdAddr w :: s.host := rfl
@[simp] theorem State.offerCommand_rdata (w : Word) : (offerCommand s w).rdata = s.rdata := rfl

@[simp] theorem State.resetUnit_params : (resetUnit s).params = s.params := rfl
@[simp] theorem State.resetUnit_vreg : (resetUnit s).vreg = Vector.replicate 8 0 := rfl
@[simp] theorem State.resetUnit_ireg : (resetUnit s).ireg = Vector.replicate 8 0 := rfl
@[simp] theorem State.resetUnit_mem : (resetUnit s).mem = [] := rfl
@[simp] theorem State.resetUnit_status : (resetUnit s).status = 0 := rfl
@[simp] theorem State.resetUnit_result : (resetUnit s).result = 0 := rfl
@[simp] theorem State.resetUnit_ecnt : (resetUnit s).ecnt = 0 := rfl
@[simp] theorem State.resetUnit_lreg : (resetUnit s).lreg = 0 := rfl
@[simp] theorem State.resetUnit_deg : (resetUnit s).deg = 0 := rfl
@[simp] theorem State.resetUnit_nroots : (resetUnit s).nroots = 0 := rfl
@[simp] theorem State.resetUnit_finfo : (resetUnit s).finfo = 0 := rfl
@[simp] theorem State.resetUnit_host : (resetUnit s).host = s.host := rfl
@[simp] theorem State.resetUnit_rdata : (resetUnit s).rdata = none := rfl

@[simp] theorem State.setRange_params (sp : Space) (k : Nat) (xs : List Symbol) : (s.setRange sp k xs).params = s.params := by
  induction xs generalizing s k with
  | nil => rfl
  | cons x xs ih => simpa [State.setRange] using ih (s.setElem sp k x) (k + 1)

@[simp] theorem State.setRange_vreg (sp : Space) (k : Nat) (xs : List Symbol) : (s.setRange sp k xs).vreg = s.vreg := by
  induction xs generalizing s k with
  | nil => rfl
  | cons x xs ih => simpa [State.setRange] using ih (s.setElem sp k x) (k + 1)

@[simp] theorem State.setRange_ireg (sp : Space) (k : Nat) (xs : List Symbol) : (s.setRange sp k xs).ireg = s.ireg := by
  induction xs generalizing s k with
  | nil => rfl
  | cons x xs ih => simpa [State.setRange] using ih (s.setElem sp k x) (k + 1)

@[simp] theorem State.setRange_status (sp : Space) (k : Nat) (xs : List Symbol) : (s.setRange sp k xs).status = s.status := by
  induction xs generalizing s k with
  | nil => rfl
  | cons x xs ih => simpa [State.setRange] using ih (s.setElem sp k x) (k + 1)

@[simp] theorem State.setRange_result (sp : Space) (k : Nat) (xs : List Symbol) : (s.setRange sp k xs).result = s.result := by
  induction xs generalizing s k with
  | nil => rfl
  | cons x xs ih => simpa [State.setRange] using ih (s.setElem sp k x) (k + 1)

@[simp] theorem State.setRange_ecnt (sp : Space) (k : Nat) (xs : List Symbol) : (s.setRange sp k xs).ecnt = s.ecnt := by
  induction xs generalizing s k with
  | nil => rfl
  | cons x xs ih => simpa [State.setRange] using ih (s.setElem sp k x) (k + 1)

@[simp] theorem State.setRange_lreg (sp : Space) (k : Nat) (xs : List Symbol) : (s.setRange sp k xs).lreg = s.lreg := by
  induction xs generalizing s k with
  | nil => rfl
  | cons x xs ih => simpa [State.setRange] using ih (s.setElem sp k x) (k + 1)

@[simp] theorem State.setRange_deg (sp : Space) (k : Nat) (xs : List Symbol) : (s.setRange sp k xs).deg = s.deg := by
  induction xs generalizing s k with
  | nil => rfl
  | cons x xs ih => simpa [State.setRange] using ih (s.setElem sp k x) (k + 1)

@[simp] theorem State.setRange_nroots (sp : Space) (k : Nat) (xs : List Symbol) : (s.setRange sp k xs).nroots = s.nroots := by
  induction xs generalizing s k with
  | nil => rfl
  | cons x xs ih => simpa [State.setRange] using ih (s.setElem sp k x) (k + 1)

@[simp] theorem State.setRange_finfo (sp : Space) (k : Nat) (xs : List Symbol) : (s.setRange sp k xs).finfo = s.finfo := by
  induction xs generalizing s k with
  | nil => rfl
  | cons x xs ih => simpa [State.setRange] using ih (s.setElem sp k x) (k + 1)

@[simp] theorem State.setRange_host (sp : Space) (k : Nat) (xs : List Symbol) : (s.setRange sp k xs).host = s.host := by
  induction xs generalizing s k with
  | nil => rfl
  | cons x xs ih => simpa [State.setRange] using ih (s.setElem sp k x) (k + 1)

@[simp] theorem State.setRange_rdata (sp : Space) (k : Nat) (xs : List Symbol) : (s.setRange sp k xs).rdata = s.rdata := by
  induction xs generalizing s k with
  | nil => rfl
  | cons x xs ih => simpa [State.setRange] using ih (s.setElem sp k x) (k + 1)

@[simp] theorem raiseFault_params (w : Word) (c : Cause) : (raiseFault w c s).params = s.params := by
  unfold raiseFault; split <;> rfl
@[simp] theorem raiseFault_vreg (w : Word) (c : Cause) : (raiseFault w c s).vreg = s.vreg := by
  unfold raiseFault; split <;> rfl
@[simp] theorem raiseFault_ireg (w : Word) (c : Cause) : (raiseFault w c s).ireg = s.ireg := by
  unfold raiseFault; split <;> rfl
@[simp] theorem raiseFault_mem (w : Word) (c : Cause) : (raiseFault w c s).mem = s.mem := by
  unfold raiseFault; split <;> rfl
@[simp] theorem raiseFault_result (w : Word) (c : Cause) : (raiseFault w c s).result = s.result := by
  unfold raiseFault; split <;> rfl
@[simp] theorem raiseFault_ecnt (w : Word) (c : Cause) : (raiseFault w c s).ecnt = s.ecnt := by
  unfold raiseFault; split <;> rfl
@[simp] theorem raiseFault_lreg (w : Word) (c : Cause) : (raiseFault w c s).lreg = s.lreg := by
  unfold raiseFault; split <;> rfl
@[simp] theorem raiseFault_deg (w : Word) (c : Cause) : (raiseFault w c s).deg = s.deg := by
  unfold raiseFault; split <;> rfl
@[simp] theorem raiseFault_nroots (w : Word) (c : Cause) : (raiseFault w c s).nroots = s.nroots := by
  unfold raiseFault; split <;> rfl
@[simp] theorem raiseFault_host (w : Word) (c : Cause) : (raiseFault w c s).host = s.host := by
  unfold raiseFault; split <;> rfl
@[simp] theorem raiseFault_rdata (w : Word) (c : Cause) : (raiseFault w c s).rdata = s.rdata := by
  unfold raiseFault; split <;> rfl

@[simp] theorem State.v_setV_same (r : VReg) (x : Value) : (s.setV r x).v r = x := by simp [State.v]

theorem State.v_setV_other (r r' : VReg) (x : Value) (h : r' ≠ r) : (s.setV r x).v r' = s.v r' := by
  have : (r : Nat) ≠ r' := fun e => h (Fin.ext e.symm)
  simp [State.v, this]

@[simp] theorem State.v_setI (r : IReg) (r' : VReg) (x : Index) : (s.setI r x).v r' = s.v r' := rfl

@[simp] theorem State.i_setI_same (r : IReg) (x : Index) : (s.setI r x).i r = x.toNat := by simp [State.i]

theorem State.i_setI_other (r r' : IReg) (x : Index) (h : r' ≠ r) : (s.setI r x).i r' = s.i r' := by
  have : (r : Nat) ≠ r' := fun e => h (Fin.ext e.symm)
  simp [State.i, this]

@[simp] theorem State.i_setV (r : VReg) (r' : IReg) (x : Value) : (s.setV r x).i r' = s.i r' := rfl

end Sys2Proof.Machine
end

