-- ==== Sys2Proof/Laws/Memory.lean ====
section
/-! SUPPORT. Laws/Memory.lean: the laws of the memory and of the elements of the spaces. -/

namespace Sys2Proof.Machine

theorem Memory.find_put_same (a : Nat) (x : Symbol) (m : Memory) : Memory.find a (Memory.put a x m) = some x := by
  induction m with
  | nil => simp [Memory.put, Memory.find]
  | cons c m ih =>
    obtain ⟨b, y⟩ := c
    unfold Memory.put
    split
    · simp [Memory.find]
    · split
      · simp [Memory.find]
      · rename_i h
        simp [Memory.find, h, ih]

theorem Memory.find_put_other (a b : Nat) (x : Symbol) (m : Memory) (h : b ≠ a) :
    Memory.find b (Memory.put a x m) = Memory.find b m := by
  induction m with
  | nil => simp [Memory.put, Memory.find, h]
  | cons c m ih =>
    obtain ⟨d, y⟩ := c
    unfold Memory.put
    split
    · simp [Memory.find, h]
    · split
      · rename_i e
        subst e
        simp [Memory.find, h]
      · simp [Memory.find, ih]

/-- The cells after a write: the written one and old ones. -/
theorem Memory.mem_put {a : Nat} {x : Symbol} {m : Memory} {c : Cell} (h : c ∈ Memory.put a x m) : c = (a, x) ∨ c ∈ m := by
  induction m with
  | nil => simpa [Memory.put] using h
  | cons d m ih =>
    obtain ⟨b, y⟩ := d
    unfold Memory.put at h
    split at h
    · simpa using h
    · split at h
      · rcases List.mem_cons.1 h with h | h
        · exact .inl h
        · exact .inr (List.mem_cons_of_mem _ h)
      · rcases List.mem_cons.1 h with h | h
        · exact .inr (by simp [h])
        · exact (ih h).imp id (List.mem_cons_of_mem _)

/-- Every write keeps the canonical form. -/
theorem Memory.put_wf {a : Nat} {x : Symbol} {m : Memory} (h : Memory.wf m) : Memory.wf (Memory.put a x m) := by
  induction m with
  | nil => simp [Memory.put, Memory.wf]
  | cons d m ih =>
    obtain ⟨b, y⟩ := d
    have hb := List.pairwise_cons.1 h
    unfold Memory.put
    split
    · rename_i hab
      refine List.pairwise_cons.2 ⟨fun c hc => ?_, h⟩
      rcases List.mem_cons.1 hc with rfl | hc
      · exact hab
      · exact hab.trans (hb.1 c hc)
    · split
      · rename_i e
        subst e
        exact List.pairwise_cons.2 ⟨hb.1, hb.2⟩
      · rename_i hlt hne
        refine List.pairwise_cons.2 ⟨fun c hc => ?_, ih hb.2⟩
        rcases Memory.mem_put hc with rfl | hc
        · show b < a
          omega
        · exact hb.1 c hc

theorem reset_memory_wf (p : Params) : Memory.wf (State.resetOf p).mem := List.Pairwise.nil

/-- A listed cell is what a read finds, in a canonical memory. -/
theorem Memory.find_of_mem {m : Memory} (h : Memory.wf m) {c : Cell} (hc : c ∈ m) : Memory.find c.1 m = some c.2 := by
  induction m with
  | nil => cases hc
  | cons d m ih =>
    obtain ⟨b, y⟩ := d
    have hb := List.pairwise_cons.1 h
    rcases List.mem_cons.1 hc with rfl | hc
    · simp [Memory.find]
    · have : c.1 ≠ b := by
        have := hb.1 c hc
        simp only at this
        omega
      simp [Memory.find, this, ih hb.2 hc]

/-- What a read finds is a listed cell. -/
theorem Memory.mem_of_find {m : Memory} {a : Nat} {x : Symbol} (h : Memory.find a m = some x) : (a, x) ∈ m := by
  induction m with
  | nil => simp [Memory.find] at h
  | cons d m ih =>
    obtain ⟨b, y⟩ := d
    unfold Memory.find at h
    split at h
    · rename_i e
      simp_all
    · exact List.mem_cons_of_mem _ (ih h)

/-- The spaces whose elements the memory holds (10_state.md R36 to R42). -/
theorem elem_array (s : State) {sp : Space} (h : sp.number < 7) (k : Nat) : s.elem sp k = Memory.find (addressOf sp k) s.mem := by
  cases sp <;> first | rfl | simp [Space.number] at h

theorem Space.number_inj {a b : Space} (h : a.number = b.number) : a = b := by
  cases a <;> cases b <;> first | rfl | simp [Space.number] at h

/-- Two locations with 16-bit indices have different addresses (20_memory.md R61). -/
theorem addressOf_inj {a b : Space} {j k : Nat} (hj : j < 65536) (hk : k < 65536) (h : addressOf a j = addressOf b k) :
    a = b ∧ j = k := by
  unfold addressOf at h
  exact ⟨Space.number_inj (by omega), by omega⟩

/-- An element depends on the parameters, the memory and the registers alone, not on a CSR or the model's own fields. -/
theorem elem_congr {s t : State} (hp : t.params = s.params) (hm : t.mem = s.mem) (hv : t.vreg = s.vreg) (hi : t.ireg = s.ireg)
    (sp : Space) (k : Nat) : t.elem sp k = s.elem sp k := by
  cases sp <;> simp only [State.elem, hp, hm, hv, hi]

theorem elem_setElem_same (s : State) {sp : Space} (h : sp.number < 7) (k : Nat) (x : Symbol) :
    (s.setElem sp k x).elem sp k = some x := by
  rw [elem_array _ h, State.setElem_mem, Memory.find_put_same]

theorem elem_setElem_other (s : State) {a b : Space} {j k : Nat} (hj : j < 65536) (hk : k < 65536) (x : Symbol)
    (h : ¬(b = a ∧ k = j)) : (s.setElem a j x).elem b k = s.elem b k := by
  by_cases hb : b.number < 7
  · rw [elem_array _ hb, elem_array _ hb, State.setElem_mem, Memory.find_put_other]
    exact fun e => h (addressOf_inj hk hj e)
  · cases b <;> first | rfl | exact absurd (by decide) hb

theorem setRange_wf (s : State) (sp : Space) (k : Nat) (xs : List Symbol) (h : Memory.wf s.mem) :
    Memory.wf (s.setRange sp k xs).mem := by
  induction xs generalizing s k with
  | nil => exact h
  | cons x xs ih => exact ih _ _ (Memory.put_wf h)

/-- A location outside the written range keeps its element. -/
theorem elem_setRange_other (s : State) {a b : Space} {j k : Nat} (xs : List Symbol) (hj : j + xs.length ≤ 65536)
    (hk : k < 65536) (h : ¬(b = a ∧ j ≤ k ∧ k < j + xs.length)) : (s.setRange a j xs).elem b k = s.elem b k := by
  induction xs generalizing s j with
  | nil => rfl
  | cons x xs ih =>
    simp only [List.length_cons] at hj h
    rw [State.setRange, ih _ (by omega) (fun e => h ⟨e.1, by omega, by omega⟩),
      elem_setElem_other _ (by omega) hk _ (fun e => h ⟨e.1, by omega, by omega⟩)]

/-- The element at offset `i` of the written range. -/
theorem elem_setRange_same (s : State) {a : Space} (ha : a.number < 7) {j : Nat} (xs : List Symbol)
    (hj : j + xs.length ≤ 65536) {i : Nat} (hi : i < xs.length) : (s.setRange a j xs).elem a (j + i) = some xs[i] := by
  induction xs generalizing s j i with
  | nil => cases hi
  | cons x xs ih =>
    simp only [List.length_cons] at hj hi
    rw [State.setRange]
    cases i with
    | zero =>
      rw [elem_setRange_other _ xs (by omega) (by omega) (by omega), Nat.add_zero, elem_setElem_same _ ha]
      rfl
    | succ i =>
      have := ih (s.setElem a j x) (j := j + 1) (i := i) (by omega) (by omega)
      rw [show j + (i + 1) = j + 1 + i by omega, this]
      rfl

/-- The cells after a range write are the old ones and cells of the range. -/
theorem mem_setRange {s : State} {sp : Space} {k : Nat} {xs : List Symbol} {c : Cell} (h : c ∈ (s.setRange sp k xs).mem) :
    c ∈ s.mem ∨ ∃ i, ∃ hi : i < xs.length, c = (addressOf sp (k + i), xs[i]) := by
  induction xs generalizing s k with
  | nil => exact .inl h
  | cons x xs ih =>
    rcases ih (s := s.setElem sp k x) (k := k + 1) h with h | ⟨i, hi, rfl⟩
    · rcases Memory.mem_put h with rfl | h
      · exact .inr ⟨0, by simp, by simp⟩
      · exact .inl h
    · exact .inr ⟨i + 1, by simpa using hi, by simp [show k + 1 + i = k + (i + 1) by omega]⟩

end Sys2Proof.Machine
end

