-- ==== Sys2Proof/Laws/Ops.lean ====
section
/-! SUPPORT. Laws/Ops.lean: for each shared operation, everything it can do. -/

namespace Sys2Proof.Machine

theorem readElem_eq_ok {s : State} {sp : Space} {k : Nat} {x : Symbol} : readElem s sp k = .ok x ↔ s.elem sp k = some x := by
  unfold readElem
  split <;> simp_all

theorem readElem_eq_error {s : State} {sp : Space} {k : Nat} {e : Stop} :
    readElem s sp k = .error e ↔ s.elem sp k = none ∧ e = .refuse (.unspecifiedElement sp k) := by
  unfold readElem
  cases s.elem sp k <;> simp [eq_comm]

@[simp] theorem run_bind_ok {α β : Type} (a : α) (f : α → Run β) : ((.ok a : Run α) >>= f) = f a := rfl

@[simp] theorem run_bind_error {α β : Type} (e : Stop) (f : α → Run β) : ((.error e : Run α) >>= f) = .error e := rfl

/-- A sequence of two computations answers only when both do. -/
theorem run_bind_eq_ok {α β : Type} {x : Run α} {f : α → Run β} {b : β} : (x >>= f) = .ok b ↔ ∃ a, x = .ok a ∧ f a = .ok b := by
  cases x <;> simp

/-- A range read answers exactly the specified elements of the range. -/
theorem readRange_eq_ok {s : State} {sp : Space} {k count : Nat} {xs : List Symbol} :
    readRange s sp k count = .ok xs ↔ xs.length = count ∧ ∀ i (h : i < xs.length), s.elem sp (k + i) = some xs[i] := by
  induction count generalizing k xs with
  | zero =>
    simp only [readRange, Except.ok.injEq]
    constructor
    · rintro rfl; simp
    · rintro ⟨h, -⟩; exact (List.length_eq_zero_iff.1 h).symm
  | succ count ih =>
    simp only [readRange, run_bind_eq_ok, Except.ok.injEq, readElem_eq_ok, ih]
    constructor
    · rintro ⟨x, hx, ys, ⟨hl, hys⟩, rfl⟩
      refine ⟨by simp [hl], fun i h => ?_⟩
      cases i with
      | zero => simpa using hx
      | succ i =>
        have := hys i (by simpa using h)
        simpa [show k + 1 + i = k + (i + 1) by omega] using this
    · rintro ⟨hl, h⟩
      cases xs with
      | nil => simp at hl
      | cons x ys =>
        refine ⟨x, by have := h 0 (by simp); rwa [List.getElem_cons_zero, Nat.add_zero] at this, ys, ⟨by simpa using hl, fun i hi => ?_⟩, rfl⟩
        have := h (i + 1) (by simpa using hi)
        simpa [show k + 1 + i = k + (i + 1) by omega] using this

/-- A range read stops only by refusing an unspecified element of the range. -/
theorem readRange_eq_error {s : State} {sp : Space} {k count : Nat} {e : Stop} (h : readRange s sp k count = .error e) :
    ∃ i, i < count ∧ s.elem sp (k + i) = none ∧ e = .refuse (.unspecifiedElement sp (k + i)) := by
  induction count generalizing k with
  | zero => simp [readRange] at h
  | succ count ih =>
    rw [readRange] at h
    cases hx : readElem s sp k with
    | error e' =>
      rw [hx] at h
      obtain ⟨hn, rfl⟩ := readElem_eq_error.1 hx
      cases h
      exact ⟨0, by omega, by simpa using hn, by simp⟩
    | ok x =>
      rw [hx, run_bind_ok] at h
      cases hr : readRange s sp (k + 1) count with
      | error e' =>
        rw [hr] at h
        cases h
        obtain ⟨i, hi, hn, he⟩ := ih hr
        exact ⟨i + 1, by omega, by rwa [show k + (i + 1) = k + 1 + i by omega], by
          rw [he, show k + 1 + i = k + (i + 1) by omega]⟩
      | ok xs =>
        rw [hr] at h
        cases h

/-- A range with an unspecified element is refused, by an unspecified element of it (10_state.md R47). -/
theorem readRange_refused {s : State} {sp : Space} {k count : Nat} (h : ∃ i, i < count ∧ s.elem sp (k + i) = none) :
    ∃ i, i < count ∧ s.elem sp (k + i) = none ∧
      readRange s sp k count = .error (.refuse (.unspecifiedElement sp (k + i))) := by
  cases hr : readRange s sp k count with
  | ok xs =>
    obtain ⟨i, hi, he⟩ := h
    obtain ⟨hl, hx⟩ := readRange_eq_ok.1 hr
    rw [hx i (by omega)] at he
    cases he
  | error e =>
    obtain ⟨i, hi, hn, rfl⟩ := readRange_eq_error hr
    exact ⟨i, hi, hn, rfl⟩

/-- A range read right after the range was written gives it back. -/
theorem readRange_setRange (s : State) {sp : Space} (h : sp.number < 7) (k : Nat) (xs : List Symbol)
    (hk : k + xs.length ≤ 65536) : readRange (s.setRange sp k xs) sp k xs.length = .ok xs :=
  readRange_eq_ok.2 ⟨rfl, fun _ hi => elem_setRange_same s h xs hk hi⟩

@[simp] theorem immOperand_eq_ok {s : State} {imm : BitVec 16} {x : Symbol} :
    immOperand s imm = .ok x ↔ imm.toNat < s.params.q ∧ x = imm := by
  unfold immOperand
  split <;> simp_all [eq_comm]

@[simp] theorem factorOperand_eq_ok {s : State} {r : IReg} {i : Nat} :
    factorOperand s r = .ok i ↔ s.i r ≠ s.params.n ∧ i = s.i r := by
  unfold factorOperand
  split <;> simp_all [eq_comm]

@[simp] theorem divisorOperand_eq_ok {s : State} {r : VReg} {x : Value} :
    divisorOperand s r = .ok x ↔ s.v r ≠ 0 ∧ x = s.v r := by
  unfold divisorOperand
  split <;> simp_all [eq_comm]

@[simp] theorem memOperand_eq_ok {s : State} {o : Option Space} {idx : BitVec 16} {sp : Space} {k : Nat} :
    memOperand s o idx = .ok (sp, k) ↔ o = some sp ∧ idx.toNat < sp.size s.params ∧ k = idx.toNat := by
  cases o with
  | none => simp [memOperand]
  | some o =>
    simp only [memOperand]
    split <;> simp_all [eq_comm]

/-- A fault does this and nothing else (60_exceptions.md R262). -/
theorem raiseFault_cases (w : Word) (c : Cause) (s : State) :
    (s.faulted = true ∧ raiseFault w c s = s) ∨
    (s.faulted = false ∧ raiseFault w c s = { s with status := faultStatus c, finfo := w }) := by
  unfold raiseFault
  cases h : s.faulted <;> simp

@[simp] theorem raiseFault_of_not_faulted {w : Word} {c : Cause} {s : State} (h : s.faulted = false) :
    raiseFault w c s = { s with status := faultStatus c, finfo := w } := by simp [raiseFault, h]

@[simp] theorem raiseFault_of_faulted {w : Word} {c : Cause} {s : State} (h : s.faulted = true) : raiseFault w c s = s := by
  simp [raiseFault, h]

theorem faultBit_faultStatus (c : Cause) : faultBit (faultStatus c) = true := by cases c <;> decide

theorem ecodeField_faultStatus (c : Cause) : ecodeField (faultStatus c) = causeCode c := by cases c <;> decide

/-- After a fault the unit is in the fault state. -/
theorem raiseFault_faulted (w : Word) (c : Cause) (s : State) : (raiseFault w c s).faulted = true := by
  rcases raiseFault_cases w c s with ⟨h, e⟩ | ⟨h, e⟩ <;> rw [e]
  · exact h
  · exact faultBit_faultStatus c

/-- The end of a command: its writes, its fault over the state it started from, or a refusal. -/
theorem complete_eq_next {i : Instr} {s t : State} {r : Run State} (h : complete i s r = .next t) :
    r = .ok t ∨ ∃ c, r = .error (.raise c) ∧ t = raiseFault (encode i) c s := by
  unfold complete at h
  split at h
  · exact .inl (by cases h; rfl)
  · exact .inr ⟨_, rfl, by cases h; rfl⟩
  · cases h

@[simp] theorem complete_ok (i : Instr) (s t : State) : complete i s (.ok t) = .next t := rfl

@[simp] theorem complete_raise (i : Instr) (s : State) (c : Cause) :
    complete i s (.error (.raise c)) = .next (raiseFault (encode i) c s) := rfl

@[simp] theorem complete_refuse (i : Instr) (s : State) (r : Refusal) : complete i s (.error (.refuse r)) = .refused r := rfl

/-- The spaces of the M-format commands are the ones `Instr.wf` allows (30_encoding.md R97). -/
theorem ldvSpace_isSome (sp : BitVec 4) : (ldvSpace sp).isSome = decide (sp.toNat ∈ ldvSpaceNumbers) := by
  revert sp; decide

theorem stvSpace_isSome (sp : BitVec 4) : (stvSpace sp).isSome = decide (sp.toNat = 0) := by
  revert sp; decide

theorem ldxSpace_isSome (sp : BitVec 4) : (ldxSpace sp).isSome = decide (sp.toNat ∈ ldxSpaceNumbers) := by
  revert sp; decide

theorem stxSpace_isSome (sp : BitVec 4) : (stxSpace sp).isSome = decide (sp.toNat = 1) := by
  revert sp; decide

/-- A space number and its space (20_memory.md R60). -/
theorem spaceOf_eq_some {n : Nat} {sp : Space} : spaceOf n = some sp ↔ n = sp.number := by
  constructor
  · intro h
    unfold spaceOf at h
    split at h <;> cases h <;> rfl
  · rintro rfl
    cases sp <;> rfl

end Sys2Proof.Machine
end

