-- ==== Sys2Proof/Laws/Codec.lean ====
section
/-! SUPPORT. Laws/Codec.lean: for each codec stage, everything it does when it answers, and the faults it can raise. -/

namespace Sys2Proof.Machine

/-- ENCODE's next state: its writes over the specified message; it raises no fault (43_encoder.md R181). -/
theorem execEncode_eq_next {s t : State} (h : execEncode s = .next t) :
    ∃ msg, readRange s .code 0 s.params.k = .ok msg ∧ t = s.setRange .code s.params.k (parity s.params msg) := by
  unfold execEncode at h
  cases hr : readRange s .code 0 s.params.k with
  | error e =>
    obtain ⟨i, -, -, rfl⟩ := readRange_eq_error hr
    rw [hr] at h
    cases h
  | ok msg =>
    rw [hr] at h
    cases h
    exact ⟨msg, rfl, rfl⟩

/-- The syndromes are those of a specified CODE. -/
theorem readSyndromes_eq_ok {s : State} {syn : List Value} :
    readSyndromes s = .ok syn ↔ ∃ code, readRange s .code 0 s.params.n = .ok code ∧ syn = syndromes s.params code := by
  rw [readSyndromes, run_bind_eq_ok]
  simp only [Except.ok.injEq, eq_comm (a := syn)]

@[simp] theorem syndromes_length (p : Params) (code : List Value) : (syndromes p code).length = p.nr := by
  simp [syndromes]

/-- SYND's next state (44_syndrome.md R191). -/
theorem execSynd_eq_next {s t : State} (h : execSynd s = .next t) :
    ∃ syn, readSyndromes s = .ok syn ∧ t = (s.setRange .syn 0 syn).setResult (countWord syn) := by
  unfold execSynd at h
  cases hr : readSyndromes s with
  | error e =>
    rw [readSyndromes] at hr
    cases hc : readRange s .code 0 s.params.n with
    | error e' =>
      obtain ⟨i, -, -, rfl⟩ := readRange_eq_error hc
      rw [hc] at hr
      cases hr
      rw [readSyndromes, hc] at h
      cases h
    | ok code => rw [hc] at hr; cases hr
  | ok syn =>
    rw [hr] at h
    cases h
    exact ⟨syn, rfl, rfl⟩

/-- The erasures are specified and none is the sentinel. -/
theorem readErasures_eq_ok {s : State} {k count : Nat} {es : List Nat} (h : readErasures s k count = .ok es) :
    ∃ xs, readRange s .eras k count = .ok xs ∧ es = xs.map BitVec.toNat ∧ ∀ e ∈ es, e ≠ s.params.n := by
  induction count generalizing k es with
  | zero => cases h; exact ⟨[], rfl, rfl, by simp⟩
  | succ count ih =>
    rw [readErasures, run_bind_eq_ok] at h
    obtain ⟨x, hx, h⟩ := h
    split at h
    · cases h
    · rename_i hne
      obtain ⟨es', he, h⟩ := run_bind_eq_ok.1 h
      cases h
      obtain ⟨xs, hxs, rfl, hall⟩ := ih he
      exact ⟨x :: xs, by rw [readRange, hx, run_bind_ok, hxs, run_bind_ok], rfl, by
        intro e hm
        rcases List.mem_cons.1 hm with rfl | hm
        · exact hne
        · exact hall e hm⟩

/-- The erasure check loop faults only with E_SENTINEL (45_eseed_bm.md R201). -/
theorem readErasures_eq_raise {s : State} {k count : Nat} {c : Cause} (h : readErasures s k count = .error (.raise c)) :
    c = .sentinel := by
  induction count generalizing k with
  | zero => cases h
  | succ count ih =>
    rw [readErasures] at h
    cases hx : readElem s .eras k with
    | error e =>
      obtain ⟨-, rfl⟩ := readElem_eq_error.1 hx
      rw [hx] at h
      cases h
    | ok x =>
      rw [hx, run_bind_ok] at h
      split at h
      · cases h; rfl
      · cases he : readErasures s (k + 1) count with
        | error e => rw [he] at h; cases h; exact ih he
        | ok es => rw [he] at h; cases h

/-- The first erasure entry N behind specified ones is E_SENTINEL (45_eseed_bm.md R201). -/
theorem readErasures_sentinel {s : State} {a count k : Nat} (hk : k < count)
    (hn : ∃ x, s.elem .eras (a + k) = some x ∧ x.toNat = s.params.n)
    (hs : ∀ j, j < k → ∃ x, s.elem .eras (a + j) = some x) : readErasures s a count = .error (.raise .sentinel) := by
  induction count generalizing a k with
  | zero => omega
  | succ count ih =>
    rw [readErasures]
    cases k with
    | zero =>
      obtain ⟨x, hx, hxn⟩ := hn
      rw [Nat.add_zero] at hx
      simp [readElem, hx, hxn]
    | succ k =>
      obtain ⟨x, hx⟩ := hs 0 (by omega)
      rw [Nat.add_zero] at hx
      have := ih (a := a + 1) (k := k) (by omega) (by rwa [show a + 1 + k = a + (k + 1) by omega])
        (fun j hj => by rw [show a + 1 + j = a + (j + 1) by omega]; exact hs _ (by omega))
      simp [readElem, hx, this]

/-- An unspecified erasure entry with no N before it is refused (10_state.md R47). -/
theorem readErasures_refused {s : State} {a count k : Nat} (hk : k < count) (hn : s.elem .eras (a + k) = none)
    (hs : ∀ j x, j < k → s.elem .eras (a + j) = some x → x.toNat ≠ s.params.n) :
    ∃ j, j ≤ k ∧ s.elem .eras (a + j) = none ∧
      readErasures s a count = .error (.refuse (.unspecifiedElement .eras (a + j))) := by
  induction count generalizing a k with
  | zero => omega
  | succ count ih =>
    rw [readErasures]
    cases h0 : s.elem .eras a with
    | none => exact ⟨0, by omega, by simpa using h0, by simp [readElem, h0]⟩
    | some x =>
      cases k with
      | zero => simp [h0] at hn
      | succ k =>
        have hx := hs 0 x (by omega) (by simpa using h0)
        obtain ⟨j, hj, hjn, hr⟩ := ih (a := a + 1) (k := k) (by omega) (by rwa [show a + 1 + k = a + (k + 1) by omega])
          (fun j x hj h => hs (j + 1) x (by omega) (by rwa [show a + (j + 1) = a + 1 + j by omega]))
        exact ⟨j + 1, by omega, by rwa [show a + (j + 1) = a + 1 + j by omega],
          by simp [readElem, h0, hx, hr, show a + (j + 1) = a + 1 + j by omega]⟩

/-- The erasures depend on the entries read alone: writing SYN leaves them. -/
theorem readErasures_congr {s t : State} {a count : Nat} (hp : t.params = s.params)
    (he : ∀ j, j < a + count → t.elem .eras j = s.elem .eras j) : readErasures t a count = readErasures s a count := by
  induction count generalizing a with
  | zero => rfl
  | succ count ih =>
    rw [readErasures, readErasures, ih (fun j hj => he j (by omega)), hp]
    simp only [readElem, he a (by omega)]

/-- The ESEED stage (45_eseed_bm.md R201). -/
theorem eseedStage_eq_ok {s t : State} (h : eseedStage s = .ok t) :
    s.ecnt.toNat ≤ s.params.nr ∧ ∃ es, readErasures s 0 s.ecnt.toNat = .ok es ∧
      t = s.setRange .lambda 0 (seedLocator s.params es) := by
  unfold eseedStage at h
  split at h
  · cases h
  · obtain ⟨es, he, h⟩ := run_bind_eq_ok.1 h
    cases h
    exact ⟨by omega, es, he, rfl⟩

/-- The BM stage (45_eseed_bm.md R205). -/
theorem bmStage_eq_ok {s t : State} (h : bmStage s = .ok t) :
    s.ecnt.toNat ≤ s.params.nr ∧ ∃ lam syn, readRange s .lambda 0 (s.params.nr + 1) = .ok lam ∧
      readSynForBm s s.ecnt.toNat = .ok syn ∧
      t = { s.setRange .lambda 0 (berlekampMassey s.params syn lam s.ecnt.toNat).lam with
        lreg := BitVec.ofNat 16 (berlekampMassey s.params syn lam s.ecnt.toNat).len } := by
  unfold bmStage at h
  split at h
  · cases h
  · obtain ⟨lam, hl, h⟩ := run_bind_eq_ok.1 h
    obtain ⟨syn, hs, h⟩ := run_bind_eq_ok.1 h
    cases h
    exact ⟨by omega, lam, syn, hl, hs, rfl⟩

/-- The ROOTS stage (46_rootfinder.md R220). -/
theorem rootsStage_eq_ok {s t : State} (h : rootsStage s = .ok t) :
    ∃ lam, readRange s .lambda 0 (s.params.nr + 1) = .ok lam ∧
      t = { s.setRange .loc 0 ((findRoots s.params lam (trimmedDegree lam s.params.nr)).map toIndex) with
        deg := BitVec.ofNat 16 (trimmedDegree lam s.params.nr),
        nroots := BitVec.ofNat 16 (findRoots s.params lam (trimmedDegree lam s.params.nr)).length } := by
  obtain ⟨lam, hl, h⟩ := run_bind_eq_ok.1 h
  cases h
  exact ⟨lam, hl, rfl⟩

/-- ROOTS raises no fault (46_rootfinder.md R220). -/
theorem execRoots_eq_next {s t : State} (h : execRoots s = .next t) : rootsStage s = .ok t := by
  unfold execRoots at h
  rcases complete_eq_next h with h | ⟨c, h, -⟩
  · exact h
  · rw [rootsStage] at h
    cases hr : readRange s .lambda 0 (s.params.nr + 1) with
    | error e =>
      obtain ⟨i, -, -, rfl⟩ := readRange_eq_error hr
      rw [hr] at h
      cases h
    | ok lam => rw [hr] at h; cases h

@[simp] theorem evaluator_length (p : Params) (lam syn : List Value) : (evaluator p lam syn).length = p.nr := by
  simp [evaluator]

/-- The scan down for the degree stops at the first nonzero coefficient (46_rootfinder.md R220). -/
theorem trimmedDegree_spec (lam : List Value) (d : Nat) :
    trimmedDegree lam d ≤ d ∧ (trimmedDegree lam d ≠ 0 → lam.getD (trimmedDegree lam d) 0 ≠ 0) ∧
      ∀ k, trimmedDegree lam d < k → k ≤ d → lam.getD k 0 = 0 := by
  induction d with
  | zero => exact ⟨Nat.le_refl _, fun h => absurd rfl h, fun k h1 h2 => absurd h1 (by simp only [trimmedDegree]; omega)⟩
  | succ d ih =>
    unfold trimmedDegree
    split
    · rename_i hz
      refine ⟨by omega, ih.2.1, fun k h1 h2 => ?_⟩
      rcases Nat.lt_or_ge d k with h | h
      · rwa [show k = d + 1 by omega]
      · exact ih.2.2 k h1 h
    · rename_i hne
      exact ⟨Nat.le_refl _, fun _ => hne, fun k h1 h2 => by omega⟩

/-- A magnitude is refused or raised for one reason only: Λ′ vanishes (47_forney.md R241). -/
theorem magnitude_eq_error {p : Params} {om lam : List Value} {l : Nat} {e : Stop} :
    magnitude p om lam l = .error e ↔ derivativeAt p lam (rootOfPosition p l) = 0 ∧ e = .raise .divZero := by
  unfold magnitude
  by_cases hd : derivativeAt p lam (rootOfPosition p l) = 0
  · simp [hd, eq_comm]
  · simp only [hd, if_false, false_and, iff_false]
    split <;> simp

/-- The magnitudes answer exactly when Λ′ vanishes at no recorded root. -/
theorem magnitudes_isOk {p : Params} {om lam : List Value} {ls : List Nat}
    (h : ∀ l ∈ ls, derivativeAt p lam (rootOfPosition p l) ≠ 0) :
    ∃ ms, magnitudes p om lam ls = .ok ms ∧ ms.length = ls.length := by
  induction ls with
  | nil => exact ⟨[], rfl, rfl⟩
  | cons l ls ih =>
    obtain ⟨ms, hm, hl⟩ := ih fun x hx => h x (List.mem_cons_of_mem _ hx)
    cases he : magnitude p om lam l with
    | error e => exact absurd (magnitude_eq_error.1 he).1 (h l List.mem_cons_self)
    | ok m => exact ⟨m :: ms, by rw [magnitudes, he, run_bind_ok, hm, run_bind_ok], by simp [hl]⟩

/-- The corrections change CODE only, at the recorded locations (47_forney.md R241). -/
theorem applyMagnitudes_frame {s t : State} {xs : List (Nat × Value)} (h : applyMagnitudes s xs = .ok t)
    (hx : ∀ x ∈ xs, x.1 < 65536) :
    { t with mem := s.mem } = s ∧
      ∀ b k, k < 65536 → ¬(b = .code ∧ k ∈ xs.map Prod.fst) → t.elem b k = s.elem b k := by
  induction xs generalizing s with
  | nil => cases h; exact ⟨rfl, fun _ _ _ _ => rfl⟩
  | cons x xs ih =>
    rw [applyMagnitudes, run_bind_eq_ok] at h
    obtain ⟨c, -, h⟩ := h
    obtain ⟨h1, h2⟩ := ih h fun y hy => hx y (List.mem_cons_of_mem _ hy)
    refine ⟨?_, fun b k hk hn => ?_⟩
    · have := congrArg (fun u : State => { u with mem := s.mem }) h1
      exact this
    · rw [h2 b k hk fun e => hn ⟨e.1, List.mem_cons_of_mem _ e.2⟩]
      exact elem_setElem_other _ (hx x List.mem_cons_self) hk _ fun e => hn ⟨e.1, by simp [e.2]⟩

/-- The FORNEY stage (47_forney.md R241). -/
theorem forneyStage_eq_ok {s t : State} (h : forneyStage s = .ok t) :
    ∃ syn lam locs mags u, readRange s .syn 0 s.params.nr = .ok syn ∧ readRange s .lambda 0 (s.params.nr + 1) = .ok lam ∧
      readRange s .loc 0 s.nroots.toNat = .ok locs ∧
      magnitudes s.params (evaluator s.params lam syn) lam (locs.map BitVec.toNat) = .ok mags ∧
      applyMagnitudes ((s.setRange .omega 0 (evaluator s.params lam syn)).setRange .mag 0 mags)
        ((locs.map BitVec.toNat).zip mags) = .ok u ∧ t = u.setResult (countWord mags) := by
  obtain ⟨syn, hs, h⟩ := run_bind_eq_ok.1 h
  obtain ⟨lam, hl, h⟩ := run_bind_eq_ok.1 h
  obtain ⟨locs, hc, h⟩ := run_bind_eq_ok.1 h
  obtain ⟨mags, hm, h⟩ := run_bind_eq_ok.1 h
  obtain ⟨u, hu, h⟩ := run_bind_eq_ok.1 h
  cases h
  exact ⟨syn, lam, locs, mags, u, hs, hl, hc, hm, hu, rfl⟩

/-- A stage of DECODE either answers and the rest goes on, or its fault is latched over the state it ran on. -/
theorem decodeStage_eq_next {stage : State → Run State} {s t : State} {rest : State → Host.Outcome State Fault Refusal}
    (h : decodeStage stage s rest = .next t) :
    (∃ u, stage s = .ok u ∧ rest u = .next t) ∨ ∃ c, stage s = .error (.raise c) ∧ t = raiseFault (encode .decode) c s := by
  unfold decodeStage at h
  split at h
  · exact .inl ⟨_, ‹_›, h⟩
  · rename_i e he
    rcases complete_eq_next h with h | ⟨c, h, ht⟩
    · cases h
    · exact .inr ⟨c, by rw [he, h], ht⟩

end Sys2Proof.Machine
end

