-- ==== Sys2Proof/Laws/Encoding.lean ====
section
/-! SUPPORT. Laws/Encoding.lean: the bits of a packed command word (30_encoding.md R90 to R94). -/

namespace Sys2Proof

theorem getLsbD_place {n : Nat} (x : BitVec n) (lo i : Nat) :
    (place x lo).getLsbD i = (decide (lo ≤ i) && decide (i < 32) && x.getLsbD (i - lo)) := by
  simp only [place, BitVec.getLsbD_shiftLeft, BitVec.getLsbD_setWidth]
  grind

@[simp] theorem toFin_regBits (r : Fin 8) : (regBits r).toFin = r := rfl

theorem opField_packZ (op : BitVec 6) : opField (packZ op) = op := by
  ext i hi
  simp only [opField, packZ, BitVec.getElem_extractLsb', getLsbD_place]
  grind

theorem opField_packR (op : BitVec 6) (d a b c : Fin 8) : opField (packR op d a b c) = op := by
  ext i hi
  simp only [opField, packR, BitVec.getElem_extractLsb', BitVec.getLsbD_or, getLsbD_place]
  grind

theorem opField_packI (op : BitVec 6) (d : Fin 8) (imm : BitVec 16) : opField (packI op d imm) = op := by
  ext i hi
  simp only [opField, packI, BitVec.getElem_extractLsb', BitVec.getLsbD_or, getLsbD_place]
  grind

theorem opField_packM (op : BitVec 6) (r : Fin 8) (sp : BitVec 4) (idx : BitVec 16) : opField (packM op r sp idx) = op := by
  ext i hi
  simp only [opField, packM, BitVec.getElem_extractLsb', BitVec.getLsbD_or, getLsbD_place]
  grind

end Sys2Proof
end

