-- ==== Sys2Proof/Laws/PerInstr.lean ====
section
/-! SUPPORT. Laws/PerInstr.lean: statements proved constructor by constructor. -/

/-- The family OpcodeBits: bits 31:26 of a command's word are its opcode (30_encoding.md R90, R96). -/
def Sys2Proof.Laws.OpcodeBits.Statement (i : Sys2Proof.Instr) : Prop := Sys2Proof.opField (Sys2Proof.encode i) = Sys2Proof.opcode i

theorem Sys2Proof.Laws.OpcodeBits.nop : Sys2Proof.Laws.OpcodeBits.Statement .nop :=
  Sys2Proof.opField_packZ _
theorem Sys2Proof.Laws.OpcodeBits.ldiv (d : Fin 8) (imm : BitVec 16) : Sys2Proof.Laws.OpcodeBits.Statement (.ldiv d imm) :=
  Sys2Proof.opField_packI _ _ _
theorem Sys2Proof.Laws.OpcodeBits.ldii (d : Fin 8) (imm : BitVec 16) : Sys2Proof.Laws.OpcodeBits.Statement (.ldii d imm) :=
  Sys2Proof.opField_packI _ _ _
theorem Sys2Proof.Laws.OpcodeBits.ldv (r : Fin 8) (sp : BitVec 4) (idx : BitVec 16) : Sys2Proof.Laws.OpcodeBits.Statement (.ldv r sp idx) :=
  Sys2Proof.opField_packM _ _ _ _
theorem Sys2Proof.Laws.OpcodeBits.stv (r : Fin 8) (sp : BitVec 4) (idx : BitVec 16) : Sys2Proof.Laws.OpcodeBits.Statement (.stv r sp idx) :=
  Sys2Proof.opField_packM _ _ _ _
theorem Sys2Proof.Laws.OpcodeBits.ldx (r : Fin 8) (sp : BitVec 4) (idx : BitVec 16) : Sys2Proof.Laws.OpcodeBits.Statement (.ldx r sp idx) :=
  Sys2Proof.opField_packM _ _ _ _
theorem Sys2Proof.Laws.OpcodeBits.stx (r : Fin 8) (sp : BitVec 4) (idx : BitVec 16) : Sys2Proof.Laws.OpcodeBits.Statement (.stx r sp idx) :=
  Sys2Proof.opField_packM _ _ _ _
theorem Sys2Proof.Laws.OpcodeBits.log (d : Fin 8) (a : Fin 8) : Sys2Proof.Laws.OpcodeBits.Statement (.log d a) :=
  Sys2Proof.opField_packR _ _ _ _ _
theorem Sys2Proof.Laws.OpcodeBits.exp (d : Fin 8) (a : Fin 8) : Sys2Proof.Laws.OpcodeBits.Statement (.exp d a) :=
  Sys2Proof.opField_packR _ _ _ _ _
theorem Sys2Proof.Laws.OpcodeBits.fadd (d : Fin 8) (a : Fin 8) (b : Fin 8) : Sys2Proof.Laws.OpcodeBits.Statement (.fadd d a b) :=
  Sys2Proof.opField_packR _ _ _ _ _
theorem Sys2Proof.Laws.OpcodeBits.imul (d : Fin 8) (a : Fin 8) (b : Fin 8) : Sys2Proof.Laws.OpcodeBits.Statement (.imul d a b) :=
  Sys2Proof.opField_packR _ _ _ _ _
theorem Sys2Proof.Laws.OpcodeBits.idiv (d : Fin 8) (a : Fin 8) (b : Fin 8) : Sys2Proof.Laws.OpcodeBits.Statement (.idiv d a b) :=
  Sys2Proof.opField_packR _ _ _ _ _
theorem Sys2Proof.Laws.OpcodeBits.vmul (d : Fin 8) (a : Fin 8) (b : Fin 8) : Sys2Proof.Laws.OpcodeBits.Statement (.vmul d a b) :=
  Sys2Proof.opField_packR _ _ _ _ _
theorem Sys2Proof.Laws.OpcodeBits.vdiv (d : Fin 8) (a : Fin 8) (b : Fin 8) : Sys2Proof.Laws.OpcodeBits.Statement (.vdiv d a b) :=
  Sys2Proof.opField_packR _ _ _ _ _
theorem Sys2Proof.Laws.OpcodeBits.vrcp (d : Fin 8) (a : Fin 8) : Sys2Proof.Laws.OpcodeBits.Statement (.vrcp d a) :=
  Sys2Proof.opField_packR _ _ _ _ _
theorem Sys2Proof.Laws.OpcodeBits.fmavv (d : Fin 8) (a : Fin 8) (b : Fin 8) (c : Fin 8) : Sys2Proof.Laws.OpcodeBits.Statement (.fmavv d a b c) :=
  Sys2Proof.opField_packR _ _ _ _ _
theorem Sys2Proof.Laws.OpcodeBits.fmaiv (d : Fin 8) (a : Fin 8) (b : Fin 8) (c : Fin 8) : Sys2Proof.Laws.OpcodeBits.Statement (.fmaiv d a b c) :=
  Sys2Proof.opField_packR _ _ _ _ _
theorem Sys2Proof.Laws.OpcodeBits.fmaii (d : Fin 8) (a : Fin 8) (b : Fin 8) (c : Fin 8) : Sys2Proof.Laws.OpcodeBits.Statement (.fmaii d a b c) :=
  Sys2Proof.opField_packR _ _ _ _ _
theorem Sys2Proof.Laws.OpcodeBits.asim (d : Fin 8) (a : Fin 8) : Sys2Proof.Laws.OpcodeBits.Statement (.asim d a) :=
  Sys2Proof.opField_packR _ _ _ _ _
theorem Sys2Proof.Laws.OpcodeBits.encode : Sys2Proof.Laws.OpcodeBits.Statement .encode :=
  Sys2Proof.opField_packZ _
theorem Sys2Proof.Laws.OpcodeBits.synd : Sys2Proof.Laws.OpcodeBits.Statement .synd :=
  Sys2Proof.opField_packZ _
theorem Sys2Proof.Laws.OpcodeBits.eseed : Sys2Proof.Laws.OpcodeBits.Statement .eseed :=
  Sys2Proof.opField_packZ _
theorem Sys2Proof.Laws.OpcodeBits.bm : Sys2Proof.Laws.OpcodeBits.Statement .bm :=
  Sys2Proof.opField_packZ _
theorem Sys2Proof.Laws.OpcodeBits.roots : Sys2Proof.Laws.OpcodeBits.Statement .roots :=
  Sys2Proof.opField_packZ _
theorem Sys2Proof.Laws.OpcodeBits.forney : Sys2Proof.Laws.OpcodeBits.Statement .forney :=
  Sys2Proof.opField_packZ _
theorem Sys2Proof.Laws.OpcodeBits.decode : Sys2Proof.Laws.OpcodeBits.Statement .decode :=
  Sys2Proof.opField_packZ _
end

