-- ==== Sys2Proof/Laws/Port.lean ====
section
/-! SUPPORT. Laws/Port.lean: what the host port and a step can do. -/

namespace Sys2Proof.Machine

@[simp] theorem locate_cmdAddr (p : Params) : locate p cmdAddr = some (.csr .cmd) := rfl

/-- A location the port names lies inside its space (20_memory.md R60, R61). -/
theorem locate_elem {p : Params} {addr : HostAddr} {sp : Space} {k : Nat} (h : locate p addr = some (.elem sp k)) :
    sp ≠ .csr ∧ k < sp.size p ∧ sp.number = (spaceField addr).toNat ∧ k = (indexField addr).toNat := by
  unfold locate at h
  simp only at h
  split at h
  · cases h
  · cases hc : csrOf (indexField addr).toNat <;> simp [hc] at h
  · rename_i sp' hne hs
    split at h
    · cases h
      exact ⟨fun e => hne (by rw [e]), ‹_›, (spaceOf_eq_some.1 hs).symm, rfl⟩
    · cases h

/-- A host read returns data and changes no state, apart from a bus fault (20_memory.md R62). -/
theorem hostRead_eq_next {addr : HostAddr} {s t : State} (h : hostRead addr s = .next t) :
    (∃ data, t = returnData s data) ∨ locate s.params addr = none ∧ t = returnData (busFault addr s) 0 := by
  unfold hostRead at h
  split at h
  · cases h; exact .inr ⟨‹_›, rfl⟩
  · cases h; exact .inl ⟨_, rfl⟩
  · split at h <;> cases h
    exact .inl ⟨_, rfl⟩

/-- A host write in the fault state is ignored (20_memory.md R65). -/
theorem hostWrite_of_faulted {addr : HostAddr} {data : Word} {s : State} (h : s.faulted = true) :
    hostWrite addr data s = .next s := by simp [hostWrite, h]

/-- A host write with FAULT = 0 runs a command, writes one location, or is a bus fault (20_memory.md R63, R64). -/
theorem hostWrite_eq_next {addr : HostAddr} {data : Word} {s t : State} (hf : s.faulted = false)
    (h : hostWrite addr data s = .next t) :
    (locate s.params addr = some (.csr .cmd) ∧ runCommand data s = .next t) ∨
    (∃ l, locate s.params addr = some l ∧ l ≠ .csr .cmd ∧ writeLocation s data l = some t) ∨ t = busFault addr s := by
  unfold hostWrite at h
  rw [hf] at h
  simp only [Bool.false_eq_true, if_false] at h
  split at h
  · exact .inl ⟨‹_›, h⟩
  · rename_i l hl hne
    split at h <;> cases h
    · exact .inr (.inl ⟨_, hne, fun e => hl e, ‹_›⟩)
    · exact .inr (.inr rfl)
  · cases h; exact .inr (.inr rfl)

/-- A command word executes what it decodes to, or is E_ILLEGAL (10_state.md R27, 30_encoding.md R97). -/
theorem runCommand_cases (w : Word) (s : State) :
    (∃ i, decode w = .ok i ∧ runCommand w s = exec i s) ∨
    (∃ r, decode w = .error r ∧ runCommand w s = .next (raiseFault w .illegal s)) := by
  unfold runCommand
  cases decode w with
  | ok i => exact .inl ⟨i, rfl, rfl⟩
  | error r => exact .inr ⟨r, rfl, rfl⟩

/-- Everything a step can do: idle, reset, a read, a write. -/
theorem step_cases (s : State) :
    (s.host = [] ∧ step s = .next s) ∨
    ∃ rest,
      (s.host = .reset :: rest ∧ step s = .next (resetUnit { s with host := rest })) ∨
      (∃ addr, s.host = .read addr :: rest ∧ step s = hostRead addr { s with host := rest }) ∨
      (∃ addr data, s.host = .write addr data :: rest ∧ step s = hostWrite addr data { s with host := rest }) := by
  unfold step takeEvent
  cases h : s.host with
  | nil => exact .inl ⟨rfl, rfl⟩
  | cons e rest =>
    refine .inr ⟨rest, ?_⟩
    cases e with
    | reset => exact .inl ⟨rfl, rfl⟩
    | read addr => exact .inr (.inl ⟨addr, rfl, rfl⟩)
    | write addr data => exact .inr (.inr ⟨addr, data, rfl, rfl⟩)

end Sys2Proof.Machine
end

