-- ==== Sys2Proof/Laws/Tables.lean ====
section
/-! SUPPORT. Laws/Tables.lean: what a legal parameter tuple gives, and the small lemmas of the builder walk
(00_scope.md R6, 41_tables_and_generator.md R142). -/

namespace Sys2Proof

/-- The seven conditions of a legal tuple. -/
theorem Params.valid_iff {p : Params} : p.valid = true ↔
    2 ≤ p.m ∧ p.m ≤ 16 ∧ p.poly >>> p.m = 1 ∧ 1 ≤ p.nr ∧ p.nr ≤ p.n - 1 ∧ p.fcr ≤ p.n - 1 ∧
      Machine.walkAccepts p p.n 1 [] = true := by
  simp only [Params.valid, Bool.and_eq_true, decide_eq_true_eq]
  tauto

theorem Params.q_pos (p : Params) : 0 < p.q := Nat.two_pow_pos _

theorem Params.n_lt_q (p : Params) : p.n < p.q := by
  have := p.q_pos
  unfold Params.n
  omega

/-- The sizes of a legal unit: everything that indexes an array fits into 16 bits. -/
theorem Params.bounds {p : Params} (h : p.valid = true) :
    4 ≤ p.q ∧ p.q ≤ 65536 ∧ 3 ≤ p.n ∧ p.n ≤ 65535 ∧ 1 ≤ p.nr ∧ p.nr < p.n ∧ p.fcr < p.n ∧ p.k + p.nr = p.n := by
  obtain ⟨h2, h16, -, hnr, hnr', hf, -⟩ := Params.valid_iff.1 h
  have hq : p.q ≤ 65536 := Nat.pow_le_pow_right (n := 2) (by omega) h16
  have hq' : 4 ≤ p.q := Nat.pow_le_pow_right (n := 2) (by omega) h2
  have hn : p.n = p.q - 1 := rfl
  have hk : p.k = p.n - p.nr := rfl
  omega

end Sys2Proof

namespace Sys2Proof.Machine

theorem alphaPow_succ (p : Params) (i : Nat) : alphaPow p (i + 1) = walkStep p (alphaPow p i) := rfl

/-- The builder's test, from the value after `i` steps: the walk ends at 1, and its values differ from 0, from one another
and from those seen. -/
theorem walkAccepts_iff {p : Params} {fuel i : Nat} {seen : List Nat} :
    walkAccepts p fuel (alphaPow p i) seen = true ↔
      alphaPow p (i + fuel) = 1 ∧
      (∀ j, j < fuel → alphaPow p (i + j) ≠ 0 ∧ alphaPow p (i + j) ∉ seen) ∧
      ∀ j k, j < k → k < fuel → alphaPow p (i + j) ≠ alphaPow p (i + k) := by
  induction fuel generalizing i seen with
  | zero => simp [walkAccepts]
  | succ fuel ih =>
    rw [walkAccepts, ← alphaPow_succ]
    simp only [Bool.and_eq_true, decide_eq_true_eq, Bool.not_eq_true', List.contains_eq_mem, decide_eq_false_iff_not, ih,
      List.mem_cons, not_or]
    constructor
    · rintro ⟨⟨h0, hs⟩, h1, hn, hd⟩
      refine ⟨by rw [← h1]; congr 1; omega, fun j hj => ?_, fun j k hjk hk => ?_⟩
      · cases j with
        | zero => exact ⟨h0, hs⟩
        | succ j =>
          have := hn j (by omega)
          rw [show i + 1 + j = i + (j + 1) by omega] at this
          exact ⟨this.1, this.2.2⟩
      · obtain ⟨k, rfl⟩ : ∃ k', k = k' + 1 := ⟨k - 1, by omega⟩
        have hk' := hn k (by omega)
        rw [show i + 1 + k = i + (k + 1) by omega] at hk'
        cases j with
        | zero => exact fun e => hk'.2.1 e.symm
        | succ j =>
          have := hd j k (by omega) (by omega)
          rwa [show i + 1 + j = i + (j + 1) by omega, show i + 1 + k = i + (k + 1) by omega] at this
    · rintro ⟨h1, hn, hd⟩
      refine ⟨⟨(hn 0 (by omega)).1, (hn 0 (by omega)).2⟩, by rw [← h1]; congr 1; omega, fun j hj => ?_, fun j k hjk hk => ?_⟩
      · have := hn (j + 1) (by omega)
        have h2 := hd 0 (j + 1) (by omega) (by omega)
        rw [show i + 1 + j = i + (j + 1) by omega]
        exact ⟨this.1, fun e => h2 e.symm, this.2⟩
      · have := hd (j + 1) (k + 1) (by omega) (by omega)
        rwa [show i + 1 + j = i + (j + 1) by omega, show i + 1 + k = i + (k + 1) by omega]

/-- The test the walk subtracts POLY on: bit M − 1. -/
theorem walkStep_eq {p : Params} (hm : 1 ≤ p.m) (a : Nat) :
    walkStep p a = if a.testBit (p.m - 1) then (a <<< 1) ^^^ p.poly else a <<< 1 := by
  unfold walkStep
  have hq : p.q >>> 1 = 2 ^ (p.m - 1) := by
    rw [Params.q, Nat.shiftRight_eq_div_pow, Nat.pow_div (by omega) (by omega)]
  rw [hq, Nat.and_two_pow]
  cases a.testBit (p.m - 1) <;> simp

/-- Multiplication by x is additive: the reason why the tables give a field. -/
theorem walkStep_xor {p : Params} (hm : 1 ≤ p.m) (a b : Nat) : walkStep p (a ^^^ b) = walkStep p a ^^^ walkStep p b := by
  rw [walkStep_eq hm, walkStep_eq hm, walkStep_eq hm, Nat.testBit_xor, Nat.shiftLeft_xor_distrib]
  cases a.testBit (p.m - 1) <;> cases b.testBit (p.m - 1) <;> simp [Nat.xor_comm, Nat.xor_left_comm]

@[simp] theorem walkStep_zero (p : Params) : walkStep p 0 = 0 := by simp [walkStep]

@[simp] theorem logt_zero (p : Params) : logt p 0 = p.n := by simp [logt]

@[simp] theorem expt_sentinel (p : Params) : expt p p.n = 0 := by simp [expt]

/-- The search either finds the first step at which the walk meets `v`, or answers N. -/
theorem logSearch_cases (p : Params) (v fuel i : Nat) :
    (∃ j, j < fuel ∧ alphaPow p (i + j) = v ∧ (∀ k, k < j → alphaPow p (i + k) ≠ v) ∧
      logSearch p v fuel i (alphaPow p i) = i + j) ∨
    ((∀ k, k < fuel → alphaPow p (i + k) ≠ v) ∧ logSearch p v fuel i (alphaPow p i) = p.n) := by
  induction fuel generalizing i with
  | zero => exact .inr ⟨by omega, rfl⟩
  | succ fuel ih =>
    rw [logSearch, ← alphaPow_succ]
    split
    · exact .inl ⟨0, by omega, by simpa using ‹_›, by omega, rfl⟩
    · rename_i hne
      rcases ih (i + 1) with ⟨j, hj, hv, hk, he⟩ | ⟨hk, he⟩
      · refine .inl ⟨j + 1, by omega, by rw [← hv]; congr 1; omega, fun k hkj => ?_, by rw [he]; omega⟩
        cases k with
        | zero => exact hne
        | succ k =>
          have := hk k (by omega)
          rwa [show i + 1 + k = i + (k + 1) by omega] at this
      · refine .inr ⟨fun k hkf => ?_, he⟩
        cases k with
        | zero => exact hne
        | succ k =>
          have := hk k (by omega)
          rwa [show i + 1 + k = i + (k + 1) by omega] at this

/-- A logarithm is an index in [0, N]. -/
theorem logt_le (p : Params) (v : Value) : logt p v ≤ p.n := by
  unfold logt
  split
  · exact Nat.le_refl _
  · rcases logSearch_cases p v.toNat p.n 0 with ⟨j, hj, -, -, he⟩ | ⟨-, he⟩
    · change logSearch p v.toNat p.n 0 (alphaPow p 0) ≤ p.n
      omega
    · change logSearch p v.toNat p.n 0 (alphaPow p 0) ≤ p.n
      omega

end Sys2Proof.Machine
end

