-- ==== Sys2Proof/Machine/Asm.lean ====
section
/-! DEFINITION. Machine/Asm.lean: the assembler syntax of 30_encoding.md R99: the text of a command. -/

namespace Sys2Proof.Machine

/-- The lower-case space name (R99, 20_memory.md R60). -/
def Space.asm : Space → String
  | .code => "code"
  | .eras => "eras"
  | .syn => "syn"
  | .lambda => "lambda"
  | .omega => "omega"
  | .loc => "loc"
  | .mag => "mag"
  | .g => "g"
  | .logt => "logt"
  | .expt => "expt"
  | .asit => "asit"
  | .vreg => "vreg"
  | .ireg => "ireg"
  | .csr => "csr"

/-- `v0` .. `v7` (10_state.md R23). -/
def asmV (r : VReg) : String := "v" ++ toString r.val

/-- `i0` .. `i7` (10_state.md R24). -/
def asmI (r : IReg) : String := "i" ++ toString r.val

/-- `space[idx]` (R99); none where the number names no space. -/
def asmLoc (sp : BitVec 4) (idx : BitVec 16) : Option String :=
  (spaceOf sp.toNat).map fun space => space.asm ++ "[" ++ toString idx.toNat ++ "]"

/-- A mnemonic and its operands, separated by commas, destination first (R99). -/
def asmLine (mnemonic : String) (operands : List String) : String :=
  if operands.isEmpty then mnemonic else mnemonic ++ " " ++ ", ".intercalate operands

/-- The assembly line of a command (R99); none for an M-format term whose space number names no space. -/
def asm : Instr → Option String
  | .nop => some "nop"
  | .ldiv d imm => some (asmLine "ldiv" [asmV d, toString imm.toNat])
  | .ldii d imm => some (asmLine "ldii" [asmI d, toString imm.toNat])
  | .ldv r sp idx => (asmLoc sp idx).map fun l => asmLine "ldv" [asmV r, l]
  | .stv r sp idx => (asmLoc sp idx).map fun l => asmLine "stv" [asmV r, l]
  | .ldx r sp idx => (asmLoc sp idx).map fun l => asmLine "ldx" [asmI r, l]
  | .stx r sp idx => (asmLoc sp idx).map fun l => asmLine "stx" [asmI r, l]
  | .log d a => some (asmLine "log" [asmI d, asmV a])
  | .exp d a => some (asmLine "exp" [asmV d, asmI a])
  | .fadd d a b => some (asmLine "fadd" [asmV d, asmV a, asmV b])
  | .imul d a b => some (asmLine "imul" [asmI d, asmI a, asmI b])
  | .idiv d a b => some (asmLine "idiv" [asmI d, asmI a, asmI b])
  | .vmul d a b => some (asmLine "vmul" [asmV d, asmV a, asmV b])
  | .vdiv d a b => some (asmLine "vdiv" [asmV d, asmV a, asmV b])
  | .vrcp d a => some (asmLine "vrcp" [asmV d, asmV a])
  | .fmavv d a b c => some (asmLine "fmavv" [asmV d, asmV a, asmV b, asmV c])
  | .fmaiv d a b c => some (asmLine "fmaiv" [asmV d, asmI a, asmV b, asmV c])
  | .fmaii d a b c => some (asmLine "fmaii" [asmV d, asmI a, asmI b, asmV c])
  | .asim d a => some (asmLine "asim" [asmV d, asmV a])
  | .encode => some "encode"
  | .synd => some "synd"
  | .eseed => some "eseed"
  | .bm => some "bm"
  | .roots => some "roots"
  | .forney => some "forney"
  | .decode => some "decode"

end Sys2Proof.Machine
end

