-- ==== Sys2Proof/Tests/Slice0.lean ====
section
/-! SUPPORT. Tests/Slice0.lean: the model's own tests, and for every obligation with hypotheses a witness that meets them.
Expected results are the numbers of spec/95_test_vectors.md and of the worked examples of the rule files. -/

namespace Sys2Proof.Tests

open Sys2Proof Sys2Proof.Machine

set_option Elab.async false

/-! ### Helpers -/

/-- `o` is a next state with property `f`. -/
def nextAnd (o : Host.Outcome State Fault Refusal) (f : State → Bool) : Bool :=
  match o with
  | .next t => f t
  | .fault _ => false
  | .refused _ => false

/-- `o` is the refusal `r`. -/
def refusedWith (o : Host.Outcome State Fault Refusal) (r : Refusal) : Bool :=
  match o with
  | .next _ => false
  | .fault _ => false
  | .refused r' => decide (r' = r)

theorem exists_of_nextAnd {o : Host.Outcome State Fault Refusal} {f : State → Bool} (h : nextAnd o f = true) :
    ∃ t, o = .next t ∧ f t = true := by
  cases o with
  | next t => exact ⟨t, rfl, h⟩
  | fault r => cases h
  | refused r => cases h

/-- `xs` in the space from element 0 up. -/
def withArr (sp : Space) (xs : List Nat) (s : State) : State := s.setRange sp 0 (xs.map (BitVec.ofNat 16))

/-- The first elements of a space are `xs`. -/
def holds (s : State) (sp : Space) (xs : List Nat) : Bool :=
  (List.range xs.length).all fun k => s.elem sp k == some (BitVec.ofNat 16 (xs.getD k 0))

/-- V1, V2, V3 and I1, I2 set, the rest as reset left it. -/
def withRegs (v1 v2 v3 i1 i2 : Nat) : State :=
  ((((State.reset.setV 1 (BitVec.ofNat 16 v1)).setV 2 (BitVec.ofNat 16 v2)).setV 3 (BitVec.ofNat 16 v3)).setI 1
    (BitVec.ofNat 16 i1)).setI 2 (BitVec.ofNat 16 i2)

/-- The state after the fault of `code` with FINFO `info`, everything else as in `s`. -/
def faultedFrom (s : State) (status info : Nat) (t : State) : Bool :=
  t == { s with status := BitVec.ofNat 32 status, finfo := BitVec.ofNat 32 info }

/-- `xs` with some entries changed. -/
def patch (xs : List Nat) (changes : List (Nat × Nat)) : List Nat := changes.foldl (fun l c => l.set c.1 c.2) xs

/-- The codeword of 43_encoder.md R183. -/
def c15 : List Nat := [1, 2, 3, 4, 5, 6, 7, 8, 9, 10, 11, 11, 10, 14, 6]

/-- A unit of `p` with CODE, ERAS and ECNT set by the host. -/
def loaded (p : Params) (code eras : List Nat) : State :=
  { withArr .eras eras (withArr .code code (State.resetOf p)) with ecnt := BitVec.ofNat 16 eras.length }

/-- A Boolean form of `State.Inv`. -/
def invCheck (s : State) : Bool :=
  s.params.valid && decide (Memory.wf s.mem) &&
  s.mem.all (fun c => match spaceOf (c.1 / 65536) with
    | some sp => sp.isArray && decide (c.1 % 65536 < sp.size s.params)
    | none => false) &&
  s.mem.all (fun c => decide (c.2.toNat < s.params.q)) &&
  decide (∀ r, (s.v r).toNat < s.params.q) && decide (∀ r, s.i r < s.params.q) &&
  (match s.elem .lambda 0 with | some x => x == 1 | none => true) &&
  s.mem.all (fun c => c.1 / 65536 != 5 || decide (c.2.toNat < s.params.n)) &&
  ((s.status == 0 && s.finfo == 0) || [Cause.illegal, .range, .divZero, .sentinel, .ecnt, .bus].any fun c => s.status == faultStatus c) &&
  decide (s.lreg.toNat ≤ s.params.nr) && decide (s.deg.toNat ≤ s.params.nr)

theorem inv_of_check {s : State} (h : invCheck s = true) : s.Inv := by
  simp only [invCheck, Bool.and_eq_true, decide_eq_true_eq, List.all_eq_true] at h
  obtain ⟨⟨⟨⟨⟨⟨⟨⟨⟨⟨h1, h2⟩, h3⟩, h4⟩, h5⟩, h6⟩, h7⟩, h8⟩, h9⟩, h10⟩, h11⟩ := h
  refine ⟨h1, h2, fun c hc => ?_, h4, h5, h6, fun x hx => ?_, fun k x hk hx => ?_, ?_, h10, h11⟩
  · have := h3 c hc
    split at this
    · rename_i sp hs
      simp only [Bool.and_eq_true, decide_eq_true_eq] at this
      have hn := spaceOf_eq_some.1 hs
      exact ⟨sp, c.1 % 65536, this.1, Nat.mod_lt _ (by omega), by unfold addressOf; omega, fun _ _ => this.2⟩
    · cases this
  · rw [hx] at h7
    simpa using h7
  · rw [elem_array _ (by decide)] at hx
    have := h8 _ (Memory.mem_of_find hx)
    simp only [addressOf, Space.number, Bool.or_eq_true, bne_iff_ne, ne_eq, decide_eq_true_eq] at this
    rcases this with h | h
    · exact absurd (by omega) h
    · exact h
  · simp only [Bool.or_eq_true, Bool.and_eq_true, beq_iff_eq, List.any_eq_true] at h9
    rcases h9 with h | ⟨c, -, h⟩
    · exact .inl h
    · exact .inr ⟨c, h⟩

/-- A Boolean form of `State.CountsBounded`. -/
def countsCheck (s : State) : Bool :=
  decide (s.nroots.toNat ≤ s.deg.toNat) && (s.result == 0xFFFFFFFF#32 || decide (s.result.toNat ≤ s.params.nr)) &&
  s.mem.all (fun c => (c.1 / 65536 != 5 && c.1 / 65536 != 6) || decide (c.1 % 65536 < s.params.nr))

theorem counts_of_check {s : State} (h : countsCheck s = true) : s.CountsBounded := by
  simp only [countsCheck, Bool.and_eq_true, decide_eq_true_eq, List.all_eq_true, Bool.or_eq_true, beq_iff_eq, bne_iff_ne] at h
  obtain ⟨⟨h1, h2⟩, h3⟩ := h
  refine ⟨h1, h2, fun c hc sp k hsp hk ha => ?_⟩
  have hm : c.1 % 65536 = k := by rw [ha]; unfold addressOf; omega
  have hd : c.1 / 65536 = sp.number := by rw [ha]; unfold addressOf; omega
  rw [← hm]
  rcases h3 c hc with h | h
  · rw [hd] at h
    rcases hsp with rfl | rfl
    · exact absurd rfl h.1
    · exact absurd rfl h.2
  · exact h

/-! ### WellFormed: an ill-formed term for each check (30_encoding.md R97) -/

theorem test_wf_ldv_g : (Instr.ldv 0 7 0).wf = false := by decide
theorem test_wf_stv_syn : (Instr.stv 0 2 0).wf = false := by decide
theorem test_wf_ldx_code : (Instr.ldx 0 0 0).wf = false := by decide
theorem test_wf_stx_loc : (Instr.stx 0 5 0).wf = false := by decide
theorem test_wf_spaces : (∀ sp ∈ [0#4, 2, 3, 4, 6, 9, 10], (Instr.ldv 0 sp 0).wf = true) ∧ (Instr.stv 0 0 0).wf = true ∧
    (∀ sp ∈ [1#4, 5, 7, 8], (Instr.ldx 0 sp 0).wf = true) ∧ (Instr.stx 0 1 0).wf = true := by decide

/-! ### Decode: a word for every row (95_test_vectors.md section 2.1) -/

/-- The moves: the word and the command it stands for. -/
def wordsMoves : List (Word × Instr) :=
  [(0x00000000, .nop), (0x04800007, .ldiv 1 7), (0x0680000F, .ldiv 5 15), (0x0900000F, .ldii 2 15), (0x0B80000F, .ldii 7 15),
    (0x0C000007, .ldv 0 0 7), (0x0C48000F, .ldv 0 9 15), (0x0C900000, .ldv 1 2 0)]
  ++ [(0x11800000, .stv 3 0 0), (0x14B80002, .ldx 1 7 2), (0x14400000, .ldx 0 8 0), (0x18080001, .stx 0 1 1),
    (0x1CA00000, .log 1 2), (0x21100000, .exp 2 1)]

/-- The field ALU commands. -/
def wordsAlu : List (Word × Instr) :=
  [(0x40A60000, .fadd 1 2 3), (0x44140000, .imul 0 1 2), (0x48140000, .idiv 0 1 2), (0x4FFE0000, .vmul 7 7 7),
    (0x50140000, .vdiv 0 1 2)]
  ++ [(0x54100000, .vrcp 0 1), (0x5814C000, .fmavv 0 1 2 3), (0x5C108000, .fmaiv 0 1 0 2), (0x6014C000, .fmaii 0 1 2 3),
    (0x64800000, .asim 1 0)]

/-- The codec commands. -/
def wordsCodec : List (Word × Instr) :=
  [(0x80000000, .encode), (0x84000000, .synd), (0x88000000, .eseed), (0x8C000000, .bm), (0x90000000, .roots),
    (0x94000000, .forney), (0x98000000, .decode)]

theorem test_decode_moves : ∀ e ∈ wordsMoves, decode e.1 = .ok e.2 ∧ encode e.2 = e.1 := by decide +kernel
theorem test_decode_alu : ∀ e ∈ wordsAlu, decode e.1 = .ok e.2 ∧ encode e.2 = e.1 := by decide +kernel
theorem test_decode_codec : ∀ e ∈ wordsCodec, decode e.1 = .ok e.2 ∧ encode e.2 = e.1 := by decide +kernel

/-- `fmaiv v0, i1, v0, v2`, field by field: op 010111, d 000, a 001, b 000, c 010, fourteen zeros. -/
theorem test_decode_bits_R : decode 0b010111_000_001_000_010_00000000000000#32 = .ok (.fmaiv 0 1 0 2) := by decide +kernel
/-- `ldii i7, 15`: op 000010, d 111, seven zeros, imm. -/
theorem test_decode_bits_I : decode 0b000010_111_0000000_0000000000001111#32 = .ok (.ldii 7 15) := by decide +kernel
/-- `ldx i1, g[2]`: op 000101, r 001, sp 0111, three zeros, idx. -/
theorem test_decode_bits_M : decode 0b000101_001_0111_000_0000000000000010#32 = .ok (.ldx 1 7 2) := by decide +kernel
/-- `decode`: op 100110, 26 zeros. -/
theorem test_decode_bits_Z : decode 0b100110_00000000000000000000000000#32 = .ok .decode := by decide +kernel

theorem test_decode_unassigned : [0x24000000#32, 0x3C000000, 0x68000000, 0x7C000000, 0x9C000000, 0xFC000000].map decode =
    List.replicate 6 (.error .unassignedOpcode) := by decide +kernel
theorem test_decode_must_be_zero : [0x00000001#32, 0x80000001, 0x40144000, 0x04010005, 0x0C010000, 0x1C120000, 0x58000001].map decode =
    List.replicate 7 (.error .mustBeZero) := by decide +kernel
/-- The illegal words of section 2.1: STATUS 0x11, FINFO the word, nothing else changed. -/
theorem test_illegal_words : ([0x24000000#32, 0xFC000000, 0x00000001, 0x80000001, 0x40144000, 0x04010005, 0x0C380000,
    0x14000000, 0x10100000, 0x18280000, 0x0C78FFFF].all fun w =>
    nextAnd (runCommand w State.reset) (faultedFrom State.reset 0x11 w.toNat)) = true := by decide +kernel
theorem test_table_word : decodeTableWord 32 0x98000000 = some .decode ∧ decodeTableWord 32 0x24000000 = none := by decide +kernel
theorem test_table_rows : opcodeRows.length = 26 ∧ opcodeRows.Pairwise (fun a b => a.1 &&& 0xFC000000 ≠ b.1 &&& 0xFC000000) := by
  decide +kernel

/-! ### The assembler text (30_encoding.md R99, 95_test_vectors.md section 2.1) -/

theorem test_asm : asm (.fmaiv 0 1 0 2) = some "fmaiv v0, i1, v0, v2" ∧ asm (.ldx 1 7 2) = some "ldx i1, g[2]" ∧
    asm (.ldiv 5 15) = some "ldiv v5, 15" ∧ asm .decode = some "decode" ∧ asm (.ldv 0 15 0) = none := by decide +kernel

/-! ### Elaboration and tables (95_test_vectors.md section 2.2) -/

theorem test_valid_rs15 : Config.rs15_11.valid = true := by decide +kernel
theorem test_valid_small : (∀ p ∈ [(⟨2, 0x7, 1, 1⟩ : Params), ⟨2, 0x7, 2, 2⟩, ⟨3, 0xB, 2, 0⟩, ⟨4, 0x13, 6, 5⟩, ⟨5, 0x25, 8, 3⟩], p.valid = true) := by
  decide +kernel
/-- The tuples the walk or the ranges reject: none of them has a unit. -/
theorem test_rejected : ∀ p ∈ [(⟨4, 0x1F, 4, 1⟩ : Params), ⟨4, 0x15, 4, 1⟩, ⟨3, 0x9, 2, 1⟩, ⟨4, 0x12, 4, 1⟩, ⟨4, 0x13, 0, 1⟩,
    ⟨4, 0x13, 15, 1⟩, ⟨4, 0x13, 4, 15⟩, ⟨1, 3, 1, 0⟩], refusedWith (State.elaborate p) .noSuchUnit = true := by decide +kernel
theorem test_exptTable : (List.range 16).map (fun i => (expt Config.rs15_11 i).toNat) =
    [1, 2, 4, 8, 3, 6, 12, 11, 5, 10, 7, 14, 15, 13, 9, 0] := by decide +kernel
theorem test_logtTable : (List.range 16).map (fun v => logt Config.rs15_11 (BitVec.ofNat 16 v)) =
    [15, 0, 1, 4, 2, 8, 5, 10, 3, 14, 9, 7, 6, 13, 11, 12] := by decide +kernel
theorem test_asitTable : (List.range 16).map (fun y => (asit Config.rs15_11 (BitVec.ofNat 16 y)).toNat) =
    [0, 6, 10, 12, 8, 14, 2, 4, 0, 0, 0, 0, 0, 0, 0, 0] := by decide +kernel
theorem test_gRoms : (List.range 5).map (gRom Config.rs15_11) = [10, 3, 6, 13, 0] ∧
    (List.range 2).map (gRom ⟨2, 0x7, 1, 1⟩) = [1, 0] ∧ (List.range 3).map (gRom ⟨3, 0xB, 2, 0⟩) = [1, 3, 0] ∧
    (List.range 7).map (gRom ⟨4, 0x13, 6, 5⟩) = [0, 14, 7, 1, 7, 14, 0] := by decide +kernel
theorem test_reset_memory_wf : Memory.wf State.reset.mem := List.Pairwise.nil

/-! ### Moves and conversions (95_test_vectors.md section 2.4) -/

theorem test_nop : nextAnd (exec .nop (withRegs 9 12 0 3 4)) (fun t => t == withRegs 9 12 0 3 4) = true := by decide +kernel
theorem test_ldiv : nextAnd (exec (.ldiv 5 15) State.reset) (fun t => t.v 5 == 15) = true ∧
    nextAnd (exec (.ldiv 5 16) State.reset) (faultedFrom State.reset 0x21 0x06800010) = true := by decide +kernel
theorem test_ldii : nextAnd (exec (.ldii 7 15) State.reset) (fun t => t.i 7 == 15) = true ∧
    nextAnd (exec (.ldii 7 0xFFFF) State.reset) (faultedFrom State.reset 0x21 0x0B80FFFF) = true := by decide +kernel
theorem test_ldv : nextAnd (exec (.ldv 0 10 3) State.reset) (fun t => t.v 0 == 12) = true ∧
    nextAnd (exec (.ldv 0 9 16) State.reset) (faultedFrom State.reset 0x21 0x0C480010) = true ∧
    nextAnd (exec (.ldv 0 0 15) State.reset) (faultedFrom State.reset 0x21 0x0C00000F) = true := by decide +kernel
theorem test_ldv_code : nextAnd (exec (.ldv 0 0 7) (withArr .code c15 State.reset)) (fun t => t.v 0 == 8) = true ∧
    refusedWith (exec (.ldv 0 0 7) State.reset) (.unspecifiedElement .code 7) = true := by decide +kernel
theorem test_stv : nextAnd (exec (.stv 3 0 0) (withRegs 0 0 6 0 0)) (fun t => t.elem .code 0 == some 6) = true := by decide +kernel
theorem test_ldx : nextAnd (exec (.ldx 1 7 2) State.reset) (fun t => t.i 1 == 6) = true ∧
    nextAnd (exec (.ldx 0 8 0) State.reset) (fun t => t.i 0 == 15) = true ∧
    nextAnd (exec (.ldx 0 7 5) State.reset) (faultedFrom State.reset 0x21 0x14380005) = true := by decide +kernel
theorem test_stx : nextAnd (exec (.stx 1 1 1) (withRegs 0 0 0 4 0)) (fun t => t.elem .eras 1 == some 4) = true ∧
    nextAnd (exec (.stx 0 1 4) State.reset) (faultedFrom State.reset 0x21 0x18080004) = true := by decide +kernel
theorem test_log : nextAnd (exec (.log 0 1) (withRegs 9 0 0 0 0)) (fun t => t.i 0 == 14) = true ∧
    nextAnd (exec (.log 0 1) (withRegs 0 0 0 0 0)) (fun t => t.i 0 == 15) = true := by decide +kernel
theorem test_exp : nextAnd (exec (.exp 0 1) (withRegs 0 0 0 14 0)) (fun t => t.v 0 == 9) = true ∧
    nextAnd (exec (.exp 0 1) (withRegs 0 0 0 15 0)) (fun t => t.v 0 == 0) = true := by decide +kernel

/-! ### Field ALU (95_test_vectors.md section 2.3) -/

theorem test_fadd : nextAnd (exec (.fadd 0 1 2) (withRegs 9 12 0 0 0)) (fun t => t.v 0 == 5) = true ∧
    nextAnd (exec (.fadd 1 1 2) (withRegs 9 15 0 0 0)) (fun t => t.v 1 == 6) = true := by decide +kernel
theorem test_imul : nextAnd (exec (.imul 0 1 2) (withRegs 0 0 0 10 9)) (fun t => t.i 0 == 4) = true ∧
    nextAnd (exec (.imul 0 1 2) (withRegs 0 0 0 14 1)) (fun t => t.i 0 == 0) = true := by decide +kernel
theorem test_imul_sentinel :
    nextAnd (exec (.imul 0 1 2) (withRegs 0 0 0 3 15)) (faultedFrom (withRegs 0 0 0 3 15) 0x41 0x44140000) = true := by decide +kernel
theorem test_idiv : nextAnd (exec (.idiv 0 1 2) (withRegs 0 0 0 3 10)) (fun t => t.i 0 == 8) = true ∧
    nextAnd (exec (.idiv 0 1 2) (withRegs 0 0 0 0 14)) (fun t => t.i 0 == 1) = true := by decide +kernel
theorem test_idiv_sentinel :
    nextAnd (exec (.idiv 0 1 2) (withRegs 0 0 0 15 0)) (faultedFrom (withRegs 0 0 0 15 0) 0x41 0x48140000) = true := by decide +kernel
theorem test_vmul : nextAnd (exec (.vmul 0 1 2) (withRegs 7 9 0 0 0)) (fun t => t.v 0 == 10) = true ∧
    nextAnd (exec (.vmul 0 1 2) (withRegs 9 2 0 0 0)) (fun t => t.v 0 == 1) = true := by decide +kernel
theorem test_vdiv : nextAnd (exec (.vdiv 0 1 2) (withRegs 7 9 0 0 0)) (fun t => t.v 0 == 14) = true := by decide +kernel
theorem test_vdiv_zero :
    nextAnd (exec (.vdiv 0 1 2) (withRegs 0 0 0 0 0)) (faultedFrom (withRegs 0 0 0 0 0) 0x31 0x50140000) = true := by decide +kernel
theorem test_vrcp : nextAnd (exec (.vrcp 0 1) (withRegs 15 0 0 0 0)) (fun t => t.v 0 == 8) = true := by decide +kernel
theorem test_vrcp_zero :
    nextAnd (exec (.vrcp 0 1) (withRegs 0 0 0 0 0)) (faultedFrom (withRegs 0 0 0 0 0) 0x31 0x54100000) = true := by decide +kernel
theorem test_fmavv : nextAnd (exec (.fmavv 0 1 2 3) (withRegs 7 9 5 0 0)) (fun t => t.v 0 == 15) = true ∧
    nextAnd (exec (.fmavv 3 1 2 3) (withRegs 6 6 1 0 0)) (fun t => t.v 3 == 6) = true := by decide +kernel
theorem test_fmaiv : nextAnd (exec (.fmaiv 0 1 2 3) (withRegs 0 5 6 3 0)) (fun t => t.v 0 == 8) = true := by decide +kernel
/-- The sentinel is checked although V2 = 0. -/
theorem test_fmaiv_sentinel :
    nextAnd (exec (.fmaiv 0 1 2 3) (withRegs 0 0 6 15 0)) (faultedFrom (withRegs 0 0 6 15 0) 0x41 0x5C14C000) = true := by decide +kernel
theorem test_fmaii : nextAnd (exec (.fmaii 0 1 2 3) (withRegs 0 0 7 14 14)) (fun t => t.v 0 == 10) = true := by decide +kernel
theorem test_fmaii_sentinel :
    nextAnd (exec (.fmaii 0 1 2 3) (withRegs 0 0 7 4 15)) (faultedFrom (withRegs 0 0 7 4 15) 0x41 0x6014C000) = true := by decide +kernel
theorem test_asim : nextAnd (exec (.asim 0 1) (withRegs 3 0 0 0 0)) (fun t => t.v 0 == 12) = true ∧
    nextAnd (exec (.asim 0 1) (withRegs 8 0 0 0 0)) (fun t => t.v 0 == 0) = true := by decide +kernel

/-! ### The codec (95_test_vectors.md sections 2.5 to 2.11) -/

theorem test_encode : nextAnd (exec .encode (withArr .code (c15.take 11) State.reset)) (fun t => holds t .code c15) = true := by
  decide +kernel
theorem test_encode_nr1 : nextAnd (exec .encode (withArr .code [0, 1] (State.resetOf ⟨2, 0x7, 1, 1⟩)))
    (fun t => holds t .code [0, 1, 2]) = true := by decide +kernel

/-- The word of FEC scenario 1: two errors. -/
def twoErrors : List Nat := patch c15 [(0, 6), (7, 13)]

theorem test_synd : nextAnd (exec .synd (withArr .code twoErrors State.reset))
    (fun t => holds t .syn [11, 14, 2, 0] && t.result == 3) = true := by decide +kernel
theorem test_synd_fcr0 : nextAnd (exec .synd (withArr .code ([1] ++ List.replicate 14 0) (State.resetOf ⟨4, 0x13, 4, 0⟩)))
    (fun t => holds t .syn [1, 9, 13, 15] && t.result == 4) = true := by decide +kernel
theorem test_eseed : nextAnd (exec .eseed (loaded Config.rs15_11 [] [3, 9, 0])) (fun t => holds t .lambda [1, 1, 6, 1, 0]) = true := by
  decide +kernel
theorem test_eseed_sentinel : nextAnd (exec .eseed (loaded Config.rs15_11 [] [3, 15]))
    (faultedFrom (loaded Config.rs15_11 [] [3, 15]) 0x41 0x88000000) = true := by decide +kernel

/-- SYN and LAMBDA set, and ECNT. -/
def beforeBm (syn lam : List Nat) (e : Nat) : State :=
  { withArr .lambda lam (withArr .syn syn State.reset) with ecnt := BitVec.ofNat 16 e }

/-- The row that tells the length update of 90_conflicts.md C2 from FEC's printed one. -/
theorem test_bm : nextAnd (exec .bm (beforeBm [2, 10, 5, 4] [1, 8, 2, 0, 0] 2))
    (fun t => holds t .lambda [1, 12, 4, 8, 0] && t.lreg == 3) = true := by decide +kernel
/-- L is a bound, not the degree. -/
theorem test_bm_length : nextAnd (exec .bm (beforeBm [13, 14, 0, 0] [1, 0, 0, 0, 0] 0))
    (fun t => holds t .lambda [1, 0, 0, 0, 0] && t.lreg == 2) = true := by decide +kernel
/-- RT4, the quadratic solver: LOC = 0, 7 in this order. -/
theorem test_roots_quadratic : nextAnd (exec .roots (withArr .lambda [1, 2, 12, 0, 0] State.reset))
    (fun t => t.deg == 2 && t.nroots == 2 && holds t .loc [0, 7]) = true := by decide +kernel
/-- RT12, the Chien search with a double root. -/
theorem test_roots_chien : nextAnd (exec .roots (withArr .lambda [1, 6, 11, 15, 0] State.reset))
    (fun t => t.deg == 3 && t.nroots == 2 && holds t .loc [3, 9]) = true := by decide +kernel

/-- The inputs of FORNEY. -/
def beforeForney (p : Params) (code syn lam loc : List Nat) : State :=
  { withArr .loc loc (withArr .lambda lam (withArr .syn syn (withArr .code code (State.resetOf p)))) with
    nroots := BitVec.ofNat 16 loc.length, deg := BitVec.ofNat 16 loc.length }

/-- F5. -/
def f5 : State := beforeForney Config.rs15_11 (patch c15 [(3, 0), (9, 15), (12, 3)]) [2, 10, 5, 4] [1, 12, 4, 8, 0] [3, 9, 12]

theorem test_forney : nextAnd (exec .forney f5) (fun t => holds t .omega [2, 1, 12, 0] && holds t .mag [4, 5, 9] &&
    t.result == 3 && holds t .code c15) = true := by decide +kernel

/-- F10: Λ has a double root at position 3, so Λ′ vanishes there. -/
def f10 : State := beforeForney Config.rs15_11 c15 [0, 2, 3, 15] [1, 6, 11, 15, 0] [3, 9]

theorem test_forney_divzero : nextAnd (exec .forney f10) (faultedFrom f10 0x31 0x94000000) = true := by decide +kernel
/-- D5: two erasures and one error. -/
theorem test_decode_erasures : nextAnd (exec .decode (loaded Config.rs15_11 (patch c15 [(3, 0), (9, 15), (12, 3)]) [3, 9]))
    (fun t => holds t .code c15 && t.result == 3 && holds t .lambda [1, 12, 4, 8, 0] && t.lreg == 3 && t.deg == 3 &&
      holds t .loc [3, 9, 12] && holds t .mag [4, 5, 9]) = true := by decide +kernel
/-- D8: no root at all, −1; D14: E_SENTINEL with SYN written. -/
theorem test_decode_fails : nextAnd (exec .decode (loaded Config.rs15_11 (patch c15 [(0, 14), (1, 3), (2, 11)]) []))
    (fun t => t.result == 0xFFFFFFFF#32 && t.nroots == 0 && holds t .code (patch c15 [(0, 14), (1, 3), (2, 11)]) && t.status == 0) = true ∧
    nextAnd (exec .decode (loaded Config.rs15_11 (patch c15 [(3, 5)]) [15]))
    (fun t => t.status == 0x41 && t.finfo == 0x98000000 && holds t .syn [14, 11, 8, 9] && t.elem .lambda 0 == none) = true := by
  decide +kernel

/-! ### Host port, faults, reset (95_test_vectors.md sections 2.12 and 2.13) -/

/-- `s` with one event to come. -/
def withEvent (e : HostEvent) (s : State) : State := { s with host := [e] }

theorem test_read_csrs : nextAnd (step (withEvent (.read 0xD000D#20) State.reset)) (fun t => t.rdata == some 11) = true ∧
    nextAnd (step (withEvent (.read 0xD0000#20) State.reset)) (fun t => t.rdata == some 0 && t.status == 0) = true := by decide +kernel
theorem test_read_rom : nextAnd (step (withEvent (.read 0x70002#20) State.reset)) (fun t => t.rdata == some 6) = true ∧
    nextAnd (step (withEvent (.read 0xA0003#20) State.reset)) (fun t => t.rdata == some 12) = true := by decide +kernel
theorem test_read_unmapped : nextAnd (step (withEvent (.read 0xE0000#20) State.reset))
    (fun t => t.rdata == some 0 && t.status == 0x61 && t.finfo == 0xE0000) = true := by decide +kernel
theorem test_write_code : nextAnd (step (withEvent (.write 0x0000E#20 15) State.reset)) (fun t => t.elem .code 14 == some 15) = true ∧
    nextAnd (step (withEvent (.write 0x0000F#20 1) State.reset)) (faultedFrom State.reset 0x61 0xF) = true ∧
    nextAnd (step (withEvent (.write 0x00000#20 16) State.reset)) (faultedFrom State.reset 0x61 0) = true := by decide +kernel
theorem test_write_ecnt : nextAnd (step (withEvent (.write 0xD0003#20 0xFFFF) State.reset)) (fun t => t.ecnt == 0xFFFF#16) = true ∧
    nextAnd (step (withEvent (.write 0xD0003#20 0x10000) State.reset)) (faultedFrom State.reset 0x61 0xD0003) = true := by decide +kernel
theorem test_write_readonly : ([0x20000#20, 0xD0001, 0xD0008, 0x70000].all fun a =>
    nextAnd (step (withEvent (.write a 1) State.reset)) (faultedFrom State.reset 0x61 a.toNat)) = true := by decide +kernel

/-- A unit in the fault state of the last row but one of section 2.12. -/
def faulted : State := { State.reset with status := 0x61, finfo := 0x20000 }

theorem test_faulted_write : nextAnd (step (withEvent (.write 0#20 5) faulted)) (fun t => t == faulted) = true ∧
    nextAnd (step (withEvent (.write 0xD0000#20 0) faulted)) (fun t => t == faulted) = true := by decide +kernel
theorem test_faulted_read : nextAnd (step (withEvent (.read 0xE0000#20) faulted)) (fun t => t == { faulted with rdata := some 0 }) = true := by
  decide +kernel
theorem test_reset : nextAnd (step (withEvent .reset { loaded Config.rs15_11 c15 [1] with status := 0x61, finfo := 5 }))
    (fun t => t == State.reset) = true := by decide +kernel
theorem test_fetch : nextAnd (step (State.reset.withFetchWord 32 0x0680000F)) (fun t => t.v 5 == 15 && t.host == []) = true := by
  decide +kernel
theorem test_idle : nextAnd (step State.reset) (fun t => t == State.reset) = true := by decide +kernel

/-! ### Witnesses: for every obligation with hypotheses, a state and operands that meet them -/

/-- All seven arrays specified on RS(15, 11): the inputs of D5 and its stages. -/
def full : State :=
  { withArr .mag [4, 5, 9, 0] (withArr .omega [2, 1, 12, 0] (withArr .eras [3, 9, 0, 0] (withArr .loc [3, 9, 12, 0] f5))) with
    ecnt := 2, lreg := 3, deg := 3, nroots := 3, result := 3 }

theorem witness_reset_inv : State.reset.Inv ∧ State.reset.CountsBounded :=
  ⟨inv_of_check (by decide +kernel), counts_of_check (by decide +kernel)⟩
theorem witness_full_inv : full.Inv ∧ full.CountsBounded :=
  ⟨inv_of_check (by decide +kernel), counts_of_check (by decide +kernel)⟩

/-- The elements of a space, if the first `n` of them are specified. -/
def listed (s : State) (sp : Space) (n : Nat) : List Symbol := (List.range n).map fun k => (s.elem sp k).getD 0

/-- A word with errors and ECNT = 2, but only ERAS[0] specified. -/
def erasMissing : State := { loaded Config.rs15_11 twoErrors [3] with ecnt := 2 }

/-- F5 with CODE[12..15) unspecified. -/
def codeMissing : State := beforeForney Config.rs15_11 (c15.take 12) [2, 10, 5, 4] [1, 12, 4, 8, 0] [3, 9, 12]

theorem witness_EncodeInvertsDecode : decode 0x5C108000#32 = .ok (.fmaiv 0 1 0 2) := by decide +kernel

/-- A word outside the table, a word whose space is not allowed, and a word of the table. -/
theorem witness_IllegalWordRaisesIllegal : State.reset.faulted = false ∧
    (opcodeRows.all fun row => 0x24000000#32 &&& row.2 != row.1) = true ∧
    decode 0x0C380000#32 = .ok (.ldv 0 7 0) ∧ (Instr.ldv 0 7 0).wf = false ∧
    (opcodeRows.any fun row => 0x80000000#32 &&& row.2 == row.1) = true := by decide +kernel

/-- A command word, a rejected word, a read of CMD. -/
theorem witness_StepRunsTheCommandWrittenToCmd :
    (withEvent (.write 0xD0000#20 0x80000000) State.reset).host = [.write 0xD0000#20 0x80000000] ∧
    (withEvent (.write 0xD0000#20 0x80000000) State.reset).faulted = false ∧ decode 0x80000000#32 = .ok .encode ∧
    decode 0x80000001#32 = .error .mustBeZero ∧ (withEvent (.read 0xD0000#20) State.reset).host = [.read 0xD0000#20] := by
  decide +kernel

theorem witness_FetchWordIsTheNextCommand : State.reset.faulted = false ∧
    decode (BitVec.ofNat 32 0x98000000) = .ok .decode := by decide +kernel

theorem witness_ResetLeavesTheResetState : (withEvent .reset full).host = [.reset] := rfl

theorem witness_ElaborationAcceptsOnlyPrimitiveTuples : ∃ s, State.elaborate ⟨2, 0x7, 2, 2⟩ = .next s :=
  let ⟨t, h, _⟩ := exists_of_nextAnd (o := State.elaborate ⟨2, 0x7, 2, 2⟩) (f := fun _ => true) (by decide +kernel)
  ⟨t, h⟩

theorem witness_NopChangesNothing : opField 0x00000001#32 = 0 ∧ (0x00000001#32) ≠ 0 ∧ State.reset.faulted = false := by decide +kernel

/-- The last legal immediate and the first illegal one. -/
theorem witness_ImmediateLoads : (15#16).toNat < State.reset.params.q ∧ State.reset.params.q ≤ (16#16).toNat ∧
    State.reset.faulted = false := by decide +kernel

/-- For each space the last index and the first outside it, with the element specified; a space number not allowed. -/
theorem witness_LdvFollowsItsRule :
    ([((0 : Nat), Space.code), (2, .syn), (3, .lambda), (4, .omega), (6, .mag), (9, .expt), (10, .asit)].all fun e =>
      e.2.number == e.1 && (full.elem e.2 (e.2.size full.params - 1)).isSome && decide (e.2.size full.params ≤ 65535)) = true ∧
    (7#4).toNat ∉ [0, 2, 3, 4, 6, 9, 10] ∧ full.faulted = false := by decide +kernel
theorem witness_LdxFollowsItsRule :
    ([((1 : Nat), Space.eras), (5, .loc), (7, .g), (8, .logt)].all fun e =>
      e.2.number == e.1 && (full.elem e.2 (e.2.size full.params - 1)).isSome && decide (e.2.size full.params ≤ 65535)) = true ∧
    (15#4).toNat ∉ [1, 5, 7, 8] ∧ full.faulted = false := by decide +kernel

theorem witness_StoresWriteOneElement : (14#16).toNat < State.reset.params.n ∧ (3#16).toNat < State.reset.params.nr ∧
    State.reset.faulted = false ∧ (2#4) ≠ 0 ∧ (0#4) ≠ 1 ∧ State.reset.params.n ≤ (15#16).toNat ∧
    State.reset.params.nr ≤ (4#16).toNat := by decide +kernel

theorem witness_ConversionsReadTheTables : (withRegs 0 9 0 14 15).elem .logt ((withRegs 0 9 0 14 15).v 2).toNat = some 14 ∧
    (withRegs 0 9 0 14 15).v 1 = 0 ∧ (withRegs 0 9 0 14 15).elem .expt ((withRegs 0 9 0 14 15).i 1) = some 9 ∧
    (withRegs 0 9 0 14 15).i 2 = (withRegs 0 9 0 14 15).params.n ∧ (withRegs 0 9 0 14 15).params.valid = true ∧
    (withRegs 0 9 0 14 15).i 1 < (withRegs 0 9 0 14 15).params.n := by decide +kernel

/-- LDV of the last CODE element, LDX of the first LOC element, and a host read, after reset. -/
theorem witness_UnspecifiedReadIsRefused : Space.number .code = (0#4).toNat ∧ (14#16).toNat < Space.size State.reset.params .code ∧
    State.reset.elem .code 14 = none ∧ (0#4).toNat ∈ [0, 2, 3, 4, 6] ∧ Space.number .loc = (5#4).toNat ∧
    (0#16).toNat < Space.size State.reset.params .loc ∧ State.reset.elem .loc 0 = none ∧ (5#4).toNat ∈ [1, 5] ∧ (5#4).toNat < 7 := by
  decide +kernel

/-- The codec commands: after reset nothing they read is specified; ERAS with the second entry missing, in a unit whose word is
not clean; SYN missing with LAMBDA there and ECNT = NR − 1; LOC missing. -/
theorem witness_UnspecifiedReadIsRefused_codec : (0 < State.reset.params.k ∧ State.reset.elem .code 0 = none) ∧
    (14 < full.params.n ∧ ({ full with mem := [] } : State).elem .code 14 = none) ∧
    (erasMissing.ecnt.toNat ≤ erasMissing.params.nr ∧ 1 < erasMissing.ecnt.toNat ∧ erasMissing.elem .eras 1 = none ∧
      erasMissing.elem .eras 0 = some 3 ∧ (3#16).toNat ≠ erasMissing.params.n ∧ erasMissing.params.valid = true ∧
      readRange erasMissing .code 0 erasMissing.params.n = .ok (listed erasMissing .code 15) ∧
      ((syndromes erasMissing.params (listed erasMissing .code 15)).any fun x => x != 0) = true) ∧
    (3 < State.reset.params.nr ∧ ({ withArr .lambda [1, 0, 0, 0, 0] State.reset with ecnt := 3 } : State).elem .syn 3 = none) ∧
    (4 ≤ State.reset.params.nr ∧ State.reset.elem .lambda 4 = none) ∧
    (({ State.reset with nroots := 1 } : State).elem .loc 0 = none) := by decide +kernel
/-- FORNEY with its inputs there, Λ′ nonzero at the recorded locations, and CODE[12] missing. -/
theorem witness_UnspecifiedReadIsRefused_forney : codeMissing.params.valid = true ∧
    readRange codeMissing .syn 0 4 = .ok [2, 10, 5, 4] ∧ readRange codeMissing .lambda 0 5 = .ok [1, 12, 4, 8, 0] ∧
    readRange codeMissing .loc 0 codeMissing.nroots.toNat = .ok [3, 9, 12] ∧
    (([3, 9, 12] : List Symbol).all fun l => derivativeAt codeMissing.params [1, 12, 4, 8, 0] ((l.toNat + 1) % 15) != 0) = true ∧
    codeMissing.elem .code 12 = none ∧
    refusedWith (exec .forney codeMissing) (.unspecifiedElement .code 12) = true := by decide +kernel

theorem witness_FaultFreeValueResults : (withRegs 0 9 3 0 0).v 1 = 0 ∧ (withRegs 0 9 3 0 0).v 2 ≠ 0 ∧
    (withRegs 0 9 3 0 0).v 3 ≠ 0 ∧ (withRegs 0 9 3 0 0).elem .asit ((withRegs 0 9 3 0 0).v 3).toNat = some 12 := by decide +kernel

/-- Factors 14 and 0 are legal, 15 is the sentinel. -/
theorem witness_IndexAluFollowsItsRules : 0 < State.reset.params.n ∧ State.reset.params.n ≤ 65536 ∧
    (withRegs 0 0 0 14 15).i 1 ≠ State.reset.params.n ∧ (withRegs 0 0 0 14 15).i 0 ≠ State.reset.params.n ∧
    (withRegs 0 0 0 14 15).i 2 = State.reset.params.n ∧ (withRegs 0 0 0 14 15).faulted = false := by decide +kernel

theorem witness_DivisionFollowsItsRules : (withRegs 7 9 0 0 0).v 2 ≠ 0 ∧ (withRegs 7 9 0 0 0).v 1 ≠ 0 ∧ (withRegs 7 9 0 0 0).v 3 = 0 ∧
    (withRegs 7 9 0 0 0).faulted = false := by decide +kernel

theorem witness_IndexFusedMultiplyAddsFollowTheirRules : (withRegs 7 9 0 14 15).i 1 ≠ State.reset.params.n ∧
    (withRegs 7 9 0 14 15).i 0 ≠ State.reset.params.n ∧ (withRegs 7 9 0 14 15).i 2 = State.reset.params.n ∧
    (withRegs 7 9 0 14 15).faulted = false := by decide +kernel

/-- Each command of the frame statements answers a next state, without a fault, on `full`. -/
theorem witness_ValueRegisterCommandFrame :
    ([Instr.ldiv 0 15, .ldv 0 0 14, .exp 0 1, .fadd 0 1 2, .vmul 0 1 2, .vdiv 0 1 2, .vrcp 0 1, .fmavv 0 1 2 3, .fmaiv 0 1 2 3,
      .fmaii 0 1 2 3, .asim 0 1].all fun i => nextAnd (exec i { full with vreg := Vector.replicate 8 15 }) fun t => !t.faulted) = true := by
  decide +kernel
theorem witness_IndexRegisterCommandFrame :
    ([Instr.ldii 0 15, .ldx 0 1 3, .log 0 1, .imul 0 1 2, .idiv 0 1 2].all fun i => nextAnd (exec i full) fun t => !t.faulted) = true := by
  decide +kernel
theorem witness_StoreCommandFrame :
    ([Instr.stv 0 0 14, .stx 0 1 3].all fun i => nextAnd (exec i full) fun t => !t.faulted) = true := by decide +kernel

/-- The three named configurations' shape: the smallest and a usual tuple are legal; so the tables, field, ASIT and generator
statements speak of something. -/
theorem witness_TablesAreInverse : (⟨2, 0x7, 1, 1⟩ : Params).valid = true ∧ Config.rs15_11.valid = true := by decide +kernel
theorem witness_FieldLaws : Config.rs15_11.valid = true ∧ (15#16).toNat < Config.rs15_11.q ∧ (1#16).toNat < Config.rs15_11.q ∧
    (9#16).toNat < Config.rs15_11.q ∧ (15#16) ≠ 0 ∧ (1#16) ≠ 0 := by decide +kernel
theorem witness_AsitInvertsTheArtinSchreierMap : Config.rs15_11.valid = true ∧ 2 ≤ (14#16).toNat ∧ (14#16).toNat < Config.rs15_11.q ∧
    (14#16).toNat % 2 = 0 ∧ asit Config.rs15_11 5 ≠ 0 := by decide +kernel
theorem witness_GeneratorHasTheConsecutiveRoots : (⟨4, 0x13, 14, 14⟩ : Params).valid = true := by decide +kernel
theorem witness_GeneratorHoldsNoSentinel : (⟨3, 0xB, 6, 2⟩ : Params).valid = true := by decide +kernel

theorem witness_EncodeWritesTheParity : full.params.valid = true ∧
    readRange full .code 0 full.params.k = .ok (listed full .code full.params.k) := by decide +kernel
theorem witness_EncodeIsIdempotent : full.Inv ∧ ∃ t, exec .encode full = .next t :=
  ⟨witness_full_inv.1, let ⟨t, h, _⟩ := exists_of_nextAnd (o := exec .encode full) (f := fun _ => true) (by decide +kernel); ⟨t, h⟩⟩
theorem witness_EncodedWordHasZeroSyndromes : full.Inv ∧ (∀ k, k < full.params.nr → gRom full.params k < full.params.n) ∧
    ∃ t, exec .encode full = .next t :=
  ⟨witness_full_inv.1, by decide +kernel,
    let ⟨t, h, _⟩ := exists_of_nextAnd (o := exec .encode full) (f := fun _ => true) (by decide +kernel); ⟨t, h⟩⟩
theorem witness_SyndWritesTheSyndromes : full.Inv ∧
    readRange full .code 0 full.params.n = .ok (listed full .code full.params.n) := ⟨witness_full_inv.1, by decide +kernel⟩

theorem witness_EseedWritesTheErasureLocator : full.params.valid = true ∧ full.ecnt.toNat ≤ full.params.nr ∧
    readRange full .eras 0 full.ecnt.toNat = .ok [3, 9] ∧ (∀ e ∈ [(3 : Nat), 9], e ≠ full.params.n) := by decide +kernel
theorem witness_SeededLocatorVanishesAtErasures : Config.rs15_11.valid = true ∧ [(0 : Nat), 14, 3, 9].length ≤ Config.rs15_11.nr ∧
    (∀ e ∈ [(0 : Nat), 14, 3, 9], e < Config.rs15_11.n) := by decide +kernel
/-- ECNT = NR + 1; and the first sentinel at ERAS[1]. -/
theorem witness_ErasureFaults : full.faulted = false ∧ full.params.nr < (5#16).toNat ∧
    (loaded Config.rs15_11 [] [3, 15]).elem .eras 1 = some 15 ∧ (15#16).toNat = Config.rs15_11.n ∧
    (loaded Config.rs15_11 [] [3, 15]).elem .eras 0 = some 3 ∧ (loaded Config.rs15_11 [] [3, 15]).ecnt.toNat ≤ Config.rs15_11.nr := by
  decide +kernel
/-- D14: DECODE of a word that is not clean with ERAS[0] = N. -/
theorem witness_ErasureFaults_decode : (loaded Config.rs15_11 (patch c15 [(3, 5)]) [15]).faulted = false ∧
    (loaded Config.rs15_11 (patch c15 [(3, 5)]) [15]).params.valid = true ∧
    (loaded Config.rs15_11 (patch c15 [(3, 5)]) [15]).ecnt.toNat = 1 ∧
    (loaded Config.rs15_11 (patch c15 [(3, 5)]) [15]).elem .eras 0 = some 15 ∧ (15#16).toNat = Config.rs15_11.n ∧
    readRange (loaded Config.rs15_11 (patch c15 [(3, 5)]) [15]) .code 0 15 = .ok ((patch c15 [(3, 5)]).map (BitVec.ofNat 16)) ∧
    syndromes Config.rs15_11 ((patch c15 [(3, 5)]).map (BitVec.ofNat 16)) = [14, 11, 8, 9] := by decide +kernel
theorem witness_BmWritesTheLocator : full.params.valid = true ∧ full.ecnt.toNat ≤ full.params.nr ∧
    readRange full .lambda 0 (full.params.nr + 1) = .ok [1, 12, 4, 8, 0] ∧ readRange full .syn 0 full.params.nr = .ok [2, 10, 5, 4] := by
  decide +kernel
theorem witness_BmWithAllErasuresRunsNoPass : ({ full with ecnt := 4 } : State).Inv ∧ (4#16).toNat = full.params.nr ∧
    readRange { full with ecnt := 4 } .lambda 0 (full.params.nr + 1) = .ok [1, 12, 4, 8, 0] :=
  ⟨inv_of_check (by decide +kernel), by decide +kernel⟩

theorem witness_RootsWritesDegreeAndLocations : full.params.valid = true ∧
    readRange full .lambda 0 (full.params.nr + 1) = .ok [1, 12, 4, 8, 0] := by decide +kernel
theorem witness_RootCountIsAtMostTheDegree : Config.rs15_11.valid = true ∧ ([1, 12, 4, 8, 0] : List Value).length = Config.rs15_11.nr + 1 ∧
    (([1, 12, 4, 8, 0] : List Value).all fun x => decide (x.toNat < Config.rs15_11.q)) = true := by decide +kernel
/-- Degree 3, degree 2 with b ≠ 0, and degree 2 with b = 0 (RT5). -/
theorem witness_RootsAreTheZerosOfTheLocator : Config.rs15_11.valid = true ∧
    (([1, 12, 4, 8, 0] : List Value).all fun x => decide (x.toNat < Config.rs15_11.q)) = true ∧
    trimmedDegree [1, 0, 11, 0, 0] 4 = 2 ∧ ([1, 0, 11, 0, 0] : List Value).getD 1 0 = 0 ∧
    trimmedDegree [1, 12, 4, 8, 0] 4 = 3 ∧ trimmedDegree [1, 2, 12, 0, 0] 4 = 2 ∧ ([1, 2, 12, 0, 0] : List Value).getD 1 0 ≠ 0 := by
  decide +kernel

theorem witness_ForneyCorrectsTheRecordedLocations : full.Inv ∧ full.nroots.toNat ≤ full.params.nr ∧
    readRange full .syn 0 full.params.nr = .ok [2, 10, 5, 4] ∧ readRange full .lambda 0 (full.params.nr + 1) = .ok [1, 12, 4, 8, 0] ∧
    readRange full .loc 0 full.nroots.toNat = .ok [3, 9, 12] ∧ ([3, 9, 12] : List Symbol).Nodup ∧
    (([3, 9, 12] : List Symbol).all fun l => (full.elem .code l.toNat).isSome) = true ∧
    (([3, 9, 12] : List Symbol).all fun l => derivativeAt full.params [1, 12, 4, 8, 0] ((l.toNat + 1) % full.params.n) != 0) = true :=
  ⟨witness_full_inv.1, by decide +kernel⟩
theorem witness_ForneyFaultsOnAVanishingDerivative : f10.faulted = false ∧
    readRange f10 .syn 0 f10.params.nr = .ok [0, 2, 3, 15] ∧ readRange f10 .lambda 0 (f10.params.nr + 1) = .ok [1, 6, 11, 15, 0] ∧
    readRange f10 .loc 0 f10.nroots.toNat = .ok [3, 9] ∧ derivativeAt f10.params [1, 6, 11, 15, 0] ((3 + 1) % f10.params.n) = 0 := by
  decide +kernel

theorem witness_DecodeOfACleanWordWritesOnlySynAndResult : (loaded Config.rs15_11 c15 [1]).params.valid = true ∧
    (loaded Config.rs15_11 c15 [1]).ecnt.toNat ≤ Config.rs15_11.nr ∧
    readRange (loaded Config.rs15_11 c15 [1]) .code 0 Config.rs15_11.n = .ok (c15.map (BitVec.ofNat 16)) ∧
    syndromes Config.rs15_11 (c15.map (BitVec.ofNat 16)) = [0, 0, 0, 0] := by decide +kernel

/-- A run through every stage and its next states. -/
theorem witness_DecodeEqualsTheStagedCommands : full.Inv ∧ full.faulted = false ∧ full.ecnt.toNat ≤ full.params.nr ∧
    nextAnd (exec .synd full) (fun s1 => s1.result != 0 && nextAnd (exec .eseed s1) fun s2 => !s2.faulted && nextAnd (exec .bm s2) fun s3 =>
      nextAnd (exec .roots s3) fun s4 => s4.deg != 0 && decide (s4.deg.toNat ≤ s4.nroots.toNat) && nextAnd (exec .forney s4) fun s5 =>
        !s5.faulted) = true := ⟨witness_full_inv.1, by decide +kernel⟩
/-- The other two exits: a clean word; too few roots (D8). -/
theorem witness_DecodeEqualsTheStagedCommands_exits :
    nextAnd (exec .synd (loaded Config.rs15_11 c15 [])) (fun s1 => s1.result == 0) = true ∧
    nextAnd (exec .synd (loaded Config.rs15_11 (patch c15 [(0, 14), (1, 3), (2, 11)]) [])) (fun s1 => s1.result != 0 &&
      nextAnd (exec .eseed s1) fun s2 => !s2.faulted && nextAnd (exec .bm s2) fun s3 => nextAnd (exec .roots s3) fun s4 =>
        decide (s4.nroots.toNat < s4.deg.toNat)) = true := by decide +kernel
theorem witness_DecodeCompletesWithoutFault : full.Inv ∧ full.faulted = false ∧ full.ecnt.toNat ≤ full.params.nr ∧
    readRange full .code 0 full.params.n = .ok (listed full .code full.params.n) ∧ readRange full .eras 0 full.ecnt.toNat = .ok [3, 9] ∧
    (([3, 9] : List Symbol).all fun e => e.toNat != full.params.n) = true := ⟨witness_full_inv.1, by decide +kernel⟩
theorem witness_FailedDecodeLeavesTheWord : (loaded Config.rs15_11 (patch c15 [(0, 14), (1, 3), (2, 11)]) []).Inv ∧
    nextAnd (exec .decode { loaded Config.rs15_11 (patch c15 [(0, 14), (1, 3), (2, 11)]) [] with result := 0xFFFFFFFF#32 })
      (fun t => t.result == 0xFFFFFFFF#32) = true ∧
    nextAnd (exec .decode (loaded Config.rs15_11 (patch c15 [(0, 14), (1, 3), (2, 11)]) [])) (fun t => t.result == 0xFFFFFFFF#32) = true :=
  ⟨inv_of_check (by decide +kernel), by decide +kernel⟩
/-- `full` differs from the codeword at 3, 9 (erased) and 12 (an error): 2 · 1 + 2 ≤ 4. -/
theorem witness_DecodeCorrectsWithinTheBound : full.Inv ∧ full.faulted = false ∧
    readRange full .code 0 full.params.n = .ok (listed full .code full.params.n) ∧ readRange full .eras 0 full.ecnt.toNat = .ok [3, 9] ∧
    ([3, 9] : List Symbol).Nodup ∧ c15.length = full.params.n ∧ (c15.all fun x => decide (x < full.params.q)) = true ∧
    syndromes full.params (c15.map (BitVec.ofNat 16)) = [0, 0, 0, 0] ∧
    ((List.range 15).filter fun j => (c15.map (BitVec.ofNat 16)).getD j 0 != (listed full .code 15).getD j 0) = [3, 9, 12] := by
  exact ⟨witness_full_inv.1, by decide +kernel⟩
/-- D4: four erasures, three of them wrong. -/
theorem witness_DecodeFillsErasures : (loaded Config.rs15_11 (patch c15 [(3, 0), (9, 0), (0, 0)]) [3, 9, 0, 14]).Inv ∧
    readRange (loaded Config.rs15_11 (patch c15 [(3, 0), (9, 0), (0, 0)]) [3, 9, 0, 14]) .eras 0 4 = .ok [3, 9, 0, 14] ∧
    ([3, 9, 0, 14] : List Symbol).Nodup ∧
    ((List.range 15).all fun j => c15.getD j 0 == (patch c15 [(3, 0), (9, 0), (0, 0)]).getD j 0 ||
      ([3, 9, 0, 14] : List Symbol).contains (BitVec.ofNat 16 j)) = true := ⟨inv_of_check (by decide +kernel), by decide +kernel⟩

theorem witness_FaultEntryWritesTheLatchOnce : faulted.faulted = true ∧ State.reset.faulted = false := by decide +kernel
/-- A fault of a register command, and DECODE's E_ECNT and E_SENTINEL. -/
theorem witness_FaultingCommandChangesOnlyTheLatch :
    nextAnd (exec (.vrcp 1 0) State.reset) (fun t => t.faulted) = true ∧
    nextAnd (exec .decode { State.reset with ecnt := 5 }) (fun t => t.faulted && ecodeField t.status == 5) = true ∧
    nextAnd (exec .decode (loaded Config.rs15_11 (patch c15 [(3, 5)]) [15])) (fun t => t.faulted && ecodeField t.status == 4) = true := by
  decide +kernel
theorem witness_FaultStateIsTerminal : (withEvent (.write 0#20 5) faulted).faulted = true ∧ (withEvent .reset faulted).faulted = true ∧
    nextAnd (step (withEvent (.read 0xD0001#20) faulted)) (fun t => t.rdata == some 0x61) = true := by decide +kernel

/-- The last element of CODE and of LOGT, and an address that does not exist. -/
theorem witness_HostReadReturnsTheLocation : 14 < Space.size full.params .code ∧ (full.elem .code 14).isSome = true ∧
    15 < Space.size full.params .logt ∧ (full.elem .logt 15).isSome = true ∧ locate full.params 0xE0000#20 = none := by decide +kernel
/-- Data at the upper bound of each target; a read-only location, data one bit too wide for an element, data too wide for
ECNT. -/
theorem witness_HostWriteFollowsItsRule : full.params.valid = true ∧ full.faulted = false ∧ (15#32).toNat < full.params.q ∧
    14 < full.params.n ∧ 3 < full.params.nr ∧ (0xFFFF#32).toNat < 65536 ∧ (0x20000#20).toNat = 131072 ∧ full.params.n ≤ 131072 ∧
    (0#20).toNat < 0xD0000 ∧ full.params.q ≤ (16#32).toNat ∧ (0xD0003#20).toNat = 0xD0003 ∧ 65536 ≤ (0x10000#32).toNat := by decide +kernel

theorem witness_ParametersAndRomsNeverChange : ∃ t, step (withEvent .reset full) = .next t := ⟨_, rfl⟩
theorem witness_OnlyTheHostWritesEcnt :
    nextAnd (step (withEvent (.write 0xD0003#20 3) full)) (fun t => t.ecnt != full.ecnt) = true := by decide +kernel
theorem witness_CodecCommandsLeaveRegistersAlone : full.Inv ∧
    ([Instr.encode, .synd, .eseed, .bm, .roots, .forney, .decode].all fun i => nextAnd (exec i full) fun _ => true) = true :=
  ⟨witness_full_inv.1, by decide +kernel⟩
theorem witness_CountRegistersHaveTheirWriters :
    nextAnd (exec .nop full) (fun t => t.result == full.result && t.lreg == full.lreg && t.deg == full.deg) = true := by decide +kernel
theorem witness_StepKeepsTheStateLegal : (withEvent (.write 0xD0000#20 0x98000000) full).Inv ∧
    (withEvent (.write 0xD0000#20 0x98000000) full).CountsBounded ∧
    nextAnd (step (withEvent (.write 0xD0000#20 0x98000000) full)) (fun t => t.result == 3) = true :=
  ⟨inv_of_check (by decide +kernel), counts_of_check (by decide +kernel), by decide +kernel⟩

end Sys2Proof.Tests
end

section
/-! PROOFS. The walk of a legal tuple (41_tables_and_generator.md R142): it stays below Q, it returns to 1 after N steps and
repeats from there, and it never meets 0. -/

namespace Sys2Proof.Machine

/-- POLY of degree M: from bit M up only bit M is set. -/
theorem testBit_poly {p : Params} (hp : p.poly >>> p.m = 1) (j : Nat) : p.poly.testBit (p.m + j) = decide (j = 0) := by
  rw [← Nat.testBit_shiftRight, hp, Bool.eq_iff_iff, Nat.testBit_one_eq_true_iff_self_eq_zero, decide_eq_true_iff]

/-- Doubling a value below Q sets no bit from M up but bit M, which was bit M − 1. -/
theorem testBit_double {p : Params} (hm : 1 ≤ p.m) {a : Nat} (ha : a < p.q) (j : Nat) :
    (a <<< 1).testBit (p.m + j) = (decide (j = 0) && a.testBit (p.m - 1)) := by
  have hshift : (a <<< 1).testBit (p.m + j) = a.testBit (p.m + j - 1) := by
    simp [Nat.testBit_shiftLeft, show 1 ≤ p.m + j by omega]
  rw [hshift]
  cases j with
  | zero => simp
  | succ j =>
    have hhigh : a < 2 ^ (p.m + j) := ha.trans_le (Nat.pow_le_pow_right (by decide) (by omega))
    simp [← Nat.add_assoc, Nat.testBit_lt_two_pow hhigh]

/-- One step keeps the walk below Q: the bit shifted out at M is the one that POLY is subtracted on. -/
theorem walkStep_lt {p : Params} (hm : 1 ≤ p.m) (hp : p.poly >>> p.m = 1) {a : Nat} (ha : a < p.q) : walkStep p a < p.q := by
  refine Nat.lt_pow_two_of_testBit _ fun i hi => ?_
  obtain ⟨j, rfl⟩ := Nat.exists_eq_add_of_le hi
  rw [walkStep_eq hm]
  split
  case isTrue htop => simp [testBit_double hm ha, testBit_poly hp, htop]
  case isFalse htop => simp [testBit_double hm ha, htop]

theorem alphaPow_lt {p : Params} (h : p.valid = true) (i : Nat) : alphaPow p i < p.q := by
  obtain ⟨hm, -, hp, -⟩ := Params.valid_iff.1 h
  induction i with
  | zero =>
    have := (Params.bounds h).1
    change 1 < p.q
    omega
  | succ i ih => exact walkStep_lt (by omega) hp ih

/-- What the builder's test says of the whole walk from 1. -/
theorem alphaPow_of_valid {p : Params} (h : p.valid = true) :
    alphaPow p p.n = 1 ∧ (∀ i, i < p.n → alphaPow p i ≠ 0) ∧ ∀ i j, i < j → j < p.n → alphaPow p i ≠ alphaPow p j := by
  obtain ⟨-, -, -, -, -, -, hw⟩ := Params.valid_iff.1 h
  obtain ⟨hone, hzero, hdistinct⟩ := walkAccepts_iff (i := 0).1 hw
  simp only [Nat.zero_add] at hone hzero hdistinct
  exact ⟨hone, fun i hi => (hzero i hi).1, hdistinct⟩

theorem alphaPow_n {p : Params} (h : p.valid = true) : alphaPow p p.n = 1 := (alphaPow_of_valid h).1

theorem alphaPow_inj {p : Params} (h : p.valid = true) {i j : Nat} (hi : i < p.n) (hj : j < p.n)
    (he : alphaPow p i = alphaPow p j) : i = j := by
  obtain ⟨-, -, hdistinct⟩ := alphaPow_of_valid h
  rcases Nat.lt_trichotomy i j with hlt | heq | hgt
  · exact absurd he (hdistinct i j hlt hj)
  · exact heq
  · exact absurd he.symm (hdistinct j i hgt hi)

/-- The walk has period N. -/
theorem alphaPow_add_n {p : Params} (h : p.valid = true) (i : Nat) : alphaPow p (i + p.n) = alphaPow p i := by
  induction i with
  | zero => rw [Nat.zero_add, alphaPow_n h, alphaPow]
  | succ i ih => rw [Nat.succ_add, alphaPow_succ, alphaPow_succ, ih]

theorem alphaPow_mod_n {p : Params} (h : p.valid = true) (i : Nat) : alphaPow p (i % p.n) = alphaPow p i :=
  Function.Periodic.map_mod_nat (alphaPow_add_n h) i

theorem alphaPow_pos {p : Params} (h : p.valid = true) (i : Nat) : 0 < alphaPow p i := by
  obtain ⟨-, hzero, -⟩ := alphaPow_of_valid h
  have hn : 0 < p.n := by
    have := Params.bounds h
    omega
  rw [← alphaPow_mod_n h]
  exact Nat.pos_of_ne_zero (hzero _ (Nat.mod_lt i hn))

theorem nodup_map_alphaPow {p : Params} (h : p.valid = true) : ((List.range p.n).map (alphaPow p)).Nodup :=
  List.Nodup.map_on (fun _ hi _ hj he => alphaPow_inj h (List.mem_range.1 hi) (List.mem_range.1 hj) he) List.nodup_range

/-- Elaboration answers exactly the reset state, and only for a legal tuple. -/
theorem elaborate_eq_next {p : Params} {s : State} : State.elaborate p = .next s ↔ p.valid = true ∧ s = State.resetOf p := by
  unfold State.elaborate
  split
  case isTrue h => simp [h, eq_comm (a := s)]
  case isFalse h => simp [h]

/-- Settles O9: what the builder's test says of the walk holds of the walk's values, and its period carries the
nonzero values beyond step N. -/
theorem elaborationAcceptsOnlyPrimitiveTuples : Obligations.ElaborationAcceptsOnlyPrimitiveTuples := by
  intro p s he
  obtain ⟨h, hs⟩ := elaborate_eq_next.1 he
  obtain ⟨hm, hm', hpoly, hnr, hnr', hfcr, -⟩ := Params.valid_iff.1 h
  exact ⟨hs, hm, hm', hpoly, hnr, hnr', hfcr, nodup_map_alphaPow h, fun i => ⟨alphaPow_pos h i, alphaPow_lt h i⟩, alphaPow_n h⟩

end Sys2Proof.Machine
end

section
/-! PROOFS. The reset state (10_state.md R46): every register is 0 and no array element is listed. -/

namespace Sys2Proof.Machine

@[simp] theorem v_resetOf (p : Params) (r : VReg) : (State.resetOf p).v r = 0 := by simp [State.v, State.resetOf]

@[simp] theorem i_resetOf (p : Params) (r : IReg) : (State.resetOf p).i r = 0 := by simp [State.i, State.resetOf]

@[simp] theorem mem_resetOf (p : Params) : (State.resetOf p).mem = [] := rfl

/-- R47: no array element is specified after reset. -/
theorem elem_resetOf (p : Params) {sp : Space} (h : sp.number < 7) (k : Nat) : (State.resetOf p).elem sp k = none :=
  elem_array _ h k

theorem inv_resetOf {p : Params} (h : p.valid = true) : (State.resetOf p).Inv where
  paramsLegal := h
  memCanonical := reset_memory_wf p
  memOnlyArrays := by simp
  memSymbols := by simp
  vregSymbols r := by simp [Params.q_pos]
  iregSymbols r := by simp [Params.q_pos]
  lambdaMonic x hx := by simp [elem_resetOf p (sp := .lambda) (by decide)] at hx
  locPositions k x _ hx := by simp [elem_resetOf p (sp := .loc) (by decide)] at hx
  faultLatch := .inl ⟨rfl, rfl⟩
  lregBounded := Nat.zero_le _
  degBounded := Nat.zero_le _

theorem countsBounded_resetOf (p : Params) : (State.resetOf p).CountsBounded where
  nrootsLeDeg := Nat.le_refl _
  resultInRange := .inr (Nat.zero_le _)
  locMagInside := by simp

/-- Settles O58: the registers are 0 and the arrays are unspecified, so only the tuple's legality is needed. -/
theorem resetStateIsLegal : Obligations.ResetStateIsLegal := fun p h => ⟨inv_resetOf h, countsBounded_resetOf p⟩

end Sys2Proof.Machine
end

section
/-! PROOFS. The symbols a legal unit computes are M-bit patterns (40_field_alu.md R110 to R118): every table entry, and so
every result of the field helpers, is below Q. -/

namespace Sys2Proof.Machine

variable {p : Params}

theorem toNat_expt (h : p.valid = true) {i : Nat} (hi : i < p.n) : (expt p i).toNat = alphaPow p i := by
  have hq : alphaPow p i < 65536 := (alphaPow_lt h i).trans_le (Params.bounds h).2.1
  simp [expt, hi, Nat.mod_eq_of_lt hq]

theorem expt_lt (h : p.valid = true) (i : Nat) : (expt p i).toNat < p.q := by
  by_cases hi : i < p.n
  · rw [toNat_expt h hi]
    exact alphaPow_lt h i
  · simp [expt, hi, p.q_pos]

theorem add_lt {a b : Value} (ha : a.toNat < p.q) (hb : b.toNat < p.q) : (add a b).toNat < p.q := by
  rw [add, BitVec.toNat_xor]
  exact Nat.xor_lt_two_pow ha hb

theorem mulIv_lt (h : p.valid = true) (i : Nat) (b : Value) : (mulIv p i b).toNat < p.q := by
  unfold mulIv
  split
  · exact p.q_pos
  · exact expt_lt h _

theorem mulV_lt (h : p.valid = true) (a b : Value) : (mulV p a b).toNat < p.q := by
  unfold mulV
  split
  · exact p.q_pos
  · exact expt_lt h _

theorem divV_lt (h : p.valid = true) (a b : Value) : (divV p a b).toNat < p.q := by
  unfold divV
  split
  · exact p.q_pos
  · exact expt_lt h _

theorem fmaIv_lt (h : p.valid = true) (i : Nat) (b : Value) {c : Value} (hc : c.toNat < p.q) : (fmaIv p i b c).toNat < p.q :=
  add_lt (mulIv_lt h i b) hc

theorem fmaIi_lt (h : p.valid = true) (i j : Nat) {c : Value} (hc : c.toNat < p.q) : (fmaIi p i j c).toNat < p.q :=
  add_lt (expt_lt h _) hc

/-- A fold keeps a symbol below Q when each of its passes does. -/
theorem foldl_lt {α : Type} {f : Value → α → Value} {xs : List α}
    (hf : ∀ acc, ∀ x ∈ xs, acc.toNat < p.q → (f acc x).toNat < p.q) {a : Value} (ha : a.toNat < p.q) : (xs.foldl f a).toNat < p.q :=
  List.foldlRecOn xs f (motive := fun acc => acc.toNat < p.q) ha fun acc hacc x hx => hf acc x hx hacc

theorem sumV_lt {xs : List Value} (hx : ∀ x ∈ xs, x.toNat < p.q) : (sumV xs).toNat < p.q :=
  foldl_lt (fun _ x hm hacc => add_lt hacc (hx x hm)) p.q_pos

/-- An entry of ASIT is 0 or one of the even values below Q (R143). -/
theorem asit_lt (y : Value) : (asit p y).toNat < p.q := by
  refine foldl_lt (fun entry x hx hentry => ?_) p.q_pos
  split
  · obtain ⟨i, hi, rfl⟩ := List.mem_range'.1 hx
    have hmod := Nat.mod_le (2 + 2 * i) (2 ^ 16)
    rw [BitVec.toNat_ofNat]
    omega
  · exact hentry

theorem toNat_toIndex (h : p.valid = true) {i : Nat} (hi : i ≤ p.n) : (toIndex i).toNat = i := by
  have := Params.bounds h
  rw [toIndex, BitVec.toNat_ofNat]
  omega

/-- The storage form of an index in [0, N] is an M-bit pattern (10_state.md R24). -/
theorem toIndex_lt (h : p.valid = true) {i : Nat} (hi : i ≤ p.n) : (toIndex i).toNat < p.q := by
  rw [toNat_toIndex h hi]
  exact hi.trans_lt p.n_lt_q

theorem n_pos (h : p.valid = true) : 0 < p.n := by
  have := Params.bounds h
  omega

theorem imul_lt (h : p.valid = true) (i j : Nat) : imul p i j < p.n := Nat.mod_lt _ (n_pos h)

theorem idiv_lt (h : p.valid = true) (i j : Nat) : idiv p i j < p.n := by
  have := n_pos h
  have := Int.emod_lt_of_pos ((i : Int) - j) (b := p.n) (by omega)
  unfold idiv
  omega

end Sys2Proof.Machine
end

section
/-! PROOFS. The field of a legal tuple (40_field_alu.md R119): every nonzero symbol is a power of α, a product adds
exponents, and multiplication by a power of α is a number of walk steps, hence additive. -/

namespace Sys2Proof.Machine

variable {p : Params}

/-- The walk meets every nonzero value: its N values are different and there are no more than N nonzero ones. -/
theorem exists_alphaPow_eq (h : p.valid = true) {v : Nat} (h0 : 0 < v) (hv : v < p.q) : ∃ i, i < p.n ∧ alphaPow p i = v := by
  have hmaps : ∀ i ∈ Finset.range p.n, alphaPow p i ∈ Finset.Ioo 0 p.q := fun i _ =>
    Finset.mem_Ioo.2 ⟨alphaPow_pos h i, alphaPow_lt h i⟩
  have hinj : Set.InjOn (alphaPow p) (Finset.range p.n) := fun i hi j hj he =>
    alphaPow_inj h (Finset.mem_range.1 hi) (Finset.mem_range.1 hj) he
  have hcard : (Finset.Ioo 0 p.q).card ≤ (Finset.range p.n).card := by simp [Params.n]
  obtain ⟨i, hi, he⟩ := Finset.surjOn_of_injOn_of_card_le _ hmaps hinj hcard (Finset.mem_Ioo.2 ⟨h0, hv⟩)
  exact ⟨i, Finset.mem_range.1 hi, he⟩

/-- LOGT inverts the walk on the nonzero values (R145). -/
theorem alphaPow_logt (h : p.valid = true) {v : Value} (h0 : v ≠ 0) (hv : v.toNat < p.q) :
    logt p v < p.n ∧ alphaPow p (logt p v) = v.toNat := by
  obtain ⟨i, hi, he⟩ := exists_alphaPow_eq h (BitVec.toNat_pos_of_ne_zero h0) hv
  have hlog : logt p v = logSearch p v.toNat p.n 0 (alphaPow p 0) := if_neg h0
  rcases logSearch_cases p v.toNat p.n 0 with ⟨j, hj, hv, -, hs⟩ | ⟨hnone, -⟩
  · rw [hlog, hs]
    simpa using And.intro hj hv
  · exact absurd (by rwa [Nat.zero_add]) (hnone i hi)

theorem expt_logt (h : p.valid = true) {v : Value} (h0 : v ≠ 0) (hv : v.toNat < p.q) : expt p (logt p v) = v := by
  obtain ⟨hi, he⟩ := alphaPow_logt h h0 hv
  exact BitVec.eq_of_toNat_eq (by rw [toNat_expt h hi, he])

theorem expt_ne_zero (h : p.valid = true) {i : Nat} (hi : i < p.n) : expt p i ≠ 0 := fun e => by
  have := alphaPow_pos h i
  rw [← toNat_expt h hi, e] at this
  exact absurd this (Nat.lt_irrefl 0)

theorem logt_expt (h : p.valid = true) {i : Nat} (hi : i < p.n) : logt p (expt p i) = i := by
  obtain ⟨hj, he⟩ := alphaPow_logt h (expt_ne_zero h hi) (expt_lt h i)
  exact alphaPow_inj h hj hi (by rw [he, toNat_expt h hi])

theorem expt_zero (h : p.valid = true) : expt p 0 = 1 := by simp [expt, n_pos h, alphaPow]

theorem toNat_expt_mod (h : p.valid = true) (i : Nat) : (expt p (i % p.n)).toNat = alphaPow p i := by
  rw [toNat_expt h (Nat.mod_lt i (n_pos h)), alphaPow_mod_n h]

theorem expt_mod_ne_zero (h : p.valid = true) (i : Nat) : expt p (i % p.n) ≠ 0 := expt_ne_zero h (Nat.mod_lt i (n_pos h))

/-- A nonzero symbol is a power of α. -/
theorem exists_expt_eq (h : p.valid = true) {v : Value} (h0 : v ≠ 0) (hv : v.toNat < p.q) : ∃ i, v = expt p (i % p.n) :=
  ⟨logt p v, by rw [Nat.mod_eq_of_lt (alphaPow_logt h h0 hv).1, expt_logt h h0 hv]⟩

@[simp] theorem mulV_zero (a : Value) : mulV p a 0#16 = 0#16 := by simp [mulV]

@[simp] theorem zero_mulV (b : Value) : mulV p 0#16 b = 0#16 := by simp [mulV]

@[simp] theorem mulIv_zero (i : Nat) : mulIv p i 0#16 = 0#16 := by simp [mulIv]

theorem mulV_comm (a b : Value) : mulV p a b = mulV p b a := by
  unfold mulV
  rw [Nat.add_comm, if_congr Or.comm rfl rfl]

/-- A product of powers of α adds the exponents. -/
theorem mulIv_expt (h : p.valid = true) (i j : Nat) : mulIv p i (expt p (j % p.n)) = expt p ((i + j) % p.n) := by
  rw [mulIv, if_neg (expt_mod_ne_zero h j), logt_expt h (Nat.mod_lt j (n_pos h)), Nat.add_mod_mod]

/-- The product with a power of α is `mul_iv` of its exponent (R116). -/
theorem mulV_expt_left (h : p.valid = true) (i : Nat) (b : Value) : mulV p (expt p (i % p.n)) b = mulIv p i b := by
  rw [mulV, mulIv, logt_expt h (Nat.mod_lt i (n_pos h)), Nat.mod_add_mod]
  exact if_congr (or_iff_right (expt_mod_ne_zero h i)) rfl rfl

theorem mulIv_mulIv (h : p.valid = true) (i j : Nat) {b : Value} (hb : b.toNat < p.q) :
    mulIv p i (mulIv p j b) = mulIv p (i + j) b := by
  by_cases h0 : b = 0
  · simp [h0]
  · obtain ⟨k, rfl⟩ := exists_expt_eq h h0 hb
    rw [mulIv_expt h, mulIv_expt h, mulIv_expt h, Nat.add_assoc]

theorem iterate_walkStep_alphaPow (i j : Nat) : (walkStep p)^[i] (alphaPow p j) = alphaPow p (i + j) := by
  induction i with
  | zero => simp
  | succ i ih => rw [Function.iterate_succ_apply', ih, ← alphaPow_succ, Nat.add_right_comm]

theorem iterate_walkStep_zero (i : Nat) : (walkStep p)^[i] 0 = 0 := Function.iterate_fixed (walkStep_zero p) i

theorem iterate_walkStep_xor (hm : 1 ≤ p.m) (i a b : Nat) :
    (walkStep p)^[i] (a ^^^ b) = (walkStep p)^[i] a ^^^ (walkStep p)^[i] b := by
  induction i with
  | zero => rfl
  | succ i ih => simp only [Function.iterate_succ_apply', ih, walkStep_xor hm]

/-- Multiplication by α^i is i steps of the walk. -/
theorem toNat_mulIv (h : p.valid = true) (i : Nat) {b : Value} (hb : b.toNat < p.q) :
    (mulIv p i b).toNat = (walkStep p)^[i] b.toNat := by
  by_cases h0 : b = 0
  · simp [h0, iterate_walkStep_zero]
  · obtain ⟨j, rfl⟩ := exists_expt_eq h h0 hb
    rw [mulIv_expt h, toNat_expt_mod h, toNat_expt_mod h, iterate_walkStep_alphaPow]

theorem mulIv_add (h : p.valid = true) (i : Nat) {b c : Value} (hb : b.toNat < p.q) (hc : c.toNat < p.q) :
    mulIv p i (add b c) = add (mulIv p i b) (mulIv p i c) := by
  obtain ⟨hm, -⟩ := Params.valid_iff.1 h
  apply BitVec.eq_of_toNat_eq
  rw [toNat_mulIv h i (add_lt hb hc)]
  simp only [add, BitVec.toNat_xor]
  rw [toNat_mulIv h i hb, toNat_mulIv h i hc, iterate_walkStep_xor (by omega)]

theorem mulV_add (h : p.valid = true) {a b c : Value} (ha : a.toNat < p.q) (hb : b.toNat < p.q) (hc : c.toNat < p.q) :
    mulV p a (add b c) = add (mulV p a b) (mulV p a c) := by
  by_cases h0 : a = 0
  · simp [h0, add]
  · obtain ⟨i, rfl⟩ := exists_expt_eq h h0 ha
    simp only [mulV_expt_left h, mulIv_add h i hb hc]

theorem mulV_assoc (h : p.valid = true) {a b c : Value} (ha : a.toNat < p.q) (hb : b.toNat < p.q) (hc : c.toNat < p.q) :
    mulV p (mulV p a b) c = mulV p a (mulV p b c) := by
  by_cases ha0 : a = 0
  · simp [ha0]
  by_cases hb0 : b = 0
  · simp [hb0]
  obtain ⟨i, rfl⟩ := exists_expt_eq h ha0 ha
  obtain ⟨j, rfl⟩ := exists_expt_eq h hb0 hb
  rw [mulV_expt_left h, mulIv_expt h, mulV_expt_left h, mulV_expt_left h, mulV_expt_left h, mulIv_mulIv h i j hc]

theorem one_mulV (h : p.valid = true) {a : Value} (ha : a.toNat < p.q) : mulV p 1 a = a := by
  rw [← expt_zero h, ← Nat.zero_mod p.n, mulV_expt_left h]
  by_cases h0 : a = 0
  · simp [h0]
  · obtain ⟨i, rfl⟩ := exists_expt_eq h h0 ha
    rw [mulIv_expt h, Nat.zero_add]

theorem mulV_rcp (h : p.valid = true) {a : Value} (h0 : a ≠ 0) (ha : a.toNat < p.q) : mulV p a (rcp p a) = 1 := by
  obtain ⟨hlog, -⟩ := alphaPow_logt h h0 ha
  have hexp : expt p (logt p a % p.n) = a := by rw [Nat.mod_eq_of_lt hlog, expt_logt h h0 ha]
  calc mulV p a (rcp p a)
    _ = mulV p (expt p (logt p a % p.n)) (expt p ((p.n - logt p a) % p.n)) := by rw [hexp, rcp]
    _ = expt p ((logt p a + (p.n - logt p a)) % p.n) := by rw [mulV_expt_left h, mulIv_expt h]
    _ = 1 := by rw [Nat.add_sub_cancel' hlog.le, Nat.mod_self, expt_zero h]

/-- The symbols of a unit, the M-bit patterns. -/
abbrev Elem (p : Params) : Type := { x : Value // x.toNat < p.q }

theorem one_lt_q (h : p.valid = true) : (1 : Value).toNat < p.q := by
  have := Params.bounds h
  simpa using by omega

/-- The symbols of a legal unit are a field, with the model's own `add`, `mulV` and `rcp` (R119). -/
abbrev elemField (h : p.valid = true) : Field (Elem p) where
  add a b := ⟨add a.1 b.1, add_lt a.2 b.2⟩
  zero := ⟨0, p.q_pos⟩
  neg a := a
  mul a b := ⟨mulV p a.1 b.1, mulV_lt h a.1 b.1⟩
  one := ⟨1, one_lt_q h⟩
  inv a := if a.1 = 0 then ⟨0, p.q_pos⟩ else ⟨rcp p a.1, expt_lt h _⟩
  add_assoc _ _ _ := Subtype.ext (BitVec.xor_assoc _ _ _)
  zero_add _ := Subtype.ext BitVec.zero_xor
  add_zero _ := Subtype.ext BitVec.xor_zero
  add_comm _ _ := Subtype.ext (BitVec.xor_comm _ _)
  neg_add_cancel _ := Subtype.ext BitVec.xor_self
  nsmul := @nsmulRec _ ⟨⟨0, p.q_pos⟩⟩ ⟨fun a b => ⟨add a.1 b.1, add_lt a.2 b.2⟩⟩
  zsmul := @zsmulRec _ ⟨⟨0, p.q_pos⟩⟩ ⟨fun a b => ⟨add a.1 b.1, add_lt a.2 b.2⟩⟩ ⟨fun a => a⟩
    (@nsmulRec _ ⟨⟨0, p.q_pos⟩⟩ ⟨fun a b => ⟨add a.1 b.1, add_lt a.2 b.2⟩⟩)
  mul_assoc a b c := Subtype.ext (mulV_assoc h a.2 b.2 c.2)
  one_mul a := Subtype.ext (one_mulV h a.2)
  mul_one a := Subtype.ext ((mulV_comm _ _).trans (one_mulV h a.2))
  zero_mul a := Subtype.ext (zero_mulV (p := p) a.1)
  mul_zero a := Subtype.ext (mulV_zero (p := p) a.1)
  left_distrib a b c := Subtype.ext (mulV_add h a.2 b.2 c.2)
  right_distrib a b c := Subtype.ext (by
    change mulV p (add a.1 b.1) c.1 = add (mulV p a.1 c.1) (mulV p b.1 c.1)
    rw [mulV_comm, mulV_add h c.2 a.2 b.2, mulV_comm c.1, mulV_comm c.1])
  mul_comm _ _ := Subtype.ext (mulV_comm _ _)
  exists_pair_ne := ⟨⟨0, p.q_pos⟩, ⟨1, one_lt_q h⟩, fun e => absurd (congrArg Subtype.val e) (by simp)⟩
  mul_inv_cancel a ha := Subtype.ext (by
    have ha0 : a.1 ≠ 0 := fun e => ha (Subtype.ext e)
    change mulV p a.1 (if a.1 = 0 then (⟨0, p.q_pos⟩ : Elem p) else ⟨rcp p a.1, expt_lt h _⟩).1 = 1
    rw [if_neg ha0, mulV_rcp h ha0 a.2])
  inv_zero := if_pos rfl
  nnqsmul := _
  qsmul := _

end Sys2Proof.Machine
end

section
/-! PROOFS. A locator has at most as many locations as its degree (46_rootfinder.md R225): the model's `evalAt` is the
evaluation of a polynomial over the unit's field, and a polynomial has at most as many roots as its degree. -/

namespace Sys2Proof.Machine

open Polynomial

variable {p : Params}

theorem mulIv_mod (i : Nat) (b : Value) : mulIv p (i % p.n) b = mulIv p i b := by simp only [mulIv, Nat.mod_add_mod]

/-- α^r as an element of the field. -/
def powElem (h : p.valid = true) (r : Nat) : Elem p := ⟨expt p (r % p.n), expt_lt h _⟩

theorem powElem_pow (h : p.valid = true) (r j : Nat) : letI := elemField h; powElem h r ^ j = powElem h (j * r) := by
  let := elemField h
  induction j with
  | zero => exact Subtype.ext (show (1 : Value) = expt p (0 * r % p.n) by rw [Nat.zero_mul, Nat.zero_mod, expt_zero h])
  | succ j ih =>
    rw [pow_succ, ih]
    exact Subtype.ext (by
      change mulV p (expt p ((j * r) % p.n)) (expt p (r % p.n)) = expt p (((j + 1) * r) % p.n)
      rw [mulV_expt_left h, mulIv_expt h, Nat.succ_mul])

theorem powElem_injOn (h : p.valid = true) {r r' : Nat} (hr : r < p.n) (hr' : r' < p.n) (he : powElem h r = powElem h r') :
    r = r' := by
  have := congrArg (fun e : Elem p => logt p e.1) he
  simpa [powElem, Nat.mod_eq_of_lt, hr, hr', logt_expt h] using this

/-- The model's sum is the field's sum. -/
theorem val_sum_range (h : p.valid = true) (f : Nat → Elem p) (n : Nat) :
    letI := elemField h; (∑ j ∈ Finset.range n, f j).1 = sumV ((List.range n).map fun j => (f j).1) := by
  let := elemField h
  induction n with
  | zero => rfl
  | succ n ih =>
    rw [Finset.sum_range_succ, List.range_succ, List.map_append, sumV, List.foldl_append, ← sumV, ← ih]
    rfl

/-- The polynomial with coefficients `c 0` to `c d`. -/
noncomputable def coeffPoly (h : p.valid = true) (c : Nat → Elem p) (d : Nat) : letI := elemField h; (Elem p)[X] :=
  letI := elemField h
  ∑ j ∈ Finset.range (d + 1), monomial j (c j)

theorem natDegree_coeffPoly_le (h : p.valid = true) (c : Nat → Elem p) (d : Nat) :
    letI := elemField h; (coeffPoly h c d).natDegree ≤ d := by
  let := elemField h
  refine natDegree_sum_le_of_forall_le _ _ fun j hj => (natDegree_monomial_le _).trans ?_
  have := Finset.mem_range.1 hj
  omega

theorem coeff_coeffPoly (h : p.valid = true) (c : Nat → Elem p) (d : Nat) :
    letI := elemField h; (coeffPoly h c d).coeff d = c d := by
  let := elemField h
  simp [coeffPoly, coeff_monomial]

/-- The value at α^r of the polynomial with coefficients `c 0` to `c d`, as R224 computes it. -/
theorem val_eval_coeffPoly (h : p.valid = true) (c : Nat → Elem p) (d r : Nat) :
    letI := elemField h
    ((coeffPoly h c d).eval (powElem h r)).1 =
      sumV ((List.range (d + 1)).map fun j => mulIv p ((j * r) % p.n) (c j).1) := by
  let := elemField h
  rw [coeffPoly, eval_finsetSum, val_sum_range h]
  congr 2
  funext j
  rw [eval_monomial, powElem_pow h, mul_comm]
  change mulV p (expt p ((j * r) % p.n)) (c j).1 = _
  rw [mulV_expt_left h, mulIv_mod]

/-- A polynomial of degree `d` vanishes at no more than `d` of a list of different exponents. -/
theorem length_le_of_forall_eval_eq_zero (h : p.valid = true) {c : Nat → Elem p} {d : Nat} (hlead : (c d).1 ≠ 0) {rs : List Nat}
    (hnd : rs.Nodup) (hlt : ∀ r ∈ rs, r < p.n)
    (hroot : ∀ r ∈ rs, sumV ((List.range (d + 1)).map fun j => mulIv p ((j * r) % p.n) (c j).1) = 0) : rs.length ≤ d := by
  let := elemField h
  by_contra hlong
  have hzero : coeffPoly h c d = 0 := by
    refine eq_zero_of_natDegree_lt_card_of_eval_eq_zero (ι := Fin rs.length) _ (f := fun i => powElem h (rs.get i)) ?_ ?_ ?_
    · exact fun i j he => hnd.injective_get (powElem_injOn h (hlt _ (List.get_mem rs i)) (hlt _ (List.get_mem rs j)) he)
    · exact fun i => Subtype.ext ((val_eval_coeffPoly h c d _).trans (hroot _ (List.get_mem rs i)))
    · have := natDegree_coeffPoly_le h c d
      rw [Fintype.card_fin]
      omega
  have hd := coeff_coeffPoly h c d
  rw [hzero, coeff_zero] at hd
  exact hlead (congrArg Subtype.val hd.symm)

/-- Different positions have different roots (45_eseed_bm.md R200). -/
theorem rootOfPosition_injOn {a b : Nat} (ha : a < p.n) (hb : b < p.n) (he : rootOfPosition p a = rootOfPosition p b) :
    a = b := by
  have hmod : a ≡ b [MOD p.n] := Nat.ModEq.add_right_cancel' 1 he
  rwa [Nat.ModEq, Nat.mod_eq_of_lt ha, Nat.mod_eq_of_lt hb] at hmod

theorem rootOfPosition_lt (h : p.valid = true) (pos : Nat) : rootOfPosition p pos < p.n := Nat.mod_lt _ (n_pos h)

/-- The Chien search finds at most DEG positions. -/
theorem length_rootsChien_le (h : p.valid = true) {lam : List Value} {d : Nat} (hlen : d < lam.length)
    (hsym : ∀ x ∈ lam, x.toNat < p.q) (hlead : lam.getD d 0 ≠ 0) : (rootsChien p lam d).length ≤ d := by
  have hcoeff : ∀ j, (lam.getD j 0).toNat < p.q := fun j => by
    rcases Nat.lt_or_ge j lam.length with hj | hj
    · rw [List.getD_eq_getElem _ _ hj]
      exact hsym _ (List.getElem_mem hj)
    · rw [List.getD_eq_default _ _ hj]
      exact p.q_pos
  have hpos : ∀ pos ∈ rootsChien p lam d, pos < p.n ∧ evalAt p (lam.take (d + 1)) (rootOfPosition p pos) = 0 := fun pos hm => by
    simpa [rootsChien] using hm
  rw [← List.length_map (rootOfPosition p)]
  refine length_le_of_forall_eval_eq_zero h (c := fun j => ⟨lam.getD j 0, hcoeff j⟩) hlead ?_ ?_ ?_
  · refine List.Nodup.map_on (fun a ha b hb he => ?_) (List.nodup_range.filter _)
    exact rootOfPosition_injOn (hpos a ha).1 (hpos b hb).1 he
  · exact List.forall_mem_map.2 fun pos _ => rootOfPosition_lt h pos
  · refine List.forall_mem_map.2 fun pos hm => ?_
    obtain ⟨-, heval⟩ := hpos pos hm
    rw [evalAt, List.length_take_of_le hlen] at heval
    refine (congrArg sumV (List.map_congr_left fun j hj => ?_)).trans heval
    have hj' := List.mem_range.1 hj
    simp only [List.getD_eq_getElem?_getD, List.getElem?_take_of_lt hj']

/-- ROOTS finds at most DEG locations (R225). -/
theorem length_findRoots_le (h : p.valid = true) {lam : List Value} {d : Nat} (hlen : d < lam.length)
    (hsym : ∀ x ∈ lam, x.toNat < p.q) (hlead : d ≠ 0 → lam.getD d 0 ≠ 0) : (findRoots p lam d).length ≤ d := by
  unfold findRoots
  split
  · exact Nat.le_refl 0
  · exact Nat.le_refl 1
  · unfold rootsDeg2
    simp only
    split
    · exact Nat.zero_le 2
    · split
      · exact Nat.zero_le 2
      · exact Nat.le_refl 2
  · rename_i hd0 _ _
    exact length_rootsChien_le h hlen hsym (hlead hd0)

/-- Every location is a position (10_state.md R41). -/
theorem lt_of_mem_findRoots (h : p.valid = true) {lam : List Value} {d l : Nat} (hl : l ∈ findRoots p lam d) : l < p.n := by
  unfold findRoots at hl
  split at hl
  · cases hl
  · rw [List.mem_singleton.1 hl]
    exact idiv_lt h _ _
  · unfold rootsDeg2 at hl
    simp only at hl
    split at hl
    · cases hl
    · split at hl
      · cases hl
      · rcases List.mem_pair.1 hl with rfl | rfl <;> exact idiv_lt h _ _
  · exact List.mem_range.1 (List.mem_filter.1 hl).1

end Sys2Proof.Machine
end

section
/-! PROOFS. What each command but the codec stages can do: one register or one array element written, or the fault latch
(42_moves.md R160 to R168, 40_field_alu.md R120 to R129, 60_exceptions.md R262). -/

namespace Sys2Proof.Machine

/-- What a computation of a command can end with: a result with `post`, one of the faults `causes`, or a refusal. -/
def Meets {α : Type} (causes : List Cause) (post : α → Prop) : Run α → Prop
  | .ok a => post a
  | .error (.raise c) => c ∈ causes
  | .error (.refuse _) => True

theorem Meets.bind {α β : Type} {causes : List Cause} {mid : α → Prop} {post : β → Prop} {r : Run α} {f : α → Run β}
    (hr : Meets causes mid r) (hf : ∀ a, mid a → Meets causes post (f a)) : Meets causes post (r >>= f) := by
  match r, hr with
  | .ok a, ha => exact hf a ha
  | .error (.raise _), hc => exact hc
  | .error (.refuse _), _ => exact trivial

theorem Meets.ok {α : Type} {causes : List Cause} {post : α → Prop} {a : α} (h : post a) : Meets causes post (.ok a) := h

theorem immOperand_meets {causes : List Cause} (hc : .range ∈ causes) (s : State) (imm : BitVec 16) :
    Meets causes (fun x => x.toNat < s.params.q) (immOperand s imm) := by
  unfold immOperand
  split
  · assumption
  · exact hc

theorem factorOperand_meets {causes : List Cause} (hc : .sentinel ∈ causes) (s : State) (r : IReg) :
    Meets causes (fun _ => True) (factorOperand s r) := by
  unfold factorOperand
  split
  · exact hc
  · exact trivial

theorem divisorOperand_meets {causes : List Cause} (hc : .divZero ∈ causes) (s : State) (r : VReg) :
    Meets causes (fun _ => True) (divisorOperand s r) := by
  unfold divisorOperand
  split
  · exact hc
  · exact trivial

theorem memOperand_meets {causes : List Cause} (hi : .illegal ∈ causes) (hr : .range ∈ causes) (s : State) (space : Option Space)
    (idx : BitVec 16) :
    Meets causes (fun l => space = some l.1 ∧ l.2 < l.1.size s.params ∧ l.2 = idx.toNat) (memOperand s space idx) := by
  cases space with
  | none => exact hi
  | some sp =>
    unfold memOperand
    simp only
    split
    · exact ⟨rfl, ‹_›, rfl⟩
    · exact hr

theorem readElem_meets (causes : List Cause) (s : State) (sp : Space) (k : Nat) :
    Meets causes (fun x => s.elem sp k = some x) (readElem s sp k) := by
  unfold readElem
  split
  · assumption
  · exact trivial

/-- A command that completes has met its postcondition or has taken one of its faults over the state it started from. -/
theorem complete_meets {causes : List Cause} {post : State → Prop} {i : Instr} {s t : State} {r : Run State}
    (h : complete i s r = .next t) (hr : Meets causes post r) : post t ∨ ∃ c ∈ causes, t = raiseFault (encode i) c s := by
  rcases complete_eq_next h with rfl | ⟨c, rfl, ht⟩
  · exact .inl hr
  · exact .inr ⟨c, hr, ht⟩

/-- In a legal state every element of every space is an M-bit pattern (10_state.md R23, R24, R36 to R43). -/
theorem State.Inv.elem_lt {s : State} (hs : s.Inv) {sp : Space} {k : Nat} {x : Symbol} (hx : s.elem sp k = some x) :
    x.toNat < s.params.q := by
  have harray : ∀ a, Memory.find a s.mem = some x → x.toNat < s.params.q := fun a h => hs.memSymbols _ (Memory.mem_of_find h)
  cases sp with
  | code | eras | syn | lambda | omega | loc | mag => exact harray _ hx
  | g => cases hx; exact toIndex_lt hs.paramsLegal (logt_le _ _)
  | logt => cases hx; exact toIndex_lt hs.paramsLegal (logt_le _ _)
  | expt => cases hx; exact expt_lt hs.paramsLegal _
  | asit => cases hx; exact asit_lt _
  | vreg =>
    obtain ⟨hk, rfl⟩ := Vector.getElem?_eq_some_iff.1 hx
    exact hs.vregSymbols ⟨k, hk⟩
  | ireg =>
    obtain ⟨hk, rfl⟩ := Vector.getElem?_eq_some_iff.1 hx
    exact hs.iregSymbols ⟨k, hk⟩
  | csr => cases hx

/-- `t` is `s` with some `x` written to V[d]; from a legal state `x` is an M-bit pattern. -/
def WritesV (d : VReg) (s t : State) : Prop := ∃ x, (s.Inv → x.toNat < s.params.q) ∧ t = s.setV d x

/-- `t` is `s` with some `x` written to I[d]; from a legal state `x` is an M-bit pattern. -/
def WritesI (d : IReg) (s t : State) : Prop := ∃ x, (s.Inv → x.toNat < s.params.q) ∧ t = s.setI d x

/-- `t` is `s` with some `x` written to an element of CODE or ERAS; from a legal state `x` is an M-bit pattern. -/
def WritesStored (s t : State) : Prop :=
  ∃ sp k x, (sp = .code ∨ sp = .eras) ∧ k < sp.size s.params ∧ (s.Inv → x.toNat < s.params.q) ∧ t = s.setElem sp k x

/-- The value register a command has as its destination (10_state.md R23). -/
def valueDest : Instr → Option VReg
  | .ldiv d _ | .ldv d _ _ | .exp d _ | .fadd d _ _ | .vmul d _ _ | .vdiv d _ _ | .vrcp d _ | .fmavv d _ _ _ | .fmaiv d _ _ _
  | .fmaii d _ _ _ | .asim d _ => some d
  | _ => none

/-- The index register a command has as its destination (10_state.md R24). -/
def indexDest : Instr → Option IReg
  | .ldii d _ | .ldx d _ _ | .log d _ | .imul d _ _ | .idiv d _ _ => some d
  | _ => none

/-- The faults of the commands with a value register as destination (60_exceptions.md R261). -/
def valueFaults : List Cause := [.range, .illegal, .divZero, .sentinel]

/-- The faults of the commands with an index register as destination. -/
def indexFaults : List Cause := [.range, .illegal, .sentinel]

/-- The faults of STV and STX. -/
def storeFaults : List Cause := [.range, .illegal]

/-- Everything a command with a value register as destination can do. -/
theorem exec_of_valueDest {d : VReg} {i : Instr} {s t : State} (hd : valueDest i = some d) (h : exec i s = .next t) :
    WritesV d s t ∨ ∃ c ∈ valueFaults, t = raiseFault (encode i) c s := by
  cases i <;> cases hd
  case ldiv.refl imm =>
    exact complete_meets h <| (immOperand_meets (by decide) s imm).bind fun x hx => .ok ⟨x, fun _ => hx, rfl⟩
  case ldv.refl sp idx =>
    exact complete_meets h <| (memOperand_meets (by decide) (by decide) s _ idx).bind fun (space, k) _ =>
      (readElem_meets _ s space k).bind fun x hx => .ok ⟨x, fun hs => hs.elem_lt hx, rfl⟩
  case exp.refl a => exact .inl ⟨_, fun hs => expt_lt hs.paramsLegal _, by cases h; rfl⟩
  case fadd.refl a b => exact .inl ⟨_, fun hs => add_lt (hs.vregSymbols a) (hs.vregSymbols b), by cases h; rfl⟩
  case vmul.refl a b => exact .inl ⟨_, fun hs => mulV_lt hs.paramsLegal _ _, by cases h; rfl⟩
  case vdiv.refl a b =>
    exact complete_meets h <| (divisorOperand_meets (by decide) s b).bind fun y _ =>
      .ok ⟨_, fun hs => divV_lt hs.paramsLegal _ _, rfl⟩
  case vrcp.refl a =>
    exact complete_meets h <| (divisorOperand_meets (by decide) s a).bind fun y _ =>
      .ok ⟨_, fun hs => expt_lt hs.paramsLegal _, rfl⟩
  case fmavv.refl a b c =>
    exact .inl ⟨_, fun hs => add_lt (mulV_lt hs.paramsLegal _ _) (hs.vregSymbols c), by cases h; rfl⟩
  case fmaiv.refl a b c =>
    exact complete_meets h <| (factorOperand_meets (by decide) s a).bind fun j _ =>
      .ok ⟨_, fun hs => fmaIv_lt hs.paramsLegal j (s.v b) (hs.vregSymbols c), rfl⟩
  case fmaii.refl a b c =>
    exact complete_meets h <| (factorOperand_meets (by decide) s a).bind fun j _ =>
      (factorOperand_meets (by decide) s b).bind fun k _ =>
        .ok ⟨_, fun hs => fmaIi_lt hs.paramsLegal j k (hs.vregSymbols c), rfl⟩
  case asim.refl a => exact .inl ⟨_, fun _ => asit_lt _, by cases h; rfl⟩

/-- Everything a command with an index register as destination can do. -/
theorem exec_of_indexDest {d : IReg} {i : Instr} {s t : State} (hd : indexDest i = some d) (h : exec i s = .next t) :
    WritesI d s t ∨ ∃ c ∈ indexFaults, t = raiseFault (encode i) c s := by
  cases i <;> cases hd
  case ldii.refl imm =>
    exact complete_meets h <| (immOperand_meets (by decide) s imm).bind fun x hx => .ok ⟨x, fun _ => hx, rfl⟩
  case ldx.refl sp idx =>
    exact complete_meets h <| (memOperand_meets (by decide) (by decide) s _ idx).bind fun (space, k) _ =>
      (readElem_meets _ s space k).bind fun x hx => .ok ⟨x, fun hs => hs.elem_lt hx, rfl⟩
  case log.refl a => exact .inl ⟨_, fun hs => toIndex_lt hs.paramsLegal (logt_le _ _), by cases h; rfl⟩
  case imul.refl a b =>
    exact complete_meets h <| (factorOperand_meets (by decide) s a).bind fun j _ =>
      (factorOperand_meets (by decide) s b).bind fun k _ =>
        .ok ⟨_, fun hs => toIndex_lt hs.paramsLegal (imul_lt hs.paramsLegal j k).le, rfl⟩
  case idiv.refl a b =>
    exact complete_meets h <| (factorOperand_meets (by decide) s a).bind fun j _ =>
      (factorOperand_meets (by decide) s b).bind fun k _ =>
        .ok ⟨_, fun hs => toIndex_lt hs.paramsLegal (idiv_lt hs.paramsLegal j k).le, rfl⟩

/-- STV stores to CODE only, STX to ERAS only (42_moves.md R164, R166). -/
theorem stvSpace_eq_some {sp : BitVec 4} {space : Space} (h : stvSpace sp = some space) : space = .code := by
  unfold stvSpace at h
  split at h <;> cases h
  rfl

theorem stxSpace_eq_some {sp : BitVec 4} {space : Space} (h : stxSpace sp = some space) : space = .eras := by
  unfold stxSpace at h
  split at h <;> cases h
  rfl

/-- Everything STV can do. -/
theorem exec_stv {r : VReg} {sp : BitVec 4} {idx : BitVec 16} {s t : State} (h : exec (.stv r sp idx) s = .next t) :
    WritesStored s t ∨ ∃ c ∈ storeFaults, t = raiseFault (encode (.stv r sp idx)) c s :=
  complete_meets h <| (memOperand_meets (by decide) (by decide) s _ idx).bind fun (space, k) ⟨hspace, hk, _⟩ =>
    .ok ⟨space, k, s.v r, .inl (stvSpace_eq_some hspace), hk, fun hs => hs.vregSymbols r, rfl⟩

/-- Everything STX can do. -/
theorem exec_stx {r : IReg} {sp : BitVec 4} {idx : BitVec 16} {s t : State} (h : exec (.stx r sp idx) s = .next t) :
    WritesStored s t ∨ ∃ c ∈ storeFaults, t = raiseFault (encode (.stx r sp idx)) c s :=
  complete_meets h <| (memOperand_meets (by decide) (by decide) s _ idx).bind fun (space, k) ⟨hspace, hk, _⟩ =>
    .ok ⟨space, k, s.ireg[r], .inr (stxSpace_eq_some hspace), hk, fun hs => hs.iregSymbols r, rfl⟩

/-- The commands that run a stage of the codec (43_encoder.md to 48_decode.md). -/
def codecCommands : List Instr := [.encode, .synd, .eseed, .bm, .roots, .forney, .decode]

/-- What a command that is no codec command, or a host write of an element, can do. -/
inductive SmallEffect (s : State) : State → Prop
  | idle : SmallEffect s s
  | value {t} (d : VReg) (h : WritesV d s t) : SmallEffect s t
  | index {t} (d : IReg) (h : WritesI d s t) : SmallEffect s t
  | store {t} (h : WritesStored s t) : SmallEffect s t
  | fault (w : Word) (c : Cause) : SmallEffect s (raiseFault w c s)

theorem SmallEffect.of_fault {s t : State} {causes : List Cause} {w : Word} (h : ∃ c ∈ causes, t = raiseFault w c s) :
    SmallEffect s t := by
  obtain ⟨c, -, rfl⟩ := h
  exact .fault w c

/-- A command is a codec command, or NOP, or it has a register as its destination, or it is a store. -/
theorem exec_smallEffect {i : Instr} {s t : State} (hi : i ∉ codecCommands) (h : exec i s = .next t) : SmallEffect s t := by
  cases i with
  | nop => cases h; exact .idle
  | stv r sp idx => exact (exec_stv h).elim .store .of_fault
  | stx r sp idx => exact (exec_stx h).elim .store .of_fault
  | ldiv | ldv | exp | fadd | vmul | vdiv | vrcp | fmavv | fmaiv | fmaii | asim =>
    exact (exec_of_valueDest rfl h).elim (.value _) .of_fault
  | ldii | ldx | log | imul | idiv => exact (exec_of_indexDest rfl h).elim (.index _) .of_fault
  | encode | synd | eseed | bm | roots | forney | decode => exact absurd (by decide) hi

end Sys2Proof.Machine
end

section
/-! PROOFS. Frames of the register commands (10_state.md R23, R24, 60_exceptions.md R262). -/

namespace Sys2Proof.Machine

/-- Writing V leaves every element of every other space. -/
theorem elem_setV_other (s : State) (d : VReg) (x : Value) {sp : Space} (hsp : sp ≠ .vreg) (k : Nat) :
    (s.setV d x).elem sp k = s.elem sp k := by
  cases sp
  case vreg => exact absurd rfl hsp
  all_goals rfl

/-- Writing I leaves every element of every other space. -/
theorem elem_setI_other (s : State) (d : IReg) (x : Index) {sp : Space} (hsp : sp ≠ .ireg) (k : Nat) :
    (s.setI d x).elem sp k = s.elem sp k := by
  cases sp
  case ireg => exact absurd rfl hsp
  all_goals rfl

@[simp] theorem elem_raiseFault (w : Word) (c : Cause) (s : State) (sp : Space) (k : Nat) :
    (raiseFault w c s).elem sp k = s.elem sp k := elem_congr (by simp) (by simp) (by simp) (by simp) sp k

@[simp] theorem v_raiseFault (w : Word) (c : Cause) (s : State) (r : VReg) : (raiseFault w c s).v r = s.v r := by simp [State.v]

@[simp] theorem i_raiseFault (w : Word) (c : Cause) (s : State) (r : IReg) : (raiseFault w c s).i r = s.i r := by simp [State.i]

/-- A fault changes the latch alone. -/
theorem exists_raiseFault_eq (w : Word) (c : Cause) (s : State) :
    ∃ st fi, raiseFault w c s = { s with status := st, finfo := fi } := by
  rcases raiseFault_cases w c s with ⟨-, e⟩ | ⟨-, e⟩
  · exact ⟨s.status, s.finfo, e⟩
  · exact ⟨_, _, e⟩

/-- Settles O21: the command writes its destination, or its fault changes the latch alone. -/
theorem valueRegisterCommandFrame : Obligations.ValueRegisterCommandFrame := by
  intro s t d a b c imm sp i hi h
  have hd : valueDest i = some d := by
    revert i
    simp [valueDest]
  rcases exec_of_valueDest hd h with ⟨x, -, rfl⟩ | ⟨cause, hcause, rfl⟩
  · exact ⟨fun r hr => State.v_setV_other s d r x hr, fun space k hsp => elem_setV_other s d x hsp k, rfl, .inl ⟨rfl, rfl⟩⟩
  · refine ⟨fun r _ => v_raiseFault _ _ s r, fun space k _ => elem_raiseFault _ _ s space k, ?_, .inr ?_⟩
    · obtain ⟨st, fi, e⟩ := exists_raiseFault_eq (encode i) cause s
      rw [e]
    · simp only [valueFaults, List.mem_cons, List.not_mem_nil, or_false] at hcause
      rcases hcause with rfl | rfl | rfl | rfl <;> simp

/-- Settles O22: the command writes its destination, or its fault changes the latch alone. -/
theorem indexRegisterCommandFrame : Obligations.IndexRegisterCommandFrame := by
  intro s t d a b imm sp i hi h
  have hd : indexDest i = some d := by
    revert i
    simp [indexDest]
  rcases exec_of_indexDest hd h with ⟨x, -, rfl⟩ | ⟨cause, hcause, rfl⟩
  · exact ⟨fun r hr => State.i_setI_other s d r x hr, fun space k hsp => elem_setI_other s d x hsp k, rfl, .inl ⟨rfl, rfl⟩⟩
  · refine ⟨fun r _ => i_raiseFault _ _ s r, fun space k _ => elem_raiseFault _ _ s space k, ?_, .inr ?_⟩
    · obtain ⟨st, fi, e⟩ := exists_raiseFault_eq (encode i) cause s
      rw [e]
    · simp only [indexFaults, List.mem_cons, List.not_mem_nil, or_false] at hcause
      rcases hcause with rfl | rfl | rfl <;> simp

end Sys2Proof.Machine
end

section
/-! PROOFS. The codec commands are made of few parts (43_encoder.md to 48_decode.md): a property that the parts keep is kept
by every codec command, DECODE's exits and latched faults included. -/

namespace Sys2Proof.Machine

/-- A property of states that every part of a codec command keeps: the fault latch, the parity of ENCODE, the syndromes, the
four stages of DECODE, and RESULT set to −1 or to a count. -/
structure CodecClosed (P : State → Prop) : Prop where
  fault {s : State} (w : Word) (c : Cause) : P s → P (raiseFault w c s)
  parity {s : State} {msg : List Value} : P s → readRange s .code 0 s.params.k = .ok msg →
    P (s.setRange .code s.params.k (parity s.params msg))
  syndromes {s : State} {syn : List Value} : P s → readSyndromes s = .ok syn → P (s.setRange .syn 0 syn)
  eseed {s t : State} : P s → eseedStage s = .ok t → P t
  bm {s t : State} : P s → bmStage s = .ok t → P t
  roots {s t : State} : P s → rootsStage s = .ok t → P t
  forney {s t : State} : P s → forneyStage s = .ok t → P t
  result {s : State} {w : Word} : P s → (w = 0xFFFFFFFF#32 ∨ w.toNat ≤ s.params.nr) → P (s.setResult w)

theorem toNat_countWord_le (xs : List Value) : (countWord xs).toNat ≤ xs.length := by
  rw [countWord, BitVec.toNat_ofNat]
  exact (Nat.mod_le _ _).trans (List.length_filter_le _ _)

theorem length_of_readSyndromes {s : State} {syn : List Value} (h : readSyndromes s = .ok syn) : syn.length = s.params.nr := by
  obtain ⟨code, -, rfl⟩ := readSyndromes_eq_ok.1 h
  exact syndromes_length _ _

namespace CodecClosed

variable {P : State → Prop} (hP : CodecClosed P)
include hP

theorem complete {i : Instr} {s t : State} {r : Run State} (hr : r = .ok t → P t) (hs : P s) (h : complete i s r = .next t) :
    P t := by
  rcases complete_eq_next h with hok | ⟨c, -, rfl⟩
  · exact hr hok
  · exact hP.fault _ c hs

theorem decodeStage {stage : State → Run State} {s t : State} {rest : State → Host.Outcome State Fault Refusal}
    (hstage : ∀ {u}, stage s = .ok u → P u) (hrest : ∀ {u}, P u → rest u = .next t → P t) (hs : P s)
    (h : decodeStage stage s rest = .next t) : P t := by
  rcases decodeStage_eq_next h with ⟨u, hu, ht⟩ | ⟨c, -, rfl⟩
  · exact hrest (hstage hu) ht
  · exact hP.fault _ c hs

/-- Steps 3 to 6 of R250. -/
theorem decodeNonzero {s t : State} (hs : P s) (h : decodeNonzero s = .next t) : P t := by
  refine hP.decodeStage (hP.eseed hs) (fun h1 h => ?_) hs h
  refine hP.decodeStage (hP.bm h1) (fun h2 h => ?_) h1 h
  refine hP.decodeStage (hP.roots h2) (fun h3 h => ?_) h2 h
  split at h
  · cases h
    exact hP.result h3 (.inl rfl)
  · refine hP.decodeStage (hP.forney h3) (fun h4 h => ?_) h3 h
    cases h
    exact h4

theorem execDecode {s t : State} (hs : P s) (h : execDecode s = .next t) : P t := by
  unfold Machine.execDecode at h
  split at h
  · exact hP.complete (fun e => by cases e) hs h
  · split at h
    · exact hP.complete (fun e => by cases e) hs h
    · rename_i syn hsyn
      have hsyn' := hP.syndromes hs hsyn
      split at h
      · cases h
        exact hP.result hsyn' (.inr (Nat.zero_le _))
      · exact hP.decodeNonzero hsyn' h

theorem execSynd {s t : State} (hs : P s) (h : execSynd s = .next t) : P t := by
  obtain ⟨syn, hsyn, rfl⟩ := execSynd_eq_next h
  refine hP.result (hP.syndromes hs hsyn) (.inr ?_)
  rw [State.setRange_params, ← length_of_readSyndromes hsyn]
  exact toNat_countWord_le syn

/-- The parts keep `P`, so every codec command does. -/
theorem exec {i : Instr} {s t : State} (hi : i ∈ codecCommands) (hs : P s) (h : exec i s = .next t) : P t := by
  cases i with
  | encode =>
    obtain ⟨msg, hmsg, rfl⟩ := execEncode_eq_next h
    exact hP.parity hs hmsg
  | synd => exact hP.execSynd hs h
  | eseed => exact hP.complete (hP.eseed hs) hs h
  | bm => exact hP.complete (hP.bm hs) hs h
  | roots => exact hP.complete (hP.roots hs) hs h
  | forney => exact hP.complete (hP.forney hs) hs h
  | decode => exact hP.execDecode hs h
  | _ => simp [codecCommands] at hi

end CodecClosed

end Sys2Proof.Machine
end

section
/-! PROOFS. The lengths of what the stages write (43_encoder.md R181, 45_eseed_bm.md R201, R205, 46_rootfinder.md R225). -/

namespace Sys2Proof.Machine

variable {p : Params}

theorem length_encodePass {taps : List Nat} {par : List Value} (ht : taps.length = par.length) (hpos : 0 < par.length)
    (c : Value) : (encodePass p taps par c).length = par.length := by
  unfold encodePass
  simp only
  split
  · simp
    omega
  · simp [ht]
    omega

theorem length_parity (hnr : 1 ≤ p.nr) (msg : List Value) : (parity p msg).length = p.nr := by
  refine List.foldlRecOn msg _ (motive := fun par : List Value => par.length = p.nr) List.length_replicate fun par hpar c _ => ?_
  rw [length_encodePass (by simp [feedbackTaps, hpar]) (by omega), hpar]

theorem length_seedPass (lam : List Value) (pos : Nat) : (seedPass p lam pos).length = lam.length := by simp [seedPass]

theorem length_seedLocator (es : List Nat) : (seedLocator p es).length = p.nr + 1 := by
  refine List.foldlRecOn es _ (motive := fun lam : List Value => lam.length = p.nr + 1) (by simp) fun lam hlam e _ => ?_
  rw [length_seedPass, hlam]

/-- The shape of BM's temporaries: both lists have NR + 1 entries, lam[0] is what it was, and L is in [e, NR] (R205). -/
structure BmShape (p : Params) (lam0 : Value) (e : Nat) (st : BmState) : Prop where
  lamLength : st.lam.length = p.nr + 1
  bLength : st.b.length = p.nr + 1
  lamHead : st.lam.getD 0 0 = lam0
  lenLower : e ≤ st.len
  lenUpper : st.len ≤ p.nr

theorem length_shiftB {b : List Value} (hb : b.length = p.nr + 1) : (shiftB p b).length = p.nr + 1 := by simp [shiftB, hb]

/-- Subtracting a multiple of x · B leaves lam[0]. -/
theorem head_update {lam : List Value} (c : Value) (b : List Value) (hlam : 0 < lam.length) :
    (List.zipWith (fun l x => add l (mulV p c x)) lam (shiftB p b)).getD 0 0 = lam.getD 0 0 := by
  cases lam with
  | nil => simp at hlam
  | cons l lam => simp [shiftB, add]

/-- A pass keeps the shape. L grows only when 2 · L ≤ n + e, and then to n + 1 − (L − e) ≤ n + 1. -/
theorem BmShape.bmPass {lam0 : Value} {e n : Nat} {st : BmState} (hst : BmShape p lam0 e st) (hn : n < p.nr) (syn : List Value) :
    BmShape p lam0 e (bmPass p syn e st n) := by
  obtain ⟨hlam, hb, hhead, hlower, hupper⟩ := hst
  have hlam' : ∀ c, (List.zipWith (fun l x => add l (mulV p c x)) st.lam (shiftB p st.b)).length = p.nr + 1 := fun c => by
    simp [hlam, length_shiftB hb]
  have hhead' := fun c => (head_update (p := p) c st.b (by omega : 0 < st.lam.length)).trans hhead
  unfold Machine.bmPass
  simp only
  split
  · exact ⟨hlam, length_shiftB hb, hhead, hlower, hupper⟩
  · split
    · exact ⟨hlam' _, hlam, hhead' _, by dsimp only; omega, by dsimp only; omega⟩
    · exact ⟨hlam' _, length_shiftB hb, hhead' _, hlower, hupper⟩

theorem bmShape_berlekampMassey {syn lam : List Value} {e : Nat} (he : e ≤ p.nr) (hlam : lam.length = p.nr + 1) :
    BmShape p (lam.getD 0 0) e (berlekampMassey p syn lam e) := by
  refine List.foldlRecOn _ _ (motive := BmShape p (lam.getD 0 0) e) ⟨hlam, hlam, rfl, Nat.le_refl e, he⟩ fun st hst n hn => ?_
  have hrange := List.mem_range'_1.1 hn
  exact hst.bmPass (by omega) syn

theorem length_findRoots_le_n (h : p.valid = true) (lam : List Value) (d : Nat) : (findRoots p lam d).length ≤ p.n := by
  have hn := Params.bounds h
  unfold findRoots
  split
  · exact Nat.zero_le _
  · simp [rootsDeg1]
    omega
  · unfold rootsDeg2
    simp only
    split
    · exact Nat.zero_le _
    · split
      · exact Nat.zero_le _
      · simp
        omega
  · exact (List.length_filter_le _ _).trans (List.length_range).le

theorem length_of_readRange {s : State} {sp : Space} {k count : Nat} {xs : List Symbol} (h : readRange s sp k count = .ok xs) :
    xs.length = count := (readRange_eq_ok.1 h).1

theorem length_magnitudes {om lam : List Value} {ls : List Nat} {ms : List Value} (h : magnitudes p om lam ls = .ok ms) :
    ms.length = ls.length := by
  induction ls generalizing ms with
  | nil => cases h; rfl
  | cons l ls ih =>
    obtain ⟨m, -, h⟩ := run_bind_eq_ok.1 h
    obtain ⟨ms', hms, h⟩ := run_bind_eq_ok.1 h
    cases h
    simp [ih hms]

end Sys2Proof.Machine
end

section
/-! PROOFS. What the codec commands leave alone (10_state.md R23, R24, R30, R37) and who writes the counts (R29, R31 to R33). -/

namespace Sys2Proof.Machine

/-- A recorded location is a 16-bit index. -/
theorem fst_lt_of_mem_zip {locs : List Symbol} {mags : List Value} :
    ∀ x ∈ (locs.map BitVec.toNat).zip mags, x.1 < 65536 := by
  rintro ⟨l, m⟩ hx
  obtain ⟨loc, -, rfl⟩ := List.mem_map.1 (List.of_mem_zip hx).1
  exact loc.isLt

/-- What no codec command changes: the parameters, V, I, ECNT, the model's own fields, and ERAS in a legal unit. -/
structure CodecFrame (s t : State) : Prop where
  params : t.params = s.params
  vreg : t.vreg = s.vreg
  ireg : t.ireg = s.ireg
  ecnt : t.ecnt = s.ecnt
  host : t.host = s.host
  rdata : t.rdata = s.rdata
  eras : s.params.valid = true → ∀ k, k < 65536 → t.elem .eras k = s.elem .eras k

namespace CodecFrame

variable {s t u : State}

theorem refl (s : State) : CodecFrame s s := ⟨rfl, rfl, rfl, rfl, rfl, rfl, fun _ _ _ => rfl⟩

theorem trans (h : CodecFrame s t) (h' : CodecFrame t u) : CodecFrame s u where
  params := h'.params.trans h.params
  vreg := h'.vreg.trans h.vreg
  ireg := h'.ireg.trans h.ireg
  ecnt := h'.ecnt.trans h.ecnt
  host := h'.host.trans h.host
  rdata := h'.rdata.trans h.rdata
  eras hv k hk := (h'.eras (h.params ▸ hv) k hk).trans (h.eras hv k hk)

/-- Updates of the CSRs the codec writes, and of the fault latch. -/
theorem of_mem_eq (hp : t.params = s.params) (hv : t.vreg = s.vreg) (hi : t.ireg = s.ireg) (he : t.ecnt = s.ecnt)
    (hh : t.host = s.host) (hr : t.rdata = s.rdata) (hm : t.mem = s.mem) : CodecFrame s t :=
  ⟨hp, hv, hi, he, hh, hr, fun _ k _ => elem_congr hp hm hv hi .eras k⟩

theorem raiseFault (w : Word) (c : Cause) (s : State) : CodecFrame s (raiseFault w c s) := by
  apply of_mem_eq <;> simp

theorem setResult (w : Word) (s : State) : CodecFrame s (s.setResult w) := of_mem_eq rfl rfl rfl rfl rfl rfl rfl

/-- A range of another space than ERAS. -/
theorem setRange {sp : Space} (hsp : sp ≠ .eras) {j : Nat} {xs : List Symbol}
    (hlen : s.params.valid = true → j + xs.length ≤ 65536) : CodecFrame s (s.setRange sp j xs) where
  params := s.setRange_params sp j xs
  vreg := s.setRange_vreg sp j xs
  ireg := s.setRange_ireg sp j xs
  ecnt := s.setRange_ecnt sp j xs
  host := s.setRange_host sp j xs
  rdata := s.setRange_rdata sp j xs
  eras hv _ hk := elem_setRange_other s xs (hlen hv) hk fun e => hsp e.1.symm

theorem parity (s : State) (msg : List Value) : CodecFrame s (s.setRange .code s.params.k (parity s.params msg)) :=
  setRange (by decide) fun hv => by
    have := Params.bounds hv
    rw [length_parity (by omega)]
    omega

/-- A range of an array of at most NR + 1 elements. -/
theorem setRange_short {sp : Space} (hsp : sp ≠ .eras) {xs : List Symbol} (hlen : xs.length ≤ s.params.nr + 1) :
    CodecFrame s (s.setRange sp 0 xs) :=
  setRange hsp fun hv => by
    have := Params.bounds hv
    omega

theorem eseedStage (h : eseedStage s = .ok t) : CodecFrame s t := by
  obtain ⟨-, es, -, rfl⟩ := eseedStage_eq_ok h
  exact setRange_short (by decide) (length_seedLocator es).le

theorem bmStage (h : bmStage s = .ok t) : CodecFrame s t := by
  obtain ⟨he, lam, syn, hlam, -, rfl⟩ := bmStage_eq_ok h
  have hshape := bmShape_berlekampMassey (syn := syn) he (length_of_readRange hlam)
  exact (setRange_short (by decide) hshape.lamLength.le).trans (of_mem_eq rfl rfl rfl rfl rfl rfl rfl)

theorem rootsStage (h : rootsStage s = .ok t) : CodecFrame s t := by
  obtain ⟨lam, -, rfl⟩ := rootsStage_eq_ok h
  refine (setRange (by decide) fun hv => ?_).trans (of_mem_eq rfl rfl rfl rfl rfl rfl rfl)
  have := Params.bounds hv
  have := length_findRoots_le_n hv lam (trimmedDegree lam s.params.nr)
  rw [List.length_map]
  omega

theorem applyMagnitudes {xs : List (Nat × Value)} (h : applyMagnitudes s xs = .ok t) (hx : ∀ x ∈ xs, x.1 < 65536) :
    CodecFrame s t := by
  obtain ⟨hframe, helem⟩ := applyMagnitudes_frame h hx
  have hfield {α : Type} (f : State → α) : f { t with mem := s.mem } = f s := congrArg f hframe
  exact ⟨hfield State.params, hfield State.vreg, hfield State.ireg, hfield State.ecnt, hfield State.host, hfield State.rdata,
    fun _ k hk => helem .eras k hk (by simp)⟩

theorem forneyStage (h : forneyStage s = .ok t) : CodecFrame s t := by
  obtain ⟨syn, lam, locs, mags, u, -, -, hlocs, hmags, hu, rfl⟩ := forneyStage_eq_ok h
  have hnr : mags.length = s.nroots.toNat := by
    rw [length_magnitudes hmags, List.length_map, length_of_readRange hlocs]
  have homega := setRange_short (s := s) (sp := .omega) (by decide) (xs := evaluator s.params lam syn) (by simp)
  refine homega.trans ((setRange (by decide) fun _ => ?_).trans ((applyMagnitudes hu fst_lt_of_mem_zip).trans (setResult _ u)))
  have := s.nroots.isLt
  omega

/-- The states a codec command can leave, seen from the state it started from. -/
theorem closed (s0 : State) : CodecClosed (CodecFrame s0) where
  fault w c hs := hs.trans (raiseFault w c _)
  parity hs _ := hs.trans (parity _ _)
  syndromes hs hsyn := hs.trans (setRange_short (by decide) (by rw [length_of_readSyndromes hsyn]; omega))
  eseed hs h := hs.trans (eseedStage h)
  bm hs h := hs.trans (bmStage h)
  roots hs h := hs.trans (rootsStage h)
  forney hs h := hs.trans (forneyStage h)
  result hs _ := hs.trans (setResult _ _)

/-- Every codec command keeps the frame. -/
theorem exec {i : Instr} (hi : i ∈ codecCommands) (h : exec i s = .next t) : CodecFrame s t := (closed s).exec hi (refl s) h

end CodecFrame

/-- Settles O56: every part of a codec command keeps the frame. -/
theorem codecCommandsLeaveRegistersAlone : Obligations.CodecCommandsLeaveRegistersAlone := by
  intro i hi s t hs h
  obtain ⟨hp, hv, hx, he, hh, hr, heras⟩ := CodecFrame.exec hi h
  exact ⟨hp, hv, hx, he, hh, hr, heras hs.paramsLegal⟩

/-- Neither the parameters nor RESULT, ECNT or a count differ. -/
structure CountFrame (s t : State) : Prop where
  params : t.params = s.params
  result : t.result = s.result
  ecnt : t.ecnt = s.ecnt
  lreg : t.lreg = s.lreg
  deg : t.deg = s.deg
  nroots : t.nroots = s.nroots

/-- A command that is no codec command writes V, I, CODE, ERAS or the fault latch. -/
theorem SmallEffect.countFrame {s t : State} (h : SmallEffect s t) : CountFrame s t := by
  cases h with
  | idle => exact ⟨rfl, rfl, rfl, rfl, rfl, rfl⟩
  | value d h => obtain ⟨x, -, rfl⟩ := h; exact ⟨rfl, rfl, rfl, rfl, rfl, rfl⟩
  | index d h => obtain ⟨x, -, rfl⟩ := h; exact ⟨rfl, rfl, rfl, rfl, rfl, rfl⟩
  | store h => obtain ⟨sp, k, x, -, -, -, rfl⟩ := h; exact ⟨rfl, rfl, rfl, rfl, rfl, rfl⟩
  | fault w c => constructor <;> simp

/-- FORNEY writes none of LREG, DEG and NROOTS. -/
theorem forneyStage_counts {s t : State} (h : forneyStage s = .ok t) :
    t.lreg = s.lreg ∧ t.deg = s.deg ∧ t.nroots = s.nroots := by
  obtain ⟨syn, lam, locs, mags, u, -, -, -, -, hu, rfl⟩ := forneyStage_eq_ok h
  obtain ⟨hframe, -⟩ := applyMagnitudes_frame hu fst_lt_of_mem_zip
  have hlreg := congrArg State.lreg hframe
  have hdeg := congrArg State.deg hframe
  have hnroots := congrArg State.nroots hframe
  simp only [State.setRange_lreg, State.setRange_deg, State.setRange_nroots] at hlreg hdeg hnroots
  exact ⟨hlreg, hdeg, hnroots⟩

/-- Settles O57: each stage's own writes, command by command; a fault writes no count. -/
theorem countRegistersHaveTheirWriters : Obligations.CountRegistersHaveTheirWriters := by
  intro i s t h
  cases i with
  | encode =>
    obtain ⟨msg, -, rfl⟩ := execEncode_eq_next h
    simp
  | synd =>
    obtain ⟨syn, -, rfl⟩ := execSynd_eq_next h
    simp
  | eseed =>
    rcases complete_eq_next h with h | ⟨c, -, rfl⟩
    · obtain ⟨-, es, -, rfl⟩ := eseedStage_eq_ok h
      simp
    · simp
  | bm =>
    rcases complete_eq_next h with h | ⟨c, -, rfl⟩
    · obtain ⟨-, lam, syn, -, -, rfl⟩ := bmStage_eq_ok h
      simp
    · simp
  | roots =>
    obtain ⟨lam, -, rfl⟩ := rootsStage_eq_ok (execRoots_eq_next h)
    simp
  | forney =>
    rcases complete_eq_next h with h | ⟨c, -, rfl⟩
    · obtain ⟨hlreg, hdeg, hnroots⟩ := forneyStage_counts h
      simp [hlreg, hdeg, hnroots]
    · simp
  | decode => simp
  | _ =>
    obtain ⟨-, hresult, -, hlreg, hdeg, hnroots⟩ := (exec_smallEffect (by simp [codecCommands]) h).countFrame
    exact ⟨fun _ => hresult, fun _ => hlreg, fun _ => ⟨hdeg, hnroots⟩⟩

end Sys2Proof.Machine
end

section
/-! PROOFS. What a step can do (20_memory.md R61 to R65, 10_state.md R27, 70_reset_and_hazards.md R290), and the rules of the
whole machine that follow. -/

namespace Sys2Proof.Machine

/-- A word address is its space field and its index field (20_memory.md R61). -/
theorem append_fields (addr : HostAddr) : spaceField addr ++ indexField addr = addr := by
  rw [spaceField, indexField, BitVec.extractLsb'_append_extractLsb'_eq_extractLsb' (show 16 = 0 + 16 from rfl)]
  exact BitVec.extractLsb'_eq_self

theorem spaceField_append (sp : BitVec 4) (idx : BitVec 16) : spaceField (sp ++ idx) = sp := BitVec.extractLsb'_append_eq_left

theorem indexField_append (sp : BitVec 4) (idx : BitVec 16) : indexField (sp ++ idx) = idx := BitVec.extractLsb'_append_eq_right

/-- A CSR stands at its CSR index in space 13 (R61). -/
theorem locate_csr {p : Params} {addr : HostAddr} {c : Csr} (h : locate p addr = some (.csr c)) :
    spaceField addr = 13#4 ∧ csrOf (indexField addr).toNat = some c := by
  unfold locate at h
  simp only at h
  split at h
  · cases h
  · rename_i hs
    obtain ⟨c', hc, he⟩ := Option.map_eq_some_iff.1 h
    cases he
    exact ⟨BitVec.eq_of_toNat_eq (spaceOf_eq_some.1 hs), hc⟩
  · split at h <;> cases h

/-- The word address of ECNT. -/
theorem eq_of_locate_ecnt {p : Params} {addr : HostAddr} (h : locate p addr = some (.csr .ecnt)) : addr = 0xD0003#20 := by
  obtain ⟨hs, hc⟩ := locate_csr h
  have hk : indexField addr = 3#16 := by
    unfold csrOf at hc
    split at hc <;> cases hc
    exact BitVec.eq_of_toNat_eq ‹_›
  rw [← append_fields addr, hs, hk]
  rfl

/-- What the event `e` can do to the state `s` it was taken from. -/
inductive EventEffect (e : HostEvent) (s : State) : State → Prop
  | small {t} (h : SmallEffect s t) : EventEffect e s t
  | returned {t} (h : SmallEffect s t) (data : Word) : EventEffect e s (returnData t data)
  | reset (he : e = .reset) : EventEffect e s (resetUnit s)
  | ecnt (data : Word) (he : e = .write 0xD0003#20 data) : EventEffect e s { s with ecnt := data.setWidth 16 }
  | codec {t} (i : Instr) (hi : i ∈ codecCommands) (h : exec i s = .next t) : EventEffect e s t

/-- A host write of an element (20_memory.md R63). -/
theorem writeLocation_elem {s t : State} {data : Word} {addr : HostAddr} {sp : Space} {k : Nat}
    (hl : locate s.params addr = some (.elem sp k)) (h : writeLocation s data (.elem sp k) = some t) : SmallEffect s t := by
  obtain ⟨-, hk, -⟩ := locate_elem hl
  rw [writeLocation] at h
  split at h
  · rename_i hdata
    have hx : (data.setWidth 16).toNat < s.params.q := by
      rw [BitVec.toNat_setWidth]
      exact (Nat.mod_le _ _).trans_lt hdata
    cases sp <;> cases h
    case code.refl => exact .store ⟨.code, k, _, .inl rfl, hk, fun _ => hx, rfl⟩
    case eras.refl => exact .store ⟨.eras, k, _, .inr rfl, hk, fun _ => hx, rfl⟩
    case vreg.refl => exact .value _ ⟨_, fun _ => hx, rfl⟩
    case ireg.refl => exact .index _ ⟨_, fun _ => hx, rfl⟩
  · cases h

/-- A host write of a CSR is one of ECNT (20_memory.md R63). -/
theorem writeLocation_csr {s t : State} {data : Word} {c : Csr} (h : writeLocation s data (.csr c) = some t) :
    c = .ecnt ∧ t = { s with ecnt := data.setWidth 16 } := by
  cases c
  case ecnt =>
    rw [writeLocation] at h
    split at h <;> cases h
    exact ⟨rfl, rfl⟩
  all_goals cases h

theorem runCommand_effect {e : HostEvent} {w : Word} {s t : State} (h : runCommand w s = .next t) : EventEffect e s t := by
  rcases runCommand_cases w s with ⟨i, -, hrun⟩ | ⟨r, -, hrun⟩ <;> rw [hrun] at h
  · by_cases hi : i ∈ codecCommands
    · exact .codec i hi h
    · exact .small (exec_smallEffect hi h)
  · cases h
    exact .small (.fault _ _)

theorem hostWrite_effect {addr : HostAddr} {data : Word} {s t : State} (h : hostWrite addr data s = .next t) :
    EventEffect (.write addr data) s t := by
  cases hf : s.faulted with
  | true =>
    rw [hostWrite_of_faulted hf] at h
    cases h
    exact .small .idle
  | false =>
    rcases hostWrite_eq_next hf h with ⟨-, hrun⟩ | ⟨l, hl, -, hw⟩ | rfl
    · exact runCommand_effect hrun
    · cases l with
      | elem sp k => exact .small (writeLocation_elem hl hw)
      | csr c =>
        obtain ⟨rfl, rfl⟩ := writeLocation_csr hw
        exact .ecnt data (by rw [eq_of_locate_ecnt hl])
    · exact .small (.fault _ _)

/-- Everything a step can do: it is idle, or it takes the next event from outside. -/
theorem step_effect {s t : State} (h : step s = .next t) :
    t = s ∨ ∃ e rest, s.host = e :: rest ∧ EventEffect e { s with host := rest } t := by
  rcases step_cases s with ⟨-, hs⟩ | ⟨rest, ⟨he, hs⟩ | ⟨addr, he, hs⟩ | ⟨addr, data, he, hs⟩⟩ <;> rw [hs] at h
  · cases h
    exact .inl rfl
  · cases h
    exact .inr ⟨_, rest, he, .reset rfl⟩
  · refine .inr ⟨_, rest, he, ?_⟩
    rcases hostRead_eq_next h with ⟨data, rfl⟩ | ⟨-, rfl⟩
    · exact .returned .idle data
    · exact .returned (.fault _ _) 0
  · exact .inr ⟨_, rest, he, hostWrite_effect h⟩

theorem step_params {s t : State} (h : step s = .next t) : t.params = s.params := by
  rcases step_effect h with rfl | ⟨e, rest, -, heffect⟩
  · rfl
  · cases heffect with
    | small hsmall => exact hsmall.countFrame.params
    | returned hsmall data => exact hsmall.countFrame.params
    | reset he => rfl
    | ecnt data he => rfl
    | codec i hi hexec => exact (CodecFrame.exec hi hexec).params

/-- A ROM is a function of the parameters (10_state.md R43). -/
theorem elem_rom_congr {s t : State} (hp : t.params = s.params) {sp : Space} (hsp : sp ∈ [Space.g, .logt, .expt, .asit])
    (k : Nat) : t.elem sp k = s.elem sp k := by
  simp only [List.mem_cons, List.not_mem_nil, or_false] at hsp
  rcases hsp with rfl | rfl | rfl | rfl <;> simp only [State.elem, hp]

/-- Settles O54: no event changes the parameters, and the ROMs are functions of them. -/
theorem parametersAndRomsNeverChange : Obligations.ParametersAndRomsNeverChange := fun _ _ h =>
  ⟨step_params h, fun _ hsp k => elem_rom_congr (step_params h) hsp k⟩

/-- Settles O55: of the effects of an event, only the reset and the write to ECNT's address change ECNT. -/
theorem onlyTheHostWritesEcnt : Obligations.OnlyTheHostWritesEcnt := by
  intro s t h hne
  rcases step_effect h with rfl | ⟨e, rest, he, heffect⟩
  · exact absurd rfl hne
  · refine ⟨rest, ?_⟩
    cases heffect with
    | small hsmall => exact absurd hsmall.countFrame.ecnt hne
    | returned hsmall data => exact absurd hsmall.countFrame.ecnt hne
    | reset hr => exact .inl (hr ▸ he)
    | ecnt data hw => exact .inr ⟨data, hw ▸ he⟩
    | codec i hi hexec => exact absurd (CodecFrame.exec hi hexec).ecnt hne

/-- Settles O6: the port finds CMD at its address, and the unit is not in the fault state. -/
theorem stepRunsTheCommandWrittenToCmd : Obligations.StepRunsTheCommandWrittenToCmd := by
  intro s rest w
  refine ⟨fun hhost hf => ?_, fun hhost => by simp only [step, takeEvent, hhost]; rfl⟩
  have hstep : step s = runCommand w { s with host := rest } := by
    have hf' : State.faulted { s with host := rest } = false := hf
    simp only [step, takeEvent, hhost, hostEvent, hostWrite, hf']
    rfl
  constructor
  · intro i hi
    rw [hstep, runCommand, hi]
  · intro r hr
    rw [hstep, runCommand, hr]
    exact congrArg Host.Outcome.next (raiseFault_of_not_faulted (s := { s with host := rest }) hf)

/-- Settles O7: the offered word is the next event, and it is a write to CMD. -/
theorem fetchWordIsTheNextCommand : Obligations.FetchWordIsTheNextCommand := by
  intro s w i hf hi
  have hword : BitVec.ofNat 32 (w % 2 ^ 32) = BitVec.ofNat 32 w := BitVec.eq_of_toNat_eq (by simp)
  obtain ⟨hrun, -⟩ := stepRunsTheCommandWrittenToCmd (s.withFetchWord 32 w) s.host (BitVec.ofNat 32 w)
  obtain ⟨hok, -⟩ := hrun (by rw [State.withFetchWord, hword]; rfl) hf
  exact hok i hi

/-- Settles O8: the reset event leaves the reset state, and no array element is listed there. -/
theorem resetLeavesTheResetState : Obligations.ResetLeavesTheResetState := by
  intro s rest hhost
  refine ⟨resetUnit { s with host := rest }, by simp only [step, takeEvent, hhost, hostEvent], rfl, rfl, rfl, rfl, rfl, rfl, rfl,
    rfl, rfl, rfl, fun sp k hsp => ?_⟩
  rw [elem_array _ (of_decide_eq_true hsp)]
  rfl

end Sys2Proof.Machine
end

section
/-! PROOFS. The codec stages compute M-bit patterns (10_state.md R36 to R42). -/

namespace Sys2Proof.Machine

variable {p : Params}

/-- Every entry of a list of symbols is an M-bit pattern. -/
def Symbols (p : Params) (xs : List Symbol) : Prop := ∀ x ∈ xs, x.toNat < p.q

theorem Symbols.nil : Symbols p [] := fun _ h => by cases h

theorem Symbols.cons {x : Symbol} {xs : List Symbol} (hx : x.toNat < p.q) (hxs : Symbols p xs) : Symbols p (x :: xs) :=
  List.forall_mem_cons.2 ⟨hx, hxs⟩

theorem Symbols.append {xs ys : List Symbol} (hxs : Symbols p xs) (hys : Symbols p ys) : Symbols p (xs ++ ys) :=
  List.forall_mem_append.2 ⟨hxs, hys⟩

theorem Symbols.map {α : Type} {f : α → Symbol} {as : List α} (h : ∀ a ∈ as, (f a).toNat < p.q) : Symbols p (as.map f) :=
  List.forall_mem_map.2 h

theorem Symbols.replicate_zero (k : Nat) : Symbols p (List.replicate k 0) := fun _ hx => by
  rw [List.eq_of_mem_replicate hx]
  exact p.q_pos

theorem Symbols.zipWith {α β : Type} {f : α → β → Symbol} {as : List α} {bs : List β}
    (h : ∀ a ∈ as, ∀ b ∈ bs, (f a b).toNat < p.q) : Symbols p (List.zipWith f as bs) := by
  induction as generalizing bs with
  | nil => exact Symbols.nil
  | cons a as ih =>
    cases bs with
    | nil => exact Symbols.nil
    | cons b bs =>
      exact .cons (h a List.mem_cons_self b List.mem_cons_self) (ih fun a' ha b' hb =>
        h a' (List.mem_cons_of_mem _ ha) b' (List.mem_cons_of_mem _ hb))

theorem symbols_encodePass (h : p.valid = true) {taps : List Nat} {par : List Value} (hpar : Symbols p par) (c : Value) :
    Symbols p (encodePass p taps par c) := by
  have htail : Symbols p par.tail := fun x hx => hpar x (List.mem_of_mem_tail hx)
  unfold encodePass
  simp only
  split
  · exact htail.append (.cons p.q_pos .nil)
  · exact (Symbols.zipWith fun g _ x hx => fmaIi_lt h _ g (htail x hx)).append (.cons (expt_lt h _) .nil)

theorem symbols_parity (h : p.valid = true) (msg : List Value) : Symbols p (parity p msg) :=
  List.foldlRecOn msg _ (motive := Symbols p) (Symbols.replicate_zero _) fun _ hpar c _ => symbols_encodePass h hpar c

theorem horner_lt (h : p.valid = true) (root : Nat) {code : List Value} (hcode : Symbols p code) :
    (horner p root code).toNat < p.q := by
  cases code with
  | nil => exact p.q_pos
  | cons c cs =>
    obtain ⟨hc, hcs⟩ := List.forall_mem_cons.1 hcode
    exact foldl_lt (fun acc x hx _ => fmaIv_lt h root acc (hcs x hx)) hc

theorem symbols_syndromes (h : p.valid = true) {code : List Value} (hcode : Symbols p code) : Symbols p (syndromes p code) :=
  .map fun _ _ => horner_lt h _ hcode

theorem symbols_seedPass (h : p.valid = true) {lam : List Value} (hlam : Symbols p lam) (pos : Nat) :
    Symbols p (seedPass p lam pos) :=
  .zipWith fun x hx below _ => add_lt (hlam x hx) (mulIv_lt h _ below)

theorem symbols_seedLocator (h : p.valid = true) (es : List Nat) : Symbols p (seedLocator p es) :=
  List.foldlRecOn es _ (motive := Symbols p) (.cons (one_lt_q h) (.replicate_zero _)) fun _ hlam e _ =>
    symbols_seedPass h hlam e

/-- A pass of ESEED leaves lam[0], which is 1 (R202). -/
theorem head_seedPass (lam : List Value) (pos : Nat) : (seedPass p lam pos).getD 0 0 = lam.getD 0 0 := by
  cases lam with
  | nil => rfl
  | cons x lam => simp [seedPass, add]

theorem head_seedLocator (es : List Nat) : (seedLocator p es).getD 0 0 = 1 :=
  List.foldlRecOn es _ (motive := fun lam : List Value => lam.getD 0 0 = 1) rfl fun lam hlam e _ =>
    (head_seedPass lam e).trans hlam

/-- BM's temporaries lam and B are M-bit patterns. -/
def BmSymbols (p : Params) (st : BmState) : Prop := Symbols p st.lam ∧ Symbols p st.b

theorem BmSymbols.bmPass (h : p.valid = true) {st : BmState} (hst : BmSymbols p st) (syn : List Value) (e n : Nat) :
    BmSymbols p (bmPass p syn e st n) := by
  obtain ⟨hlam, hb⟩ := hst
  have hshift : Symbols p (shiftB p st.b) := .cons p.q_pos fun x hx => hb x (List.mem_of_mem_take hx)
  have hlam' : ∀ c, Symbols p (List.zipWith (fun l x => add l (mulV p c x)) st.lam (shiftB p st.b)) := fun c =>
    .zipWith fun l hl x _ => add_lt (hlam l hl) (mulV_lt h c x)
  unfold Machine.bmPass
  simp only
  split
  · exact ⟨hlam, hshift⟩
  · split
    · exact ⟨hlam' _, hlam⟩
    · exact ⟨hlam' _, hshift⟩

theorem symbols_berlekampMassey (h : p.valid = true) (syn : List Value) {lam : List Value} (hlam : Symbols p lam) (e : Nat) :
    Symbols p (berlekampMassey p syn lam e).lam :=
  (List.foldlRecOn _ _ (motive := BmSymbols p) ⟨hlam, hlam⟩ fun _ hst n _ => hst.bmPass h syn e n).1

theorem symbols_evaluator (h : p.valid = true) (lam syn : List Value) : Symbols p (evaluator p lam syn) :=
  .map fun _ _ => sumV_lt (Symbols.map fun _ _ => mulV_lt h _ _)

theorem magnitude_lt (h : p.valid = true) {om lam : List Value} {l : Nat} {m : Value} (hm : magnitude p om lam l = .ok m) :
    m.toNat < p.q := by
  unfold magnitude at hm
  simp only at hm
  split at hm
  · cases hm
  · split at hm <;> cases hm
    · exact p.q_pos
    · exact expt_lt h _

theorem symbols_magnitudes (h : p.valid = true) {om lam : List Value} {ls : List Nat} {ms : List Value}
    (hms : magnitudes p om lam ls = .ok ms) : Symbols p ms := by
  induction ls generalizing ms with
  | nil => cases hms; exact .nil
  | cons l ls ih =>
    obtain ⟨m, hm, hms⟩ := run_bind_eq_ok.1 hms
    obtain ⟨ms', hms', hms⟩ := run_bind_eq_ok.1 hms
    cases hms
    exact .cons (magnitude_lt h hm) (ih hms')

end Sys2Proof.Machine
end

section
/-! PROOFS. The writes that keep a state legal (10_state.md R36 to R42). -/

namespace Sys2Proof.Machine

/-- `x` may be written to element `k` of the array `sp` of a legal state: it is an M-bit pattern, the location exists (LOC
and MAG: it has an address), LAMBDA[0] gets 1 and LOC a position. -/
structure Storable (p : Params) (sp : Space) (k : Nat) (x : Symbol) : Prop where
  array : sp.isArray = true
  addressable : k < 65536
  inside : sp ≠ .loc → sp ≠ .mag → k < sp.size p
  symbol : x.toNat < p.q
  monic : sp = .lambda → k = 0 → x = 1
  position : sp = .loc → x.toNat < p.n

theorem State.Inv.setElem {s : State} (hs : s.Inv) {sp : Space} {k : Nat} {x : Symbol} (hx : Storable s.params sp k x) :
    (s.setElem sp k x).Inv where
  paramsLegal := hs.paramsLegal
  memCanonical := Memory.put_wf hs.memCanonical
  memOnlyArrays c hc := by
    rcases Memory.mem_put hc with rfl | hc
    · exact ⟨sp, k, hx.array, hx.addressable, rfl, hx.inside⟩
    · exact hs.memOnlyArrays c hc
  memSymbols c hc := by
    rcases Memory.mem_put hc with rfl | hc
    · exact hx.symbol
    · exact hs.memSymbols c hc
  vregSymbols := hs.vregSymbols
  iregSymbols := hs.iregSymbols
  lambdaMonic y hy := by
    by_cases he : Space.lambda = sp ∧ 0 = k
    · obtain ⟨rfl, rfl⟩ := he
      rw [elem_setElem_same s (by decide)] at hy
      cases hy
      exact hx.monic rfl rfl
    · rw [elem_setElem_other s hx.addressable (by decide) x he] at hy
      exact hs.lambdaMonic y hy
  locPositions j y hj hy := by
    by_cases he : Space.loc = sp ∧ j = k
    · obtain ⟨rfl, rfl⟩ := he
      rw [elem_setElem_same s (by decide)] at hy
      cases hy
      exact hx.position rfl
    · rw [elem_setElem_other s hx.addressable hj x he] at hy
      exact hs.locPositions j y hj hy
  faultLatch := hs.faultLatch
  lregBounded := hs.lregBounded
  degBounded := hs.degBounded

theorem State.Inv.setRange {s : State} (hs : s.Inv) {sp : Space} {k : Nat} {xs : List Symbol}
    (hxs : ∀ i (hi : i < xs.length), Storable s.params sp (k + i) xs[i]) : (s.setRange sp k xs).Inv := by
  induction xs generalizing s k with
  | nil => exact hs
  | cons x xs ih =>
    refine ih (hs.setElem (hxs 0 (by simp))) fun i hi => ?_
    have := hxs (i + 1) (by simpa using hi)
    rw [show k + 1 + i = k + (i + 1) by omega]
    exact this

/-- LOC and MAG are listed only inside [0, NR): a write keeps this if it is inside too. -/
theorem State.CountsBounded.setElem {s : State} (hs : s.CountsBounded) {sp : Space} {k : Nat} (hk : k < 65536)
    (hin : sp = .loc ∨ sp = .mag → k < s.params.nr) (x : Symbol) : (s.setElem sp k x).CountsBounded where
  nrootsLeDeg := hs.nrootsLeDeg
  resultInRange := hs.resultInRange
  locMagInside c hc sp' j hsp hj hadr := by
    rcases Memory.mem_put hc with rfl | hc
    · obtain ⟨rfl, rfl⟩ := addressOf_inj hk hj hadr
      exact hin hsp
    · exact hs.locMagInside c hc sp' j hsp hj hadr

theorem State.CountsBounded.setRange {s : State} (hs : s.CountsBounded) {sp : Space} {k : Nat} {xs : List Symbol}
    (hk : k + xs.length ≤ 65536) (hin : sp = .loc ∨ sp = .mag → k + xs.length ≤ s.params.nr) :
    (s.setRange sp k xs).CountsBounded := by
  induction xs generalizing s k with
  | nil => exact hs
  | cons x xs ih =>
    rw [List.length_cons] at hk hin
    refine ih (hs.setElem (by omega) (fun h => ?_) x) (by omega) fun h => ?_
    · have := hin h
      omega
    · have := hin h
      rw [State.setElem_params]
      omega

theorem State.CountsBounded.congr {s t : State} (hs : s.CountsBounded) (hp : t.params = s.params) (hm : t.mem = s.mem)
    (hresult : t.result = s.result) (hdeg : t.deg = s.deg) (hnroots : t.nroots = s.nroots) : t.CountsBounded where
  nrootsLeDeg := by rw [hnroots, hdeg]; exact hs.nrootsLeDeg
  resultInRange := by rw [hresult, hp]; exact hs.resultInRange
  locMagInside := by rw [hm, hp]; exact hs.locMagInside

end Sys2Proof.Machine
end

section
/-! PROOFS. Every effect of a step keeps a state legal (10_state.md R23 to R42). -/

namespace Sys2Proof.Machine

namespace State.Inv

variable {s t : State}

theorem writesV (hs : s.Inv) {d : VReg} (h : WritesV d s t) : t.Inv := by
  obtain ⟨x, hx, rfl⟩ := h
  refine { hs with vregSymbols := fun r => ?_ }
  by_cases hr : r = d
  · rw [hr, State.v_setV_same]
    exact hx hs
  · rw [State.v_setV_other s d r x hr]
    exact hs.vregSymbols r

theorem writesI (hs : s.Inv) {d : IReg} (h : WritesI d s t) : t.Inv := by
  obtain ⟨x, hx, rfl⟩ := h
  refine { hs with iregSymbols := fun r => ?_ }
  by_cases hr : r = d
  · rw [hr, State.i_setI_same]
    exact hx hs
  · rw [State.i_setI_other s d r x hr]
    exact hs.iregSymbols r

theorem raiseFault (hs : s.Inv) (w : Word) (c : Cause) : (raiseFault w c s).Inv := by
  rcases raiseFault_cases w c s with ⟨-, e⟩ | ⟨-, e⟩ <;> rw [e]
  · exact hs
  · exact { hs with faultLatch := .inr ⟨c, rfl⟩ }

end State.Inv

/-- The arrays whose elements are any M-bit patterns. -/
def plainArrays : List Space := [.code, .eras, .syn, .omega]

theorem isArray_of_plain : ∀ sp ∈ plainArrays, sp.isArray = true := by decide

theorem size_le_of_plain {p : Params} (h : p.valid = true) {sp : Space} (hsp : sp ∈ plainArrays) : sp.size p ≤ 65536 := by
  have := Params.bounds h
  simp only [plainArrays, List.mem_cons, List.not_mem_nil, or_false] at hsp
  rcases hsp with rfl | rfl | rfl | rfl <;> simp only [Space.size] <;> omega

theorem Storable.of_plain {p : Params} (h : p.valid = true) {sp : Space} (hsp : sp ∈ plainArrays) {k : Nat} (hk : k < sp.size p)
    {x : Symbol} (hx : x.toNat < p.q) : Storable p sp k x where
  array := isArray_of_plain sp hsp
  addressable := hk.trans_le (size_le_of_plain h hsp)
  inside _ _ := hk
  symbol := hx
  monic e := absurd hsp (by rw [e]; decide)
  position e := absurd hsp (by rw [e]; decide)

namespace State.Inv

variable {s t : State}

theorem writesStored (hs : s.Inv) (h : WritesStored s t) : t.Inv := by
  obtain ⟨sp, k, x, hsp, hk, hx, rfl⟩ := h
  have hplain : sp ∈ plainArrays := by rcases hsp with rfl | rfl <;> decide
  exact hs.setElem (.of_plain hs.paramsLegal hplain hk (hx hs))

theorem smallEffect (hs : s.Inv) (h : SmallEffect s t) : t.Inv := by
  cases h with
  | idle => exact hs
  | value d h => exact hs.writesV h
  | index d h => exact hs.writesI h
  | store h => exact hs.writesStored h
  | fault w c => exact hs.raiseFault w c

/-- A range of a plain array, inside it. -/
theorem setRange_plain (hs : s.Inv) {sp : Space} (hsp : sp ∈ plainArrays) {k : Nat} {xs : List Symbol}
    (hlen : k + xs.length ≤ sp.size s.params) (hxs : Symbols s.params xs) : (s.setRange sp k xs).Inv :=
  hs.setRange fun _ hi => .of_plain hs.paramsLegal hsp (by omega) (hxs _ (List.getElem_mem hi))

theorem setRange_lambda (hs : s.Inv) {lam : List Value} (hlen : lam.length = s.params.nr + 1) (hhead : lam.getD 0 0 = 1)
    (hlam : Symbols s.params lam) : (s.setRange .lambda 0 lam).Inv := by
  have := Params.bounds hs.paramsLegal
  refine hs.setRange fun i hi => ⟨rfl, by omega, fun _ _ => ?_, hlam _ (List.getElem_mem hi), fun _ h0 => ?_, nofun⟩
  · simp only [Space.size]
    omega
  · obtain rfl : i = 0 := by omega
    rwa [List.getD_eq_getElem _ _ hi] at hhead

theorem setRange_loc (hs : s.Inv) {locs : List Nat} (hlen : locs.length ≤ 65536) (hlocs : ∀ l ∈ locs, l < s.params.n) :
    (s.setRange .loc 0 (locs.map toIndex)).Inv := by
  refine hs.setRange fun i hi => ?_
  rw [List.length_map] at hi
  have hl := hlocs _ (List.getElem_mem hi)
  rw [List.getElem_map]
  exact ⟨rfl, by omega, fun h => absurd rfl h, toIndex_lt hs.paramsLegal hl.le, nofun,
    fun _ => by rwa [toNat_toIndex hs.paramsLegal hl.le]⟩

theorem setRange_mag (hs : s.Inv) {mags : List Value} (hlen : mags.length ≤ 65536) (hmags : Symbols s.params mags) :
    (s.setRange .mag 0 mags).Inv :=
  hs.setRange fun _ hi => ⟨rfl, by omega, fun _ h => absurd rfl h, hmags _ (List.getElem_mem hi), nofun, nofun⟩

/-- What a command reads of the arrays of a legal state are M-bit patterns. -/
theorem symbols_of_readRange (hs : s.Inv) {sp : Space} {k count : Nat} {xs : List Symbol}
    (h : readRange s sp k count = .ok xs) : Symbols s.params xs := fun x hx => by
  obtain ⟨i, hi, rfl⟩ := List.getElem_of_mem hx
  exact hs.elem_lt ((readRange_eq_ok.1 h).2 i hi)

theorem head_of_readRange_lambda (hs : s.Inv) {count : Nat} {lam : List Value} (hc : 0 < count)
    (h : readRange s .lambda 0 count = .ok lam) : lam.getD 0 0 = 1 := by
  obtain ⟨hlen, helem⟩ := readRange_eq_ok.1 h
  have h0 : 0 < lam.length := by omega
  rw [List.getD_eq_getElem _ _ h0]
  exact hs.lambdaMonic _ (helem 0 h0)

theorem lt_n_of_readRange_loc (hs : s.Inv) {locs : List Symbol} (h : readRange s .loc 0 s.nroots.toNat = .ok locs) :
    ∀ l ∈ locs, l.toNat < s.params.n := fun l hl => by
  obtain ⟨i, hi, rfl⟩ := List.getElem_of_mem hl
  obtain ⟨hlen, helem⟩ := readRange_eq_ok.1 h
  have := s.nroots.isLt
  exact hs.locPositions (0 + i) _ (by omega) (helem i hi)

theorem parity (hs : s.Inv) (msg : List Value) : (s.setRange .code s.params.k (parity s.params msg)).Inv := by
  have := Params.bounds hs.paramsLegal
  refine hs.setRange_plain (by decide) ?_ (symbols_parity hs.paramsLegal msg)
  rw [length_parity (by omega), Space.size]
  omega

theorem syndromes (hs : s.Inv) {syn : List Value} (h : readSyndromes s = .ok syn) : (s.setRange .syn 0 syn).Inv := by
  obtain ⟨code, hcode, rfl⟩ := readSyndromes_eq_ok.1 h
  exact hs.setRange_plain (by decide) (by simp [Space.size]) (symbols_syndromes hs.paramsLegal (hs.symbols_of_readRange hcode))

theorem eseedStage (hs : s.Inv) (h : eseedStage s = .ok t) : t.Inv := by
  obtain ⟨-, es, -, rfl⟩ := eseedStage_eq_ok h
  exact hs.setRange_lambda (length_seedLocator es) (head_seedLocator es) (symbols_seedLocator hs.paramsLegal es)

theorem bmStage (hs : s.Inv) (h : bmStage s = .ok t) : t.Inv := by
  obtain ⟨he, lam, syn, hlam, -, rfl⟩ := bmStage_eq_ok h
  have hshape := bmShape_berlekampMassey (syn := syn) he (length_of_readRange hlam)
  have hhead := hshape.lamHead.trans (hs.head_of_readRange_lambda (Nat.succ_pos _) hlam)
  have hinv := hs.setRange_lambda hshape.lamLength hhead
    (symbols_berlekampMassey hs.paramsLegal syn (hs.symbols_of_readRange hlam) _)
  refine { hinv with lregBounded := ?_ }
  simp only [BitVec.toNat_ofNat, State.setRange_params]
  exact (Nat.mod_le _ _).trans hshape.lenUpper

theorem rootsStage (hs : s.Inv) (h : rootsStage s = .ok t) : t.Inv := by
  obtain ⟨lam, hlam, rfl⟩ := rootsStage_eq_ok h
  have hbounds := Params.bounds hs.paramsLegal
  obtain ⟨hdeg, -⟩ := trimmedDegree_spec lam s.params.nr
  have hlen := length_findRoots_le_n hs.paramsLegal lam (trimmedDegree lam s.params.nr)
  have hinv := hs.setRange_loc (hlen.trans (by omega)) fun l hl => lt_of_mem_findRoots hs.paramsLegal hl
  refine { hinv with degBounded := ?_ }
  simp only [BitVec.toNat_ofNat, State.setRange_params]
  exact (Nat.mod_le _ _).trans hdeg

/-- The corrections add M-bit patterns to elements of CODE. -/
theorem applyMagnitudes (hs : s.Inv) {xs : List (Nat × Value)} (hxs : ∀ x ∈ xs, x.1 < s.params.n ∧ x.2.toNat < s.params.q)
    (h : applyMagnitudes s xs = .ok t) : t.Inv := by
  induction xs generalizing s with
  | nil => cases h; exact hs
  | cons x xs ih =>
    obtain ⟨c, hc, h⟩ := run_bind_eq_ok.1 h
    obtain ⟨hl, hm⟩ := hxs x List.mem_cons_self
    have hstore := Storable.of_plain hs.paramsLegal (sp := .code) (by decide) hl (add_lt (hs.elem_lt (readElem_eq_ok.1 hc)) hm)
    exact ih (hs.setElem hstore) (fun y hy => hxs y (List.mem_cons_of_mem _ hy)) h

theorem forneyStage (hs : s.Inv) (h : forneyStage s = .ok t) : t.Inv := by
  obtain ⟨syn, lam, locs, mags, u, -, -, hlocs, hmags, hu, rfl⟩ := forneyStage_eq_ok h
  have hlen : mags.length ≤ 65536 := by
    have := s.nroots.isLt
    rw [length_magnitudes hmags, List.length_map, length_of_readRange hlocs]
    omega
  have hsym := symbols_magnitudes hs.paramsLegal hmags
  have homega := hs.setRange_plain (sp := .omega) (k := 0) (by decide) (by simp [Space.size])
    (symbols_evaluator hs.paramsLegal lam syn)
  have hmag := homega.setRange_mag hlen (by simpa using hsym)
  have hu' := hmag.applyMagnitudes (fun x hx => ?_) hu
  · exact { hu' with }
  · obtain ⟨hl, hm⟩ := List.of_mem_zip (a := x.1) (b := x.2) hx
    obtain ⟨loc, hloc, hx⟩ := List.mem_map.1 hl
    simpa [← hx] using And.intro (hs.lt_n_of_readRange_loc hlocs loc hloc) (hsym _ hm)

/-- Every part of a codec command keeps a state legal. -/
theorem codecClosed : CodecClosed State.Inv where
  fault w c hs := hs.raiseFault w c
  parity hs _ := hs.parity _
  syndromes hs h := hs.syndromes h
  eseed hs h := hs.eseedStage h
  bm hs h := hs.bmStage h
  roots hs h := hs.rootsStage h
  forney hs h := hs.forneyStage h
  result hs _ := { hs with }

end State.Inv

/-- Settles O59: each effect of an event keeps the state legal. -/
theorem stepKeepsTheStateLegal : Obligations.StepKeepsTheStateLegal := by
  intro s t hs h
  rcases step_effect h with rfl | ⟨e, rest, -, heffect⟩
  · exact hs
  · have hs' : State.Inv { s with host := rest } := { hs with }
    cases heffect with
    | small hsmall => exact hs'.smallEffect hsmall
    | returned hsmall data => exact { hs'.smallEffect hsmall with }
    | reset he => exact { inv_resetOf hs.paramsLegal with }
    | ecnt data he => exact { hs' with }
    | codec i hi hexec => exact State.Inv.codecClosed.exec hi hs' hexec

end Sys2Proof.Machine
end

section
/-! PROOFS. Every effect of a step keeps the counts bounded (10_state.md R29, R33, R41, R42, 46_rootfinder.md R225). -/

namespace Sys2Proof.Machine

namespace State.CountsBounded

variable {s t : State}

theorem raiseFault (hs : s.CountsBounded) (w : Word) (c : Cause) : (raiseFault w c s).CountsBounded :=
  hs.congr (by simp) (by simp) (by simp) (by simp) (by simp)

theorem smallEffect (hs : s.CountsBounded) (hv : s.params.valid = true) (h : SmallEffect s t) : t.CountsBounded := by
  cases h with
  | idle => exact hs
  | value d h => obtain ⟨x, -, rfl⟩ := h; exact { hs with }
  | index d h => obtain ⟨x, -, rfl⟩ := h; exact { hs with }
  | store h =>
    obtain ⟨sp, k, x, hsp, hk, -, rfl⟩ := h
    have hplain : sp ∈ plainArrays := by rcases hsp with rfl | rfl <;> decide
    refine hs.setElem (hk.trans_le (size_le_of_plain hv hplain)) (fun h => ?_) x
    rcases hsp with rfl | rfl <;> simp at h
  | fault w c => exact hs.raiseFault w c

/-- A range of another array than LOC and MAG. -/
theorem setRange_other (hs : s.CountsBounded) {sp : Space} (hloc : sp ≠ .loc) (hmag : sp ≠ .mag) {k : Nat} {xs : List Symbol}
    (hlen : k + xs.length ≤ 65536) : (s.setRange sp k xs).CountsBounded :=
  hs.setRange hlen fun h => absurd h (not_or.2 ⟨hloc, hmag⟩)

theorem eseedStage (hs : s.CountsBounded) (hv : s.params.valid = true) (h : eseedStage s = .ok t) : t.CountsBounded := by
  have := Params.bounds hv
  obtain ⟨-, es, -, rfl⟩ := eseedStage_eq_ok h
  exact hs.setRange_other (by decide) (by decide) (by rw [length_seedLocator]; omega)

theorem bmStage (hs : s.CountsBounded) (hv : s.params.valid = true) (h : bmStage s = .ok t) : t.CountsBounded := by
  have := Params.bounds hv
  obtain ⟨he, lam, syn, hlam, -, rfl⟩ := bmStage_eq_ok h
  have hshape := bmShape_berlekampMassey (syn := syn) he (length_of_readRange hlam)
  exact { hs.setRange_other (sp := .lambda) (k := 0) (by decide) (by decide) (by rw [hshape.lamLength]; omega) with }

/-- NROOTS ≤ DEG ≤ NR: a polynomial has no more roots than its degree. -/
theorem rootsStage (hs : s.CountsBounded) (hi : s.Inv) (h : rootsStage s = .ok t) : t.CountsBounded := by
  have hv := hi.paramsLegal
  have hbounds := Params.bounds hv
  obtain ⟨lam, hlam, rfl⟩ := rootsStage_eq_ok h
  obtain ⟨hdeg, hlead, -⟩ := trimmedDegree_spec lam s.params.nr
  have hlam' := length_of_readRange hlam
  have hcount := length_findRoots_le hv (by omega) (hi.symbols_of_readRange hlam) hlead
  have hrange := hs.setRange (sp := .loc) (k := 0) (xs := (findRoots s.params lam (trimmedDegree lam s.params.nr)).map toIndex)
    (by rw [List.length_map]; omega) (fun _ => by rw [List.length_map]; omega)
  refine { hrange with nrootsLeDeg := ?_ }
  simp only [BitVec.toNat_ofNat]
  omega

theorem applyMagnitudes (hs : s.CountsBounded) {xs : List (Nat × Value)} (hxs : ∀ x ∈ xs, x.1 < 65536)
    (h : applyMagnitudes s xs = .ok t) : t.CountsBounded := by
  induction xs generalizing s with
  | nil => cases h; exact hs
  | cons x xs ih =>
    obtain ⟨c, -, h⟩ := run_bind_eq_ok.1 h
    refine ih (hs.setElem (hxs x List.mem_cons_self) (fun h => ?_) _) (fun y hy => hxs y (List.mem_cons_of_mem _ hy)) h
    simp at h

/-- RESULT counts some of the NROOTS magnitudes, and NROOTS ≤ DEG ≤ NR. -/
theorem forneyStage (hs : s.CountsBounded) (hi : s.Inv) (h : forneyStage s = .ok t) : t.CountsBounded := by
  have hbounds := Params.bounds hi.paramsLegal
  have hparams := (CodecFrame.forneyStage h).params
  obtain ⟨syn, lam, locs, mags, u, -, -, hlocs, hmags, hu, rfl⟩ := forneyStage_eq_ok h
  have hlen : mags.length ≤ s.params.nr := by
    rw [length_magnitudes hmags, List.length_map, length_of_readRange hlocs]
    exact hs.nrootsLeDeg.trans hi.degBounded
  have homega := hs.setRange_other (sp := .omega) (k := 0) (xs := evaluator s.params lam syn) (by decide) (by decide)
    (by rw [evaluator_length]; omega)
  have hmag := homega.setRange (sp := .mag) (k := 0) (xs := mags) (by omega) (fun _ => by
    rw [State.setRange_params]
    omega)
  refine { hmag.applyMagnitudes fst_lt_of_mem_zip hu with resultInRange := .inr ?_ }
  rw [hparams]
  exact (toNat_countWord_le mags).trans hlen

/-- Every part of a codec command keeps the counts of a legal state bounded. -/
theorem codecClosed : CodecClosed fun s => s.Inv ∧ s.CountsBounded where
  fault w c := fun ⟨hi, hs⟩ => ⟨hi.raiseFault w c, hs.raiseFault w c⟩
  parity := fun ⟨hi, hs⟩ _ => ⟨hi.parity _, hs.setRange_other (by decide) (by decide) (by
    have := Params.bounds hi.paramsLegal
    rw [length_parity (by omega)]
    omega)⟩
  syndromes := fun ⟨hi, hs⟩ h => ⟨hi.syndromes h, hs.setRange_other (by decide) (by decide) (by
    have := Params.bounds hi.paramsLegal
    rw [length_of_readSyndromes h]
    omega)⟩
  eseed := fun ⟨hi, hs⟩ h => ⟨hi.eseedStage h, hs.eseedStage hi.paramsLegal h⟩
  bm := fun ⟨hi, hs⟩ h => ⟨hi.bmStage h, hs.bmStage hi.paramsLegal h⟩
  roots := fun ⟨hi, hs⟩ h => ⟨hi.rootsStage h, hs.rootsStage hi h⟩
  forney := fun ⟨hi, hs⟩ h => ⟨hi.forneyStage h, hs.forneyStage hi h⟩
  result := fun ⟨hi, hs⟩ hw => ⟨{ hi with }, { hs with resultInRange := hw }⟩

end State.CountsBounded

/-- Settles O60: each effect of an event keeps the counts bounded. -/
theorem stepKeepsTheCountsBounded : Obligations.StepKeepsTheCountsBounded := by
  intro s t hi hs h
  rcases step_effect h with rfl | ⟨e, rest, -, heffect⟩
  · exact hs
  · have hi' : State.Inv { s with host := rest } := { hi with }
    have hs' : State.CountsBounded { s with host := rest } := { hs with }
    cases heffect with
    | small hsmall => exact hs'.smallEffect hi.paramsLegal hsmall
    | returned hsmall data => exact { hs'.smallEffect hi.paramsLegal hsmall with }
    | reset he => exact { countsBounded_resetOf s.params with }
    | ecnt data he => exact { hs' with }
    | codec i hc hexec => exact (State.CountsBounded.codecClosed.exec hc ⟨hi', hs'⟩ hexec).2

end Sys2Proof.Machine
end

section
/-! PROOFS. A read of an element that nothing has written is refused (10_state.md R47). -/

namespace Sys2Proof.Machine

/-- The array spaces LDV names. -/
theorem ldvSpace_of_number {space : Space} {sp : BitVec 4} (hn : space.number = sp.toNat) (hm : sp.toNat ∈ [0, 2, 3, 4, 6]) :
    ldvSpace sp = some space := by
  revert sp
  cases space <;> decide

/-- The array spaces LDX names. -/
theorem ldxSpace_of_number {space : Space} {sp : BitVec 4} (hn : space.number = sp.toNat) (hm : sp.toNat ∈ [1, 5]) :
    ldxSpace sp = some space := by
  revert sp
  cases space <;> decide

/-- The port finds an element of any space but the CSRs at its address (20_memory.md R61). -/
theorem locate_append {p : Params} {space : Space} {sp : BitVec 4} {idx : BitVec 16} (hn : space.number = sp.toNat)
    (hcsr : space ≠ .csr) (hidx : idx.toNat < space.size p) : locate p (sp ++ idx) = some (.elem space idx.toNat) := by
  unfold locate
  simp only [spaceField_append, indexField_append, ← hn, spaceOf_eq_some.2 rfl]
  cases space
  case csr => exact absurd rfl hcsr
  all_goals exact if_pos hidx

theorem readElem_of_none {s : State} {sp : Space} {k : Nat} (h : s.elem sp k = none) :
    readElem s sp k = .error (.refuse (.unspecifiedElement sp k)) := readElem_eq_error.2 ⟨h, rfl⟩

/-- An array with an unspecified element among its first ones is refused, by one of them. -/
theorem readRange_zero_refused {s : State} {sp : Space} {count : Nat} (h : ∃ k, k < count ∧ s.elem sp k = none) :
    ∃ k, k < count ∧ s.elem sp k = none ∧ readRange s sp 0 count = .error (.refuse (.unspecifiedElement sp k)) := by
  simpa using readRange_refused (s := s) (sp := sp) (k := 0) (count := count) (by simpa using h)

theorem readRange_zero_eq_error {s : State} {sp : Space} {count : Nat} {e : Stop} (h : readRange s sp 0 count = .error e) :
    ∃ k, k < count ∧ s.elem sp k = none ∧ e = .refuse (.unspecifiedElement sp k) := by
  simpa using readRange_eq_error h

/-- A range that has been read holds no unspecified element. -/
theorem not_exists_none_of_readRange {s : State} {sp : Space} {count : Nat} {xs : List Symbol}
    (h : readRange s sp 0 count = .ok xs) : ¬∃ k, k < count ∧ s.elem sp k = none := fun hn => by
  obtain ⟨k, -, -, he⟩ := readRange_zero_refused hn
  rw [h] at he
  cases he

theorem exec_ldv_refused {s : State} {r : VReg} {sp : BitVec 4} {idx : BitVec 16} {space : Space} (hn : space.number = sp.toNat)
    (hidx : idx.toNat < space.size s.params) (hnone : s.elem space idx.toNat = none) (hm : sp.toNat ∈ [0, 2, 3, 4, 6]) :
    exec (.ldv r sp idx) s = .refused (.unspecifiedElement space idx.toNat) := by
  simp [exec, execLdv, memOperand_eq_ok.2 ⟨ldvSpace_of_number hn hm, hidx, rfl⟩, readElem_of_none hnone]

theorem exec_ldx_refused {s : State} {r : IReg} {sp : BitVec 4} {idx : BitVec 16} {space : Space} (hn : space.number = sp.toNat)
    (hidx : idx.toNat < space.size s.params) (hnone : s.elem space idx.toNat = none) (hm : sp.toNat ∈ [1, 5]) :
    exec (.ldx r sp idx) s = .refused (.unspecifiedElement space idx.toNat) := by
  simp [exec, execLdx, memOperand_eq_ok.2 ⟨ldxSpace_of_number hn hm, hidx, rfl⟩, readElem_of_none hnone]

theorem hostRead_refused {s : State} {sp : BitVec 4} {idx : BitVec 16} {space : Space} (hn : space.number = sp.toNat)
    (hidx : idx.toNat < space.size s.params) (hnone : s.elem space idx.toNat = none) (harray : sp.toNat < 7) :
    hostRead (sp ++ idx) s = .refused (.unspecifiedElement space idx.toNat) := by
  have hcsr : space ≠ .csr := fun e => by
    rw [← hn, e] at harray
    exact absurd harray (by decide)
  simp only [hostRead, locate_append hn hcsr hidx, hnone]

theorem exec_encode_refused {s : State} (h : ∃ k, k < s.params.k ∧ s.elem .code k = none) :
    ∃ k, k < s.params.k ∧ s.elem .code k = none ∧ exec .encode s = .refused (.unspecifiedElement .code k) := by
  obtain ⟨k, hk, hnone, hread⟩ := readRange_zero_refused h
  exact ⟨k, hk, hnone, by simp [exec, execEncode, hread]⟩

/-- SYND and DECODE read CODE before anything else but ECNT. -/
theorem readSyndromes_refused {s : State} (h : ∃ k, k < s.params.n ∧ s.elem .code k = none) :
    ∃ k, k < s.params.n ∧ s.elem .code k = none ∧ readSyndromes s = .error (.refuse (.unspecifiedElement .code k)) := by
  obtain ⟨k, hk, hnone, hread⟩ := readRange_zero_refused h
  exact ⟨k, hk, hnone, by simp [readSyndromes, hread]⟩

theorem exec_synd_of_refused {s : State} {r : Refusal} (h : readSyndromes s = .error (.refuse r)) :
    exec .synd s = .refused r := by
  simp [exec, execSynd, h]

theorem exec_decode_of_refused {s : State} {r : Refusal} (he : s.ecnt.toNat ≤ s.params.nr)
    (h : readSyndromes s = .error (.refuse r)) : exec .decode s = .refused r := by
  simp [exec, execDecode, Nat.not_lt.2 he, h]

theorem eseedStage_of_error {s : State} {e : Stop} (he : s.ecnt.toNat ≤ s.params.nr)
    (h : readErasures s 0 s.ecnt.toNat = .error e) : eseedStage s = .error e := by
  simp [eseedStage, Nat.not_lt.2 he, h]

/-- The erasures ESEED reads are those DECODE reads after it has written SYN. -/
theorem readErasures_setRange_syn {s : State} (hv : s.params.valid = true) {syn : List Value} (hlen : syn.length = s.params.nr) :
    readErasures (s.setRange .syn 0 syn) 0 s.ecnt.toNat = readErasures s 0 s.ecnt.toNat := by
  have := Params.bounds hv
  refine readErasures_congr (s.setRange_params _ _ _) fun j hj => ?_
  exact elem_setRange_other s syn (by omega) (by omega) fun h => absurd h.1 (by decide)

/-- DECODE of a word that is not clean goes on to ESEED from the state with SYN written (48_decode.md R250). -/
theorem exec_decode_of_ne_zero {s : State} {syn : List Value} (he : s.ecnt.toNat ≤ s.params.nr) (hsyn : readSyndromes s = .ok syn)
    (hne : ∃ x ∈ syn, x ≠ 0) : exec .decode s = decodeNonzero (s.setRange .syn 0 syn) := by
  have hcount : countNonzero syn ≠ 0 := by
    obtain ⟨x, hx, hx0⟩ := hne
    exact (List.length_pos_of_mem (List.mem_filter.2 ⟨hx, by simpa using hx0⟩)).ne'
  simp [exec, execDecode, Nat.not_lt.2 he, hsyn, hcount]

theorem decodeNonzero_of_refused {s : State} {r : Refusal} (h : eseedStage s = .error (.refuse r)) :
    decodeNonzero s = .refused r := by simp [decodeNonzero, decodeStage, h]

/-- ESEED, and DECODE of a word that is not clean, read ERAS up to the first N. -/
theorem eras_refused {s : State} {k : Nat} (he : s.ecnt.toNat ≤ s.params.nr) (hk : k < s.ecnt.toNat)
    (hnone : s.elem .eras k = none) (hpos : ∀ j x, j < k → s.elem .eras j = some x → x.toNat ≠ s.params.n) :
    ∃ j, j ≤ k ∧ s.elem .eras j = none ∧ exec .eseed s = .refused (.unspecifiedElement .eras j) ∧
      ∀ code, s.params.valid = true → readRange s .code 0 s.params.n = .ok code →
        (∃ x ∈ syndromes s.params code, x ≠ 0) → exec .decode s = .refused (.unspecifiedElement .eras j) := by
  obtain ⟨j, hj, hjnone, hread⟩ := readErasures_refused (a := 0) hk (by simpa using hnone) (by simpa using hpos)
  rw [Nat.zero_add] at hjnone hread
  refine ⟨j, hj, hjnone, by simp [exec, execEseed, eseedStage_of_error he hread], fun code hv hcode hne => ?_⟩
  rw [exec_decode_of_ne_zero he (readSyndromes_eq_ok.2 ⟨code, hcode, rfl⟩) hne]
  refine decodeNonzero_of_refused (eseedStage_of_error ?_ ?_)
  · simpa using he
  · rw [State.setRange_ecnt, readErasures_setRange_syn hv (syndromes_length _ _), hread]

theorem exec_bm_refused {s : State} (he : s.ecnt.toNat ≤ s.params.nr)
    (h : (∃ k, k ≤ s.params.nr ∧ s.elem .lambda k = none) ∨
      (s.ecnt.toNat < s.params.nr ∧ ∃ k, k < s.params.nr ∧ s.elem .syn k = none)) :
    ∃ sp k, s.elem sp k = none ∧ ((sp = .lambda ∧ k ≤ s.params.nr) ∨ (sp = .syn ∧ k < s.params.nr)) ∧
      exec .bm s = .refused (.unspecifiedElement sp k) := by
  cases hlam : readRange s .lambda 0 (s.params.nr + 1) with
  | error e =>
    obtain ⟨k, hk, hnone, rfl⟩ := readRange_zero_eq_error hlam
    exact ⟨.lambda, k, hnone, .inl ⟨rfl, Nat.le_of_lt_succ hk⟩, by simp [exec, execBm, bmStage, Nat.not_lt.2 he, hlam]⟩
  | ok lam =>
    rcases h with ⟨k, hk, hnone⟩ | ⟨hlt, hsyn⟩
    · exact absurd ⟨k, Nat.lt_succ_of_le hk, hnone⟩ (not_exists_none_of_readRange hlam)
    · obtain ⟨k, hk, hnone, hread⟩ := readRange_zero_refused hsyn
      exact ⟨.syn, k, hnone, .inr ⟨rfl, hk⟩, by
        simp [exec, execBm, bmStage, Nat.not_lt.2 he, hlam, readSynForBm, hlt, hread]⟩

theorem exec_roots_refused {s : State} (h : ∃ k, k ≤ s.params.nr ∧ s.elem .lambda k = none) :
    ∃ k, k ≤ s.params.nr ∧ s.elem .lambda k = none ∧ exec .roots s = .refused (.unspecifiedElement .lambda k) := by
  obtain ⟨k, hk, hnone, hread⟩ := readRange_zero_refused (count := s.params.nr + 1) (by simpa [Nat.lt_succ_iff] using h)
  exact ⟨k, Nat.le_of_lt_succ hk, hnone, by simp [exec, execRoots, rootsStage, hread]⟩

/-- FORNEY reads SYN, LAMBDA and the recorded LOC entries, in this order. -/
theorem exec_forney_refused {s : State}
    (h : (∃ k, k < s.params.nr ∧ s.elem .syn k = none) ∨ (∃ k, k ≤ s.params.nr ∧ s.elem .lambda k = none) ∨
      (∃ k, k < s.nroots.toNat ∧ s.elem .loc k = none)) :
    ∃ sp k, s.elem sp k = none ∧
      ((sp = .syn ∧ k < s.params.nr) ∨ (sp = .lambda ∧ k ≤ s.params.nr) ∨ (sp = .loc ∧ k < s.nroots.toNat)) ∧
      exec .forney s = .refused (.unspecifiedElement sp k) := by
  cases hsyn : readRange s .syn 0 s.params.nr with
  | error e =>
    obtain ⟨k, hk, hnone, rfl⟩ := readRange_zero_eq_error hsyn
    exact ⟨.syn, k, hnone, .inl ⟨rfl, hk⟩, by simp [exec, execForney, forneyStage, hsyn]⟩
  | ok syn =>
    cases hlam : readRange s .lambda 0 (s.params.nr + 1) with
    | error e =>
      obtain ⟨k, hk, hnone, rfl⟩ := readRange_zero_eq_error hlam
      exact ⟨.lambda, k, hnone, .inr (.inl ⟨rfl, Nat.le_of_lt_succ hk⟩), by simp [exec, execForney, forneyStage, hsyn, hlam]⟩
    | ok lam =>
      rcases h with h | ⟨k, hk, hnone⟩ | h
      · exact absurd h (not_exists_none_of_readRange hsyn)
      · exact absurd ⟨k, Nat.lt_succ_of_le hk, hnone⟩ (not_exists_none_of_readRange hlam)
      · obtain ⟨k, hk, hnone, hread⟩ := readRange_zero_refused h
        exact ⟨.loc, k, hnone, .inr (.inr ⟨rfl, hk⟩), by simp [exec, execForney, forneyStage, hsyn, hlam, hread]⟩

/-- The corrections are refused by the first location whose CODE element is unspecified; correcting a location before it
specifies no other. -/
theorem applyMagnitudes_refused {s : State} {xs : List (Nat × Value)} (hxs : ∀ x ∈ xs, x.1 < 65536)
    (h : ∃ x ∈ xs, s.elem .code x.1 = none) :
    ∃ x ∈ xs, s.elem .code x.1 = none ∧ applyMagnitudes s xs = .error (.refuse (.unspecifiedElement .code x.1)) := by
  induction xs generalizing s with
  | nil => simp at h
  | cons y ys ih =>
    obtain ⟨l, m⟩ := y
    cases hc : s.elem .code l with
    | none => exact ⟨(l, m), List.mem_cons_self, hc, by simp [applyMagnitudes, readElem_of_none hc]⟩
    | some c =>
      have hcode : ∀ x ∈ ys, (s.setElem .code l (add c m)).elem .code x.1 = none ↔ s.elem .code x.1 = none := fun x hx => by
        by_cases he : x.1 = l
        · simp [he, hc, elem_setElem_same s (sp := .code) (by decide)]
        · rw [elem_setElem_other s (hxs _ List.mem_cons_self) (hxs x (List.mem_cons_of_mem _ hx)) _ fun h => he h.2]
      obtain ⟨x, hx, hnone⟩ := h
      have hx' : x ∈ ys := by
        rcases List.mem_cons.1 hx with rfl | hx'
        · simp [hc] at hnone
        · exact hx'
      obtain ⟨z, hz, hznone, hread⟩ := ih (fun x hx => hxs x (List.mem_cons_of_mem _ hx)) ⟨x, hx', (hcode x hx').2 hnone⟩
      exact ⟨z, List.mem_cons_of_mem _ hz, (hcode z hz).1 hznone, by simp [applyMagnitudes, readElem_eq_ok.2 hc, hread]⟩

/-- FORNEY corrects a state whose OMEGA and MAG are written; CODE is still as it was. -/
theorem elem_code_setRange_omega_mag {s : State} (hv : s.params.valid = true) (lam syn mags : List Value)
    (hlen : mags.length ≤ 65536) {k : Nat} (hk : k < 65536) :
    ((s.setRange .omega 0 (evaluator s.params lam syn)).setRange .mag 0 mags).elem .code k = s.elem .code k := by
  have := Params.bounds hv
  rw [elem_setRange_other _ mags (by omega) hk fun h => absurd h.1 (by decide),
    elem_setRange_other _ _ (by rw [evaluator_length]; omega) hk fun h => absurd h.1 (by decide)]

/-- FORNEY reads CODE at the recorded locations, after the derivative test. -/
theorem exec_forney_code_refused {s : State} {syn lam locs : List Symbol} (hv : s.params.valid = true)
    (hsyn : readRange s .syn 0 s.params.nr = .ok syn) (hlam : readRange s .lambda 0 (s.params.nr + 1) = .ok lam)
    (hlocs : readRange s .loc 0 s.nroots.toNat = .ok locs)
    (hder : ∀ l ∈ locs, derivativeAt s.params lam ((l.toNat + 1) % s.params.n) ≠ 0)
    (hnone : ∃ l ∈ locs, s.elem .code l.toNat = none) :
    ∃ l ∈ locs, s.elem .code l.toNat = none ∧ exec .forney s = .refused (.unspecifiedElement .code l.toNat) := by
  obtain ⟨mags, hmags, hlen⟩ := magnitudes_isOk (om := evaluator s.params lam syn) (List.forall_mem_map.2 hder)
  rw [List.length_map] at hlen
  have hlen' : mags.length ≤ 65536 := by
    have := s.nroots.isLt
    rw [hlen, length_of_readRange hlocs]
    omega
  have hcode := fun l : Symbol => elem_code_setRange_omega_mag hv lam syn mags hlen' l.isLt
  have hzip : ∃ x ∈ (locs.map BitVec.toNat).zip mags,
      ((s.setRange .omega 0 (evaluator s.params lam syn)).setRange .mag 0 mags).elem .code x.1 = none := by
    obtain ⟨l, hl, hlnone⟩ := hnone
    obtain ⟨i, hi, rfl⟩ := List.getElem_of_mem hl
    refine ⟨_, List.getElem_mem (n := i) (by simpa [hlen] using hi), ?_⟩
    simpa [hcode] using hlnone
  obtain ⟨⟨l', m⟩, hx, hxnone, happly⟩ := applyMagnitudes_refused fst_lt_of_mem_zip hzip
  obtain ⟨l, hl, rfl⟩ := List.mem_map.1 (List.of_mem_zip hx).1
  exact ⟨l, hl, by rwa [hcode] at hxnone, by simp [exec, execForney, forneyStage, hsyn, hlam, hlocs, hmags, happly]⟩

/-- Settles O16: for each command, the first element it reads that has no value. -/
theorem unspecifiedReadIsRefused : Obligations.UnspecifiedReadIsRefused := by
  intro s
  refine ⟨fun r sp idx space hn hidx hnone => ⟨exec_ldv_refused hn hidx hnone, exec_ldx_refused hn hidx hnone,
    hostRead_refused hn hidx hnone⟩, exec_encode_refused, fun h => ?_, fun k => eras_refused, exec_bm_refused, exec_roots_refused,
    exec_forney_refused, fun syn lam locs => exec_forney_code_refused⟩
  obtain ⟨k, hk, hnone, hread⟩ := readSyndromes_refused h
  exact ⟨k, hk, hnone, exec_synd_of_refused hread, fun he => exec_decode_of_refused he hread⟩

end Sys2Proof.Machine
end

section
/-! PROOFS. The host port, address by address (20_memory.md R60 to R65): the location an address names, what a read of it
returns, what a write to it does, and both in the fault state (60_exceptions.md R264, R265). -/

namespace Sys2Proof.Machine

variable {s t : State} {p : Params} {addr : HostAddr} {sp : Space} {k : Nat} {c : Csr} {l : Location} {d : Word}

/-! ### Addresses and locations -/

/-- The CSR index of a CSR (10_state.md R26). -/
def Csr.index : Csr → Nat
  | .cmd => 0x0
  | .status => 0x1
  | .result => 0x2
  | .ecnt => 0x3
  | .lreg => 0x4
  | .deg => 0x5
  | .nroots => 0x6
  | .finfo => 0x7
  | .paramM => 0x8
  | .paramPoly => 0x9
  | .paramNr => 0xA
  | .paramFcr => 0xB
  | .paramN => 0xC
  | .paramK => 0xD

theorem csrOf_eq_some : csrOf k = some c ↔ k = c.index := by
  constructor
  · intro h
    unfold csrOf at h
    split at h <;> cases h <;> rfl
  · rintro rfl
    cases c <;> rfl

theorem Csr.index_lt_size (c : Csr) (p : Params) : c.index < Space.size p .csr := by
  show c.index < 14
  cases c <;> decide

/-- The word address of a location (R61). -/
def Location.address : Location → Nat
  | .elem sp k => addressOf sp k
  | .csr c => addressOf .csr c.index

theorem addressOf_code (k : Nat) : addressOf .code k = k := Nat.zero_add k

theorem toNat_eq_fields (addr : HostAddr) :
    addr.toNat = (spaceField addr).toNat * 65536 + (indexField addr).toNat := by
  conv_lhs => rw [← append_fields addr, BitVec.toNat_append]
  rw [← Nat.shiftLeft_add_eq_or_of_lt (indexField addr).isLt, Nat.shiftLeft_eq]

/-- The port finds a location only at its own address. -/
theorem toNat_of_locate (h : locate p addr = some l) : addr.toNat = l.address := by
  rw [toNat_eq_fields]
  cases l with
  | elem sp k =>
    obtain ⟨-, -, hs, rfl⟩ := locate_elem h
    rw [← hs]
    rfl
  | csr c =>
    obtain ⟨hs, hc⟩ := locate_csr h
    rw [hs, csrOf_eq_some.1 hc]
    rfl

theorem lt_of_locate_elem (h : locate p addr = some (.elem sp k)) : k < 65536 := by
  obtain ⟨-, -, -, rfl⟩ := locate_elem h
  exact (indexField addr).isLt

/-- The port finds every element at its address. -/
theorem locate_addressOf (hk : k < 65536) (hcsr : sp ≠ .csr) (hsize : k < sp.size p) :
    locate p (BitVec.ofNat 20 (addressOf sp k)) = some (.elem sp k) := by
  have hn : sp.number = (BitVec.ofNat 4 sp.number).toNat := by cases sp <;> rfl
  have hidx : (BitVec.ofNat 16 k).toNat = k := Nat.mod_eq_of_lt hk
  have haddr : BitVec.ofNat 20 (addressOf sp k) = BitVec.ofNat 4 sp.number ++ BitVec.ofNat 16 k := by
    apply BitVec.eq_of_toNat_eq
    rw [toNat_eq_fields (_ ++ _), spaceField_append, indexField_append, ← hn, hidx]
    have hlt : sp.number < 16 := hn ▸ (BitVec.ofNat 4 sp.number).isLt
    exact Nat.mod_eq_of_lt (show sp.number * 65536 + k < 2 ^ 20 by omega)
  rw [haddr, locate_append hn hcsr (by rwa [hidx]), hidx]

/-- The port finds every CSR at its address. -/
theorem locate_csrAddress (p : Params) (c : Csr) : locate p (0xD0000#20 + BitVec.ofNat 20 c.index) = some (.csr c) := by
  cases c <;> rfl

/-! ### The fault state -/

theorem step_of_host {e : HostEvent} {rest : List HostEvent} (h : s.host = e :: rest) :
    step s = hostEvent e { s with host := rest } := by
  simp only [step, takeEvent, h]

/-- Reset leaves the fault state (R265). -/
theorem faulted_resetUnit (s : State) : (resetUnit s).faulted = false := by
  rw [State.faulted, State.resetUnit_status]
  rfl

/-- A read in the fault state leaves nothing but its data: its bus fault cannot be raised again. -/
theorem hostRead_of_faulted (hf : s.faulted = true) (h : hostRead addr s = .next t) : ∃ data, t = returnData s data := by
  rcases hostRead_eq_next h with hdata | ⟨-, rfl⟩
  · exact hdata
  · exact ⟨0, by rw [busFault, raiseFault_of_faulted hf]⟩

/-- Settles O51: writes are ignored, reads leave their data alone, and reset clears STATUS. -/
theorem faultStateIsTerminal : Obligations.FaultStateIsTerminal := by
  intro s e rest hf hhost
  have hstep := step_of_host hhost
  have hf' : State.faulted { s with host := rest } = true := hf
  refine ⟨?_, ?_, fun t hne ht => ?_, ?_⟩
  · rintro a d rfl
    exact hstep.trans (hostWrite_of_faulted hf')
  · rintro a rfl
    exact hstep
  · rw [hstep] at ht
    cases e with
    | read a =>
      obtain ⟨data, rfl⟩ := hostRead_of_faulted hf' ht
      rfl
    | write a d =>
      cases (hostWrite_of_faulted hf').symm.trans ht
      rfl
    | reset => exact absurd rfl hne
  · rintro rfl
    exact ⟨_, hstep, faulted_resetUnit _⟩

/-! ### Reads -/

theorem hostRead_of_elem {x : Symbol} (hl : locate s.params addr = some (.elem sp k)) (hx : s.elem sp k = some x) :
    hostRead addr s = .next (returnData s (zext32 x)) := by
  simp only [hostRead, hl, hx]

theorem hostRead_of_csr (hl : locate s.params addr = some (.csr c)) : hostRead addr s = .next (returnData s (csrRead s c)) := by
  simp only [hostRead, hl]

theorem hostRead_of_none (hl : locate s.params addr = none) : hostRead addr s = .next (returnData (busFault addr s) 0) := by
  simp only [hostRead, hl]

/-- An address outside every space names no location. -/
theorem locate_eq_none (h : ∀ (sp : Space) k, k < sp.size p → addr.toNat ≠ addressOf sp k) : locate p addr = none := by
  cases hl : locate p addr with
  | none => rfl
  | some l =>
    have haddr := toNat_of_locate hl
    cases l with
    | elem sp k =>
      obtain ⟨-, hk, -⟩ := locate_elem hl
      exact absurd haddr (h sp k hk)
    | csr c => exact absurd haddr (h .csr c.index (c.index_lt_size p))

/-- The CSRs in the order of their indices. -/
def csrs : List Csr :=
  [.cmd, .status, .result, .ecnt, .lreg, .deg, .nroots, .finfo, .paramM, .paramPoly, .paramNr, .paramFcr, .paramN, .paramK]

/-- Settles O52: the port finds each location at its address, and none at any other. -/
theorem hostReadReturnsTheLocation : Obligations.HostReadReturnsTheLocation := by
  intro s
  refine ⟨fun sp k x hk hcsr hsize hx => hostRead_of_elem (locate_addressOf hk hcsr hsize) hx, fun e he => ?_,
    fun addr h => hostRead_of_none (locate_eq_none h)⟩
  obtain ⟨c, -, rfl⟩ := List.mem_map.1 (show e ∈ csrs.map fun c => (c.index, csrRead s c) from he)
  exact hostRead_of_csr (locate_csrAddress s.params c)

/-! ### Writes -/

theorem hostWrite_cmd (hf : s.faulted = false) (d : Word) : hostWrite cmdAddr d s = runCommand d s := by
  simp [hostWrite, hf]

/-- A write to a location other than CMD stores, or is a bus fault. -/
theorem hostWrite_of_ne_cmd (hf : s.faulted = false) (hl : locate s.params addr = some l) (hcmd : l ≠ .csr .cmd) (d : Word) :
    hostWrite addr d s = .next ((writeLocation s d l).getD (busFault addr s)) := by
  simp only [hostWrite, hf, hl, Bool.false_eq_true, if_false]
  cases writeLocation s d l <;> rfl

theorem hostWrite_of_some (hf : s.faulted = false) (hl : locate s.params addr = some l) (hcmd : l ≠ .csr .cmd)
    (hw : writeLocation s d l = some t) : hostWrite addr d s = .next t := by
  rw [hostWrite_of_ne_cmd hf hl hcmd, hw, Option.getD_some]

theorem writeElem_vreg (s : State) (r : VReg) (x : Symbol) : writeElem s .vreg r x = some (s.setV r x) := by
  rw [writeElem, Fin.ofNat_val_eq_self]

theorem writeElem_ireg (s : State) (r : IReg) (x : Symbol) : writeElem s .ireg r x = some (s.setI r x) := by
  rw [writeElem, Fin.ofNat_val_eq_self]

/-- A write to an element of a read-write space stores data that fits. -/
theorem hostWrite_addressOf (hf : s.faulted = false) (hd : d.toNat < s.params.q) (hk : k < 65536) (hcsr : sp ≠ .csr)
    (hsize : k < sp.size s.params) (hw : writeElem s sp k (d.setWidth 16) = some t) :
    hostWrite (BitVec.ofNat 20 (addressOf sp k)) d s = .next t :=
  hostWrite_of_some hf (locate_addressOf hk hcsr hsize) nofun ((if_pos hd).trans hw)

theorem hostWrite_ecnt (hf : s.faulted = false) (hd : d.toNat < 65536) :
    hostWrite 0xD0003#20 d s = .next { s with ecnt := d.setWidth 16 } :=
  hostWrite_of_some (l := .csr .ecnt) hf rfl nofun (if_pos hd)

/-- The spaces of the elements a host write can store to (R60, R63). -/
def storedSpaces : List Space := [.code, .eras, .vreg, .ireg]

theorem number_lt_of_mem_storedSpaces : ∀ sp ∈ storedSpaces, sp.number < 13 := by decide

theorem mem_storedSpaces_of_writeElem {x : Symbol} (h : writeElem s sp k x = some t) : sp ∈ storedSpaces := by
  cases sp <;> cases h <;> decide

/-- What a write other than a command can store to, and the data it can store there (R63). -/
theorem storable_of_writeLocation (h : writeLocation s d l = some t) :
    (d.toNat < s.params.q ∧ ∃ sp ∈ storedSpaces, ∃ k, l = .elem sp k) ∨
      (d.toNat < 65536 ∧ l = .csr .ecnt) := by
  cases l with
  | elem sp k =>
    rw [writeLocation] at h
    split at h
    · exact .inl ⟨‹_›, sp, mem_storedSpaces_of_writeElem h, k, rfl⟩
    · cases h
  | csr c =>
    obtain ⟨rfl, -⟩ := writeLocation_csr h
    rw [writeLocation] at h
    split at h
    · exact .inr ⟨‹_›, rfl⟩
    · cases h

/-- A write to no location, or one its location does not take, is a bus fault (R64). -/
theorem hostWrite_busFault (hf : s.faulted = false)
    (h : ∀ l, locate s.params addr = some l → l ≠ .csr .cmd ∧ writeLocation s d l = none) :
    hostWrite addr d s = .next { s with status := 0x61#32, finfo := addr.setWidth 32 } := by
  have hbus : hostWrite addr d s = .next (busFault addr s) := by
    cases hl : locate s.params addr with
    | none => simp [hostWrite, hf, hl]
    | some l =>
      obtain ⟨hcmd, hw⟩ := h l hl
      rw [hostWrite_of_ne_cmd hf hl hcmd, hw, Option.getD_none]
  exact hbus.trans (congrArg _ (raiseFault_of_not_faulted hf))

/-- The address is none a host write can store to or run a command from, or its data is too wide for a target there (R63). -/
def Rejected (p : Params) (addr : HostAddr) (d : Word) : Prop :=
  ((∀ k, k < p.n → addr.toNat ≠ k) ∧ (∀ k, k < p.nr → addr.toNat ≠ 0x10000 + k) ∧
    (∀ k, k < 8 → addr.toNat ≠ 0xB0000 + k ∧ addr.toNat ≠ 0xC0000 + k) ∧ addr.toNat ≠ 0xD0000 ∧ addr.toNat ≠ 0xD0003) ∨
  (addr.toNat < 0xD0000 ∧ p.q ≤ d.toNat) ∨ (addr.toNat = 0xD0003 ∧ 65536 ≤ d.toNat)

/-- CMD runs every word. -/
theorem Rejected.ne_cmd (hr : Rejected p addr d) (hl : locate p addr = some l) : l ≠ .csr .cmd := by
  rintro rfl
  have haddr : addr.toNat = 0xD0000 := toNat_of_locate hl
  rcases hr with ⟨-, -, -, hcmd, -⟩ | ⟨hlt, -⟩ | ⟨he, -⟩
  · exact hcmd haddr
  · omega
  · omega

/-- Nothing is stored at a rejected address: it is no read-write location, or the data does not fit there. -/
theorem Rejected.writeLocation_eq_none (hr : Rejected s.params addr d) (hl : locate s.params addr = some l) :
    writeLocation s d l = none := by
  have haddr := toNat_of_locate hl
  refine Option.eq_none_iff_forall_ne_some.2 fun t hw => ?_
  rcases storable_of_writeLocation hw with ⟨hd, sp, hsp, k, rfl⟩ | ⟨hd, rfl⟩
  · obtain ⟨-, hsize, -⟩ := locate_elem hl
    have hk := lt_of_locate_elem hl
    rcases hr with ⟨hcode, heras, hreg, -⟩ | ⟨-, hq⟩ | ⟨he, -⟩
    · simp only [storedSpaces, List.mem_cons, List.not_mem_nil, or_false] at hsp
      rcases hsp with rfl | rfl | rfl | rfl
      · exact hcode k hsize (haddr.trans (addressOf_code k))
      · exact heras k hsize haddr
      · exact (hreg k hsize).1 haddr
      · exact (hreg k hsize).2 haddr
    · omega
    · have hn : sp.number < 13 := number_lt_of_mem_storedSpaces sp hsp
      have : addr.toNat = sp.number * 65536 + k := haddr
      omega
  · have haddr : addr.toNat = 0xD0003 := haddr
    rcases hr with ⟨-, -, -, -, hecnt⟩ | ⟨hlt, -⟩ | ⟨-, hwide⟩
    · exact hecnt haddr
    · omega
    · omega

/-- Settles O53: the port finds each read-write location at its address, and nothing is stored at a rejected one. -/
theorem hostWriteFollowsItsRule : Obligations.HostWriteFollowsItsRule := by
  intro s d hvalid hf
  have hbounds := Params.bounds hvalid
  refine ⟨fun hd => ⟨fun k hk => ?_, fun k hk => ?_, fun r => ⟨?_, ?_⟩⟩, hostWrite_ecnt hf, hostWrite_cmd hf d,
    fun addr (hr : Rejected s.params addr d) => hostWrite_busFault hf fun l hl => ⟨hr.ne_cmd hl, hr.writeLocation_eq_none hl⟩⟩
  · have hw := hostWrite_addressOf (sp := .code) (k := k) hf hd (by omega) nofun hk rfl
    rwa [addressOf_code] at hw
  · exact hostWrite_addressOf (sp := .eras) (k := k) hf hd (by omega) nofun hk rfl
  · exact hostWrite_addressOf (sp := .vreg) (k := r.val) hf hd (by omega) nofun r.isLt (writeElem_vreg s r _)
  · exact hostWrite_addressOf (sp := .ireg) (k := r.val) hf hd (by omega) nofun r.isLt (writeElem_ireg s r _)

end Sys2Proof.Machine
end

section
/-! PROOFS. The fields of a command word (30_encoding.md R90 to R94): what each field of a packed word reads, and that a word
is its fields packed again, apart from the must-be-zero bits. -/

namespace Sys2Proof

/-! ### Fields in place -/

/-- The `n` bits from bit `lo` on. -/
def fieldMask (lo n : Nat) : Word := place (BitVec.allOnes n) lo

/-- A mask keeps its field and clears the rest. -/
theorem and_fieldMask (w : Word) (lo n : Nat) : w &&& fieldMask lo n = place (w.extractLsb' lo n) lo := by
  refine BitVec.eq_of_getLsbD_eq fun i hi => ?_
  rw [fieldMask, BitVec.getLsbD_and, getLsbD_place, getLsbD_place, BitVec.getLsbD_allOnes, BitVec.getLsbD_extractLsb']
  by_cases h : lo ≤ i
  · rw [Nat.add_sub_cancel' h, Bool.and_comm, Bool.and_assoc]
  · simp [h]

/-- A field is read back from where it was placed. -/
@[simp] theorem extractLsb'_place {n lo : Nat} (x : BitVec n) (h : lo + n ≤ 32) : (place x lo).extractLsb' lo n = x := by
  ext i hi
  simp only [BitVec.getElem_extractLsb', getLsbD_place]
  grind

/-- A field that does not meet the placed one reads 0. -/
@[simp] theorem extractLsb'_place_of_disjoint {m n lo lo' : Nat} (x : BitVec m) (h : lo + n ≤ lo' ∨ lo' + m ≤ lo) :
    (place x lo').extractLsb' lo n = 0#n := by
  ext i hi
  simp only [BitVec.getElem_extractLsb', getLsbD_place, BitVec.getElem_zero]
  grind

@[simp] theorem place_zero (n lo : Nat) : place (0#n) lo = 0 := by simp [place]

@[simp] theorem place_regBits_zero (lo : Nat) : place (regBits 0) lo = 0 := place_zero 3 lo

/-- Clearing bits that are 0 changes nothing. -/
theorem and_not_eq_self {w z : Word} (h : w &&& z = 0) : w &&& ~~~z = w :=
  calc w &&& ~~~z = (w &&& z) ||| (w &&& ~~~z) := by rw [h, BitVec.ofNat_eq_ofNat, BitVec.zero_or]
    _ = w := by rw [← BitVec.and_or_distrib_left, BitVec.or_not_self, BitVec.and_allOnes]

/-! ### The must-be-zero bits of each format are one field -/

theorem zeroBitsZ_eq : zeroBitsZ = fieldMask 0 26 := rfl
theorem zeroBitsI_eq : zeroBitsI = fieldMask 16 7 := rfl
theorem zeroBitsM_eq : zeroBitsM = fieldMask 16 3 := rfl
theorem zeroBitsR2_eq : zeroBitsR2 = fieldMask 0 20 := rfl
theorem zeroBitsR3_eq : zeroBitsR3 = fieldMask 0 17 := rfl
theorem zeroBitsR4_eq : zeroBitsR4 = fieldMask 0 14 := rfl

/-! ### Packing, then reading -/

section
variable (op : BitVec 6) (d a b c : Fin 8) (sp : BitVec 4) (imm : BitVec 16)

@[simp] theorem regField_packR_d : regField (packR op d a b c) 23 = d := by
  simp [regField, packR, BitVec.extractLsb'_or]

@[simp] theorem regField_packR_a : regField (packR op d a b c) 20 = a := by
  simp [regField, packR, BitVec.extractLsb'_or]

@[simp] theorem regField_packR_b : regField (packR op d a b c) 17 = b := by
  simp [regField, packR, BitVec.extractLsb'_or]

@[simp] theorem regField_packR_c : regField (packR op d a b c) 14 = c := by
  simp [regField, packR, BitVec.extractLsb'_or]

@[simp] theorem regField_packI : regField (packI op d imm) 23 = d := by
  simp [regField, packI, BitVec.extractLsb'_or]

@[simp] theorem immField_packI : immField (packI op d imm) = imm := by
  simp [immField, packI, BitVec.extractLsb'_or]

@[simp] theorem regField_packM : regField (packM op d sp imm) 23 = d := by
  simp [regField, packM, BitVec.extractLsb'_or]

@[simp] theorem spField_packM : spField (packM op d sp imm) = sp := by
  simp [spField, packM, BitVec.extractLsb'_or]

@[simp] theorem immField_packM : immField (packM op d sp imm) = imm := by
  simp [immField, packM, BitVec.extractLsb'_or]

@[simp] theorem packZ_and_zeroBitsZ : packZ op &&& zeroBitsZ = 0 := by
  simp [zeroBitsZ_eq, and_fieldMask, packZ]

@[simp] theorem packI_and_zeroBitsI : packI op d imm &&& zeroBitsI = 0 := by
  simp [zeroBitsI_eq, and_fieldMask, packI, BitVec.extractLsb'_or]

@[simp] theorem packM_and_zeroBitsM : packM op d sp imm &&& zeroBitsM = 0 := by
  simp [zeroBitsM_eq, and_fieldMask, packM, BitVec.extractLsb'_or]

@[simp] theorem packR_and_zeroBitsR2 : packR op d a 0 0 &&& zeroBitsR2 = 0 := by
  simp [zeroBitsR2_eq, and_fieldMask, packR, BitVec.extractLsb'_or]

@[simp] theorem packR_and_zeroBitsR3 : packR op d a b 0 &&& zeroBitsR3 = 0 := by
  simp [zeroBitsR3_eq, and_fieldMask, packR, BitVec.extractLsb'_or]

@[simp] theorem packR_and_zeroBitsR4 : packR op d a b c &&& zeroBitsR4 = 0 := by
  simp [zeroBitsR4_eq, and_fieldMask, packR, BitVec.extractLsb'_or]

end

/-! ### Reading, then packing -/

theorem place_opField (w : Word) : place (opField w) 26 = w &&& fieldMask 26 6 := (and_fieldMask w 26 6).symm

theorem place_regField (w : Word) (lo : Nat) : place (regBits (regField w lo)) lo = w &&& fieldMask lo 3 :=
  (and_fieldMask w lo 3).symm

theorem place_spField (w : Word) : place (spField w) 19 = w &&& fieldMask 19 4 := (and_fieldMask w 19 4).symm

theorem place_immField (w : Word) : place (immField w) 0 = w &&& fieldMask 0 16 := (and_fieldMask w 0 16).symm

section
variable (w : Word)

theorem packZ_fields : packZ (opField w) = w &&& ~~~zeroBitsZ := by
  rw [packZ, place_opField]
  rfl

theorem packI_fields : packI (opField w) (regField w 23) (immField w) = w &&& ~~~zeroBitsI := by
  simp only [packI, place_opField, place_regField, place_immField, ← BitVec.and_or_distrib_left]
  rfl

theorem packM_fields : packM (opField w) (regField w 23) (spField w) (immField w) = w &&& ~~~zeroBitsM := by
  simp only [packM, place_opField, place_regField, place_spField, place_immField, ← BitVec.and_or_distrib_left]
  rfl

theorem packR_fields_two : packR (opField w) (regField w 23) (regField w 20) 0 0 = w &&& ~~~zeroBitsR2 := by
  simp only [packR, place_opField, place_regField, place_regBits_zero, BitVec.ofNat_eq_ofNat, BitVec.or_zero,
    ← BitVec.and_or_distrib_left]
  rfl

theorem packR_fields_three :
    packR (opField w) (regField w 23) (regField w 20) (regField w 17) 0 = w &&& ~~~zeroBitsR3 := by
  simp only [packR, place_opField, place_regField, place_regBits_zero, BitVec.ofNat_eq_ofNat, BitVec.or_zero,
    ← BitVec.and_or_distrib_left]
  rfl

theorem packR_fields_four :
    packR (opField w) (regField w 23) (regField w 20) (regField w 17) (regField w 14) = w &&& ~~~zeroBitsR4 := by
  simp only [packR, place_opField, place_regField, ← BitVec.and_or_distrib_left]
  rfl

end

end Sys2Proof
end

section
/-! PROOFS. The decoder and the encoder (30_encoding.md R96, R97, R101): which words decode to a command, and to which; the
round trips; the opcode table; the words that are E_ILLEGAL. -/

namespace Sys2Proof

/-! ### What the decoder does -/

/-- The must-be-zero bits of a command's word (R91 to R94). -/
def Instr.zeroBits : Instr → Word
  | .nop | .encode | .synd | .eseed | .bm | .roots | .forney | .decode => zeroBitsZ
  | .ldiv .. | .ldii .. => zeroBitsI
  | .ldv .. | .stv .. | .ldx .. | .stx .. => zeroBitsM
  | .log .. | .exp .. | .vrcp .. | .asim .. => zeroBitsR2
  | .fadd .. | .imul .. | .idiv .. | .vmul .. | .vdiv .. => zeroBitsR3
  | .fmavv .. | .fmaiv .. | .fmaii .. => zeroBitsR4

/-- The command of the same opcode whose operands are the fields of `w`. -/
def Instr.withFieldsOf (w : Word) : Instr → Instr
  | .nop => .nop
  | .ldiv .. => .ldiv (regField w 23) (immField w)
  | .ldii .. => .ldii (regField w 23) (immField w)
  | .ldv .. => .ldv (regField w 23) (spField w) (immField w)
  | .stv .. => .stv (regField w 23) (spField w) (immField w)
  | .ldx .. => .ldx (regField w 23) (spField w) (immField w)
  | .stx .. => .stx (regField w 23) (spField w) (immField w)
  | .log .. => .log (regField w 23) (regField w 20)
  | .exp .. => .exp (regField w 23) (regField w 20)
  | .fadd .. => .fadd (regField w 23) (regField w 20) (regField w 17)
  | .imul .. => .imul (regField w 23) (regField w 20) (regField w 17)
  | .idiv .. => .idiv (regField w 23) (regField w 20) (regField w 17)
  | .vmul .. => .vmul (regField w 23) (regField w 20) (regField w 17)
  | .vdiv .. => .vdiv (regField w 23) (regField w 20) (regField w 17)
  | .vrcp .. => .vrcp (regField w 23) (regField w 20)
  | .fmavv .. => .fmavv (regField w 23) (regField w 20) (regField w 17) (regField w 14)
  | .fmaiv .. => .fmaiv (regField w 23) (regField w 20) (regField w 17) (regField w 14)
  | .fmaii .. => .fmaii (regField w 23) (regField w 20) (regField w 17) (regField w 14)
  | .asim .. => .asim (regField w 23) (regField w 20)
  | .encode => .encode
  | .synd => .synd
  | .eseed => .eseed
  | .bm => .bm
  | .roots => .roots
  | .forney => .forney
  | .decode => .decode

@[simp] theorem checkZero_eq_ok {w bits : Word} {i j : Instr} : checkZero w bits i = .ok j ↔ w &&& bits = 0 ∧ i = j := by
  unfold checkZero
  split
  case isTrue h => simp [h]
  case isFalse h => exact iff_of_false nofun fun hj => h hj.1

/-- The opcode selects the command, whose must-be-zero bits are then checked. -/
theorem decode_of_opField {w : Word} {i : Instr} (h : opField w = opcode i) :
    decode w = checkZero w i.zeroBits (i.withFieldsOf w) := by
  unfold decode
  rw [h]
  cases i <;> rfl

/-- The opcode of a word that decodes is its command's. -/
theorem opField_of_decode {w : Word} {i : Instr} (h : decode w = .ok i) : opField w = opcode i := by
  unfold decode at h
  dsimp only at h
  split at h
  case h_27 => cases h
  all_goals
    obtain ⟨-, rfl⟩ := checkZero_eq_ok.1 h
    exact BitVec.eq_of_toNat_eq ‹_›

/-- The words that decode to a command: its opcode, its must-be-zero bits 0, its operands in their fields. -/
theorem decode_eq_ok {w : Word} {i : Instr} :
    decode w = .ok i ↔ opField w = opcode i ∧ w &&& i.zeroBits = 0 ∧ i.withFieldsOf w = i := by
  constructor
  · intro h
    have hop := opField_of_decode h
    rw [decode_of_opField hop] at h
    exact ⟨hop, checkZero_eq_ok.1 h⟩
  · rintro ⟨hop, hfields⟩
    rw [decode_of_opField hop]
    exact checkZero_eq_ok.2 hfields

/-! ### The round trips -/

theorem opField_encode (i : Instr) : opField (encode i) = opcode i := by
  cases i <;> simp only [encode, opField_packZ, opField_packI, opField_packM, opField_packR]

theorem encode_and_zeroBits (i : Instr) : encode i &&& i.zeroBits = 0 := by
  cases i <;> simp only [encode, Instr.zeroBits, packZ_and_zeroBitsZ, packI_and_zeroBitsI, packM_and_zeroBitsM,
    packR_and_zeroBitsR2, packR_and_zeroBitsR3, packR_and_zeroBitsR4]

theorem withFieldsOf_encode (i : Instr) : i.withFieldsOf (encode i) = i := by
  cases i <;> simp [encode, Instr.withFieldsOf]

/-- Settles O1: every field of an encoded command reads back as its operand. -/
theorem decodeInvertsEncode : Obligations.DecodeInvertsEncode := fun i =>
  decode_eq_ok.2 ⟨opField_encode i, encode_and_zeroBits i, withFieldsOf_encode i⟩

/-- Encoding the fields of a word clears the must-be-zero bits and changes no other bit. -/
theorem encode_withFieldsOf {w : Word} {i : Instr} (h : opField w = opcode i) :
    encode (i.withFieldsOf w) = w &&& ~~~i.zeroBits := by
  cases i <;> simp only [Instr.zeroBits, ← packZ_fields, ← packI_fields, ← packM_fields, ← packR_fields_two,
    ← packR_fields_three, ← packR_fields_four, h] <;> rfl

/-- Settles O2: an accepted word is its fields, and its must-be-zero bits are 0. -/
theorem encodeInvertsDecode : Obligations.EncodeInvertsDecode := by
  intro w i h
  obtain ⟨hop, hzero, hfields⟩ := decode_eq_ok.1 h
  calc encode i = encode (i.withFieldsOf w) := by rw [hfields]
    _ = w &&& ~~~i.zeroBits := encode_withFieldsOf hop
    _ = w := and_not_eq_self hzero

/-- Settles O4: six closed words. -/
theorem specWordsDecode : Obligations.SpecWordsDecode := by
  unfold Obligations.SpecWordsDecode
  decide

/-! ### Agreement with an opcode and zero bits -/

/-- No bit of the opcode is a must-be-zero bit. -/
theorem fieldMask_and_zeroBits (i : Instr) : fieldMask 26 6 &&& i.zeroBits = 0 := by
  cases i <;> (simp only [Instr.zeroBits]; decide)

/-- An opcode meets no bits outside its field. -/
theorem packZ_and_of_disjoint {z : Word} (hz : fieldMask 26 6 &&& z = 0) (op : BitVec 6) : packZ op &&& z = 0 :=
  calc packZ op &&& z = packZ op &&& fieldMask 26 6 &&& z := by rw [← place_opField, opField_packZ, packZ]
    _ = 0 := by rw [BitVec.and_assoc, hz, BitVec.ofNat_eq_ofNat, BitVec.and_zero]

/-- A word agrees with an opcode on the opcode's bits and on `z` when that is its opcode and its bits in `z` are 0. -/
theorem and_mask_eq_packZ {w z : Word} {op : BitVec 6} (hz : fieldMask 26 6 &&& z = 0) :
    w &&& (fieldMask 26 6 ||| z) = packZ op ↔ opField w = op ∧ w &&& z = 0 := by
  have hsplit : w &&& (fieldMask 26 6 ||| z) = packZ (opField w) ||| w &&& z := by
    rw [BitVec.and_or_distrib_left, ← place_opField, packZ]
  rw [hsplit]
  constructor
  · intro h
    have hzero : w &&& z = 0 :=
      calc w &&& z = (packZ (opField w) ||| w &&& z) &&& z := by
            rw [BitVec.and_or_distrib_right, packZ_and_of_disjoint hz, BitVec.and_assoc, BitVec.and_self, BitVec.ofNat_eq_ofNat,
              BitVec.zero_or]
        _ = 0 := by rw [h, packZ_and_of_disjoint hz]
    rw [hzero, BitVec.ofNat_eq_ofNat, BitVec.or_zero] at h
    exact ⟨by rw [← opField_packZ (opField w), h, opField_packZ], hzero⟩
  · rintro ⟨rfl, hzero⟩
    rw [hzero, BitVec.ofNat_eq_ofNat, BitVec.or_zero]

end Sys2Proof

namespace Sys2Proof.Machine

variable {w : Word} {i : Instr}

/-! ### The opcode table -/

/-- A command's row of the opcode table: its match and its mask (R96). -/
def opcodeRow (i : Instr) : Word × Word := (packZ (opcode i), fieldMask 26 6 ||| i.zeroBits)

theorem opcodeRow_mem (i : Instr) : opcodeRow i ∈ opcodeRows := by
  cases i <;> (simp only [opcodeRow, opcode, Instr.zeroBits]; decide)

/-- The match of a row, which has zero operands, is a command of that row. -/
theorem decode_match_of_mem_opcodeRows : ∀ r ∈ opcodeRows, (decode r.1).map opcodeRow = .ok r :=
  List.map_inj_left.1 (by decide)

/-- Every row is the row of a command. -/
theorem exists_opcodeRow_eq {r : Word × Word} (h : r ∈ opcodeRows) : ∃ i, opcodeRow i = r := by
  have hrow := decode_match_of_mem_opcodeRows r h
  cases hd : decode r.1 <;> rw [hd] at hrow
  case ok i => exact ⟨i, Except.ok.inj hrow⟩
  case error => cases hrow

/-- A word is of a command's row when it has the command's opcode and its must-be-zero bits are 0. -/
theorem and_opcodeRow_eq : w &&& (opcodeRow i).2 = (opcodeRow i).1 ↔ opField w = opcode i ∧ w &&& i.zeroBits = 0 :=
  and_mask_eq_packZ (fieldMask_and_zeroBits i)

/-- Settles O3: a word of a command's row decodes to that command with the operands in the word's fields. -/
theorem decodeAcceptsExactlyTheOpcodeTable : Obligations.DecodeAcceptsExactlyTheOpcodeTable := by
  intro w
  constructor
  · rintro ⟨i, h⟩
    obtain ⟨hop, hzero, -⟩ := decode_eq_ok.1 h
    exact ⟨opcodeRow i, opcodeRow_mem i, and_opcodeRow_eq.2 ⟨hop, hzero⟩⟩
  · rintro ⟨r, hr, h⟩
    obtain ⟨i, rfl⟩ := exists_opcodeRow_eq hr
    obtain ⟨hop, hzero⟩ := and_opcodeRow_eq.1 h
    exact ⟨i.withFieldsOf w, by rw [decode_of_opField hop, checkZero_eq_ok]; exact ⟨hzero, rfl⟩⟩

/-! ### Illegal words -/

/-- Only an M-format command can be ill-formed, by its space (R97). -/
theorem not_wf_cases (h : i.wf = false) : ∃ r sp idx, (i = .ldv r sp idx ∧ sp.toNat ∉ ldvSpaceNumbers) ∨
    (i = .stv r sp idx ∧ sp.toNat ≠ 0) ∨ (i = .ldx r sp idx ∧ sp.toNat ∉ ldxSpaceNumbers) ∨
    (i = .stx r sp idx ∧ sp.toNat ≠ 1) := by
  cases i
  case ldv r sp idx => exact ⟨r, sp, idx, .inl ⟨rfl, of_decide_eq_false h⟩⟩
  case stv r sp idx => exact ⟨r, sp, idx, .inr (.inl ⟨rfl, of_decide_eq_false h⟩)⟩
  case ldx r sp idx => exact ⟨r, sp, idx, .inr (.inr (.inl ⟨rfl, of_decide_eq_false h⟩))⟩
  case stx r sp idx => exact ⟨r, sp, idx, .inr (.inr (.inr ⟨rfl, of_decide_eq_false h⟩))⟩
  all_goals cases h

/-- An ill-formed command names no space, and is E_ILLEGAL (R163 to R166). -/
theorem exec_of_not_wf (h : i.wf = false) (s : State) : exec i s = .next (raiseFault (encode i) .illegal s) := by
  obtain ⟨r, sp, idx, ⟨rfl, hsp⟩ | ⟨rfl, hsp⟩ | ⟨rfl, hsp⟩ | ⟨rfl, hsp⟩⟩ := not_wf_cases h
  · have hnone : ldvSpace sp = none := by simpa [hsp] using ldvSpace_isSome sp
    rw [exec, execLdv, hnone]
    rfl
  · have hnone : stvSpace sp = none := by simpa [hsp] using stvSpace_isSome sp
    rw [exec, execStv, hnone]
    rfl
  · have hnone : ldxSpace sp = none := by simpa [hsp] using ldxSpace_isSome sp
    rw [exec, execLdx, hnone]
    rfl
  · have hnone : stxSpace sp = none := by simpa [hsp] using stxSpace_isSome sp
    rw [exec, execStx, hnone]
    rfl

/-- A word of no row, or of a command with a space it does not allow, raises E_ILLEGAL with FINFO the word (R97). -/
theorem runCommand_of_illegal
    (h : (∀ r ∈ opcodeRows, w &&& r.2 ≠ r.1) ∨ ∃ i, decode w = .ok i ∧ i.wf = false) (s : State) :
    runCommand w s = .next (raiseFault w .illegal s) := by
  rcases runCommand_cases w s with ⟨i, hdecode, hrun⟩ | ⟨-, -, hrun⟩
  · rcases h with hrows | ⟨j, hj, hwf⟩
    · obtain ⟨r, hr, hagree⟩ := (decodeAcceptsExactlyTheOpcodeTable w).1 ⟨i, hdecode⟩
      exact absurd hagree (hrows r hr)
    · obtain rfl : i = j := Except.ok.inj (hdecode.symm.trans hj)
      rw [hrun, exec_of_not_wf hwf, encodeInvertsDecode w i hdecode]
  · exact hrun

/-- Settles O5: the decoder or the command raises E_ILLEGAL, and a word of a row is the encoding of its command. -/
theorem illegalWordRaisesIllegal : Obligations.IllegalWordRaisesIllegal := by
  intro w
  refine ⟨fun h s hs => ?_, fun r hr hagree => ?_⟩
  · exact (runCommand_of_illegal h s).trans (congrArg _ (raiseFault_of_not_faulted hs))
  · obtain ⟨i, hdecode⟩ := (decodeAcceptsExactlyTheOpcodeTable w).2 ⟨r, hr, hagree⟩
    exact ⟨i, hdecode, encodeInvertsDecode w i hdecode, not_wf_cases⟩

end Sys2Proof.Machine
end

section
/-! PROOFS. The operands of the field ALU commands: what an index factor and a divisor give, and how their faults end the
command (40_field_alu.md R121, R124, 60_exceptions.md R262). -/

namespace Sys2Proof.Machine

variable {s : State} {α : Type}

/-- A fault with FAULT = 0 sets the latch over the state the command started from. -/
theorem complete_raise_of_not_faulted {r : Run State} {c : Cause} (hr : r = .error (.raise c)) (hf : s.faulted = false) (i : Instr) :
    complete i s r = .next { s with status := faultStatus c, finfo := encode i } := by
  rw [hr, complete_raise, raiseFault_of_not_faulted hf]

theorem factorOperand_of_ne {r : IReg} (h : s.i r ≠ s.params.n) : factorOperand s r = .ok (s.i r) :=
  factorOperand_eq_ok.2 ⟨h, rfl⟩

theorem factorOperand_of_eq {r : IReg} (h : s.i r = s.params.n) : factorOperand s r = .error (.raise .sentinel) := if_pos h

theorem divisorOperand_of_ne {r : VReg} (h : s.v r ≠ 0) : divisorOperand s r = .ok (s.v r) :=
  divisorOperand_eq_ok.2 ⟨h, rfl⟩

theorem divisorOperand_of_eq {r : VReg} (h : s.v r = 0) : divisorOperand s r = .error (.raise .divZero) := if_pos h

theorem factorOperand_bind_of_eq {a : IReg} (h : s.i a = s.params.n) (f : Nat → Run α) :
    (factorOperand s a >>= f) = .error (.raise .sentinel) := by
  rw [factorOperand_of_eq h, run_bind_error]

theorem divisorOperand_bind_of_eq {a : VReg} (h : s.v a = 0) (f : Value → Run α) :
    (divisorOperand s a >>= f) = .error (.raise .divZero) := by
  rw [divisorOperand_of_eq h, run_bind_error]

theorem factorOperands_bind_of_ne {a b : IReg} (ha : s.i a ≠ s.params.n) (hb : s.i b ≠ s.params.n) (f : Nat → Nat → Run α) :
    (factorOperand s a >>= fun i => factorOperand s b >>= fun j => f i j) = f (s.i a) (s.i b) := by
  rw [factorOperand_of_ne ha, run_bind_ok, factorOperand_of_ne hb, run_bind_ok]

/-- A sentinel in either of two factors is E_SENTINEL. -/
theorem factorOperands_bind_of_eq {a b : IReg} (h : s.i a = s.params.n ∨ s.i b = s.params.n) (f : Nat → Nat → Run α) :
    (factorOperand s a >>= fun i => factorOperand s b >>= fun j => f i j) = .error (.raise .sentinel) := by
  by_cases ha : s.i a = s.params.n
  · exact factorOperand_bind_of_eq ha _
  · rw [factorOperand_of_ne ha, run_bind_ok]
    exact factorOperand_bind_of_eq (h.resolve_left ha) _

end Sys2Proof.Machine
end

section
/-! PROOFS. The index ALU (40_field_alu.md R111, R112, R121, R122): the residues of a sum and of a difference. -/

namespace Sys2Proof.Machine

variable {s : State} {p : Params} {d a b : IReg}

/-- `idiv` answers the index below N that adds with `j` to `i` (R112). -/
theorem idiv_spec (hn : 0 < p.n) (i j : Nat) : idiv p i j < p.n ∧ (idiv p i j + j) % p.n = i % p.n := by
  have hpos : (0 : Int) < p.n := by omega
  have hcast : (idiv p i j : Int) = (i - j) % p.n := Int.toNat_of_nonneg (Int.emod_nonneg _ hpos.ne')
  constructor
  · have := Int.emod_lt_of_pos ((i : Int) - j) hpos
    omega
  · have : ((idiv p i j + j : Nat) : Int) % p.n = i % p.n := by
      rw [Nat.cast_add, hcast, Int.emod_add_emod, Int.sub_add_cancel]
    exact_mod_cast this

/-- Writing an index that fits leaves it in I[d] and changes nothing else. -/
theorem setI_toIndex_spec (s : State) (d : IReg) {k : Nat} (hk : k < 65536) :
    (s.setI d (toIndex k)).i d = k ∧ (∀ r, r ≠ d → (s.setI d (toIndex k)).i r = s.i r) ∧
      { s.setI d (toIndex k) with ireg := s.ireg } = s :=
  ⟨by rw [State.i_setI_same, toIndex, BitVec.toNat_ofNat, Nat.mod_eq_of_lt hk], fun r hr => s.i_setI_other d r _ hr, rfl⟩

theorem exec_imul_of_ne (ha : s.i a ≠ s.params.n) (hb : s.i b ≠ s.params.n) :
    exec (.imul d a b) s = .next (s.setI d (toIndex (imul s.params (s.i a) (s.i b)))) :=
  congrArg (complete (.imul d a b) s) (factorOperands_bind_of_ne ha hb _)

theorem exec_idiv_of_ne (ha : s.i a ≠ s.params.n) (hb : s.i b ≠ s.params.n) :
    exec (.idiv d a b) s = .next (s.setI d (toIndex (idiv s.params (s.i a) (s.i b)))) :=
  congrArg (complete (.idiv d a b) s) (factorOperands_bind_of_ne ha hb _)

/-- Settles O18: the residues fit into an index register; a sentinel in either operand stops the command. -/
theorem indexAluFollowsItsRules : Obligations.IndexAluFollowsItsRules := by
  intro s d a b hn hn'
  refine ⟨fun ha hb => ⟨?_, ?_⟩, fun h hf => ⟨?_, ?_⟩⟩
  · have hlt : imul s.params (s.i a) (s.i b) < s.params.n := Nat.mod_lt _ hn
    exact ⟨_, exec_imul_of_ne ha hb, setI_toIndex_spec s d (hlt.trans_le hn')⟩
  · obtain ⟨hlt, hsum⟩ := idiv_spec hn (s.i a) (s.i b)
    obtain ⟨hd, hframe⟩ := setI_toIndex_spec s d (hlt.trans_le hn')
    exact ⟨_, exec_idiv_of_ne ha hb, by rwa [hd], by rwa [hd], hframe⟩
  · exact complete_raise_of_not_faulted (factorOperands_bind_of_eq h _) hf _
  · exact complete_raise_of_not_faulted (factorOperands_bind_of_eq h _) hf _

end Sys2Proof.Machine
end

section
/-! PROOFS. The field laws of the value operations (40_field_alu.md R119): division is the product with the reciprocal,
because the residue of a difference of logarithms is that of a sum. -/

namespace Sys2Proof.Machine

variable {p : Params}

/-- The residue of a difference, without going below 0. -/
theorem toNat_sub_emod {i j n : Nat} (hj : j ≤ n) : (((i : Int) - j) % n).toNat = (n - j + i) % n := by
  have hcast : ((n - j + i : Nat) : Int) = (i - j) + n := by omega
  rw [← Int.add_emod_right, ← hcast, ← Int.natCast_emod, Int.toNat_natCast]

theorem divV_eq_mulV_rcp (h : p.valid = true) (a b : Value) : divV p a b = mulV p a (rcp p b) := by
  rw [mulV_comm, rcp, mulV_expt_left h, divV, mulIv, toNat_sub_emod (logt_le p b)]

/-- Settles O25: the laws of the unit's field, and the quotient as a product. -/
theorem fieldLaws : Obligations.FieldLaws := by
  intro p h a b c ha hb hc
  have hone : mulV p a 1 = a := (mulV_comm a 1).trans (one_mulV h ha)
  exact ⟨mulV_lt h a b, mulV_comm a b, mulV_assoc h ha hb hc, mulV_add h ha hb hc, hone, BitVec.xor_zero, BitVec.xor_self,
    fun h0 => mulV_rcp h h0 ha, fun _ => divV_eq_mulV_rcp h a b⟩

end Sys2Proof.Machine
end

section
/-! PROOFS. The Artin-Schreier map x² + x (40_field_alu.md R117, 41_tables_and_generator.md R143): two values of one image
are equal or differ by 1, so it is injective on the even values, and the search that fills ASIT finds its inverse there. -/

namespace Sys2Proof.Machine

variable {p : Params}

/-- x² + x in the unit's field. -/
def artinSchreier (p : Params) (x : Value) : Value := add (mulV p x x) x

@[simp] theorem artinSchreier_zero (p : Params) : artinSchreier p 0 = 0 := by simp [artinSchreier, add]

/-- The builder's y is x² + x (R143). -/
theorem asitImage_eq {x : Value} (h0 : x ≠ 0) : asitImage p x = artinSchreier p x := by
  rw [asitImage, artinSchreier, mulV, if_neg (not_or.2 ⟨h0, h0⟩), Nat.two_mul, add]

/-- Two values of one image are the two solutions of a quadratic equation: equal, or 1 apart. -/
theorem eq_or_add_eq_one_of_artinSchreier_eq (h : p.valid = true) {x z : Value} (hx : x.toNat < p.q) (hz : z.toNat < p.q)
    (he : artinSchreier p x = artinSchreier p z) : x = z ∨ add x z = 1 := by
  let := elemField h
  let x' : Elem p := ⟨x, hx⟩
  let z' : Elem p := ⟨z, hz⟩
  have himage : x' * x' + x' = z' * z' + z' := Subtype.ext he
  have hprod : (x' - z') * (x' + z' - 1) = 0 := by
    have htwo : (1 : Elem p) + 1 = 0 := Subtype.ext (BitVec.xor_self (x := 1))
    linear_combination himage - (x' - z') * htwo
  rcases mul_eq_zero.1 hprod with h0 | h1
  · exact .inl (congrArg Subtype.val (sub_eq_zero.1 h0))
  · exact .inr (congrArg Subtype.val (sub_eq_zero.1 h1))

/-- Even values are not 1 apart. -/
theorem artinSchreier_inj_of_even (h : p.valid = true) {x z : Value} (hx : x.toNat < p.q) (hz : z.toNat < p.q)
    (hxe : x.toNat % 2 = 0) (hze : z.toNat % 2 = 0) (he : artinSchreier p x = artinSchreier p z) : x = z := by
  refine (eq_or_add_eq_one_of_artinSchreier_eq h hx hz he).resolve_right fun h1 => ?_
  have hxor : (x.toNat ^^^ z.toNat) % 2 = 1 := by rw [← BitVec.toNat_xor, ← add, h1]; rfl
  rw [Nat.xor_mod_two_eq] at hxor
  omega

/-- The search of R143: the last entry of the list that passes the test, or the start value when none does. -/
theorem foldl_ite_cases {α β : Type} (P : α → Prop) [DecidablePred P] (g : α → β) (b : β) (xs : List α) :
    (∃ x ∈ xs, P x ∧ xs.foldl (fun entry x => if P x then g x else entry) b = g x) ∨
    ((∀ x ∈ xs, ¬P x) ∧ xs.foldl (fun entry x => if P x then g x else entry) b = b) := by
  induction xs using List.reverseRecOn with
  | nil => simp
  | append_singleton xs x ih =>
    simp only [List.foldl_append, List.foldl_cons, List.foldl_nil]
    by_cases hx : P x
    · exact .inl ⟨x, by simp, hx, if_pos hx⟩
    · rw [if_neg hx]
      rcases ih with ⟨z, hz, hP, hfold⟩ | ⟨hnone, hfold⟩
      · exact .inl ⟨z, by simp [hz], hP, hfold⟩
      · exact .inr ⟨by simpa [or_imp, forall_and, hx] using hnone, hfold⟩

/-- The builder searches the even values from 2 on (R143). -/
theorem mem_asitDomain (h : p.valid = true) {k : Nat} : k ∈ asitDomain p ↔ 2 ≤ k ∧ k < p.q ∧ k % 2 = 0 := by
  obtain ⟨hm, -⟩ := Params.valid_iff.1 h
  have hq : 2 ∣ p.q := dvd_pow_self 2 (by omega)
  rw [asitDomain, List.mem_range']
  constructor
  · rintro ⟨i, hi, rfl⟩
    omega
  · rintro ⟨h2, hk, heven⟩
    exact ⟨k / 2 - 1, by omega, by omega⟩

/-- An entry of ASIT is an even value from 2 on of the image it stands at, or 0 where no such value has that image. -/
theorem asit_cases (h : p.valid = true) (y : Value) :
    (2 ≤ (asit p y).toNat ∧ (asit p y).toNat < p.q ∧ (asit p y).toNat % 2 = 0 ∧ artinSchreier p (asit p y) = y) ∨
    (asit p y = 0 ∧ ∀ x : Value, 2 ≤ x.toNat → x.toNat < p.q → x.toNat % 2 = 0 → artinSchreier p x ≠ y) := by
  have hq := (Params.bounds h).2.1
  have himage : ∀ x : Value, 2 ≤ x.toNat → asitImage p x = artinSchreier p x := fun x hx =>
    asitImage_eq fun h0 => by simp [h0] at hx
  rcases foldl_ite_cases (fun k => asitImage p (BitVec.ofNat 16 k) = y) (BitVec.ofNat 16) 0 (asitDomain p) with
    ⟨k, hk, hy, hfold⟩ | ⟨hnone, hfold⟩
  · obtain ⟨h2, hkq, heven⟩ := (mem_asitDomain h).1 hk
    have hasit : asit p y = BitVec.ofNat 16 k := hfold
    have hval : (BitVec.ofNat 16 k).toNat = k := Nat.mod_eq_of_lt (hkq.trans_le hq)
    rw [hasit, hval]
    exact .inl ⟨h2, hkq, heven, (himage _ (by rwa [hval])).symm.trans hy⟩
  · refine .inr ⟨hfold, fun x h2 hxq heven he => hnone x.toNat ((mem_asitDomain h).2 ⟨h2, hxq, heven⟩) ?_⟩
    rw [BitVec.ofNat_toNat, BitVec.setWidth_eq, himage x h2, he]

/-- Settles O26: the search finds a preimage wherever there is one, and the map is injective on the even values. -/
theorem asitInvertsTheArtinSchreierMap : Obligations.AsitInvertsTheArtinSchreierMap := by
  intro p h
  refine ⟨?_, fun x h2 hxq hxe => ?_, fun y hy => ?_⟩
  · rcases asit_cases h 0 with ⟨-, hlt, heven, himage⟩ | ⟨hzero, -⟩
    · exact artinSchreier_inj_of_even h hlt p.q_pos heven rfl (himage.trans (artinSchreier_zero p).symm)
    · exact hzero
  · rcases asit_cases h (artinSchreier p x) with ⟨-, hlt, heven, himage⟩ | ⟨-, hnone⟩
    · exact artinSchreier_inj_of_even h hlt hxq heven hxe himage
    · exact absurd rfl (hnone x h2 hxq hxe)
  · rcases asit_cases h y with ⟨-, hlt, heven, himage⟩ | ⟨hzero, -⟩
    · exact ⟨heven, hlt, himage⟩
    · exact absurd hzero hy

end Sys2Proof.Machine
end

section
/-! PROOFS. The value commands of the field ALU (40_field_alu.md R113 to R116, R120, R123 to R129), operand by operand. -/

namespace Sys2Proof.Machine

variable {s : State} {p : Params}

theorem mulV_of_zero {x y : Value} (h : x = 0 ∨ y = 0) : mulV p x y = 0 := if_pos h

theorem mulV_of_ne {x y : Value} (hx : x ≠ 0) (hy : y ≠ 0) : mulV p x y = expt p ((logt p x + logt p y) % p.n) :=
  if_neg (not_or.2 ⟨hx, hy⟩)

theorem divV_of_ne {x : Value} (hx : x ≠ 0) (y : Value) :
    divV p x y = expt p (((logt p x : Int) - (logt p y : Int)) % (p.n : Int)).toNat := if_neg hx

theorem add_zero_left (x : Value) : add 0 x = x := BitVec.zero_xor

theorem exec_vmul (d a b : VReg) (s : State) : exec (.vmul d a b) s = .next (s.setV d (mulV s.params (s.v a) (s.v b))) := rfl

theorem exec_fmavv (d a b c : VReg) (s : State) :
    exec (.fmavv d a b c) s = .next (s.setV d (add (mulV s.params (s.v a) (s.v b)) (s.v c))) := rfl

theorem exec_vdiv_of_ne {b : VReg} (hb : s.v b ≠ 0) (d a : VReg) :
    exec (.vdiv d a b) s = .next (s.setV d (divV s.params (s.v a) (s.v b))) := by
  rw [exec, execVdiv, divisorOperand_of_ne hb, run_bind_ok, complete_ok]

theorem exec_vrcp_of_ne {a : VReg} (ha : s.v a ≠ 0) (d : VReg) : exec (.vrcp d a) s = .next (s.setV d (rcp s.params (s.v a))) := by
  rw [exec, execVrcp, divisorOperand_of_ne ha, run_bind_ok, complete_ok]

theorem exec_fmaiv_of_ne {a : IReg} (ha : s.i a ≠ s.params.n) (d b c : VReg) :
    exec (.fmaiv d a b c) s = .next (s.setV d (fmaIv s.params (s.i a) (s.v b) (s.v c))) := by
  rw [exec, execFmaiv, factorOperand_of_ne ha, run_bind_ok, complete_ok]

theorem exec_fmaii_of_ne {a b : IReg} (ha : s.i a ≠ s.params.n) (hb : s.i b ≠ s.params.n) (d c : VReg) :
    exec (.fmaii d a b c) s = .next (s.setV d (fmaIi s.params (s.i a) (s.i b) (s.v c))) :=
  congrArg (complete (.fmaii d a b c) s) (factorOperands_bind_of_ne ha hb _)

theorem exec_asim_of_elem {a : VReg} {x : Value} (hx : s.elem .asit (s.v a).toNat = some x) (d : VReg) :
    exec (.asim d a) s = .next (s.setV d x) := by
  have hentry : asit s.params (s.v a) = x := by simpa [State.elem] using hx
  rw [exec, execAsim, asImap, hentry]

/-- Settles O17: the product splits on a zero factor. -/
theorem faultFreeValueResults : Obligations.FaultFreeValueResults := by
  intro s d a b c
  refine ⟨rfl, fun h => ⟨?_, ?_⟩, fun ha hb => ⟨?_, ?_⟩, fun x hx => exec_asim_of_elem hx d⟩
  · rw [exec_vmul, mulV_of_zero h]
    rfl
  · rw [exec_fmavv, mulV_of_zero h, add_zero_left]
    rfl
  · rw [exec_vmul, mulV_of_ne ha hb]
    rfl
  · rw [exec_fmavv, mulV_of_ne ha hb]
    rfl

/-- Settles O19: the divisor is tested before the dividend is looked at. -/
theorem divisionFollowsItsRules : Obligations.DivisionFollowsItsRules := by
  intro s d a b
  refine ⟨fun hb ha => ?_, fun hb ha => ?_, fun hb hf => ?_, fun ha => exec_vrcp_of_ne ha d, fun ha hf => ?_⟩
  · rw [exec_vdiv_of_ne hb, divV, if_pos ha]
    rfl
  · rw [exec_vdiv_of_ne hb, divV_of_ne ha]
    rfl
  · exact complete_raise_of_not_faulted (divisorOperand_bind_of_eq hb _) hf _
  · exact complete_raise_of_not_faulted (divisorOperand_bind_of_eq ha _) hf _

/-- Settles O20: the index factors are tested before V[b] is looked at. -/
theorem indexFusedMultiplyAddsFollowTheirRules : Obligations.IndexFusedMultiplyAddsFollowTheirRules := by
  intro s d a b c
  refine ⟨fun ha => exec_fmaiv_of_ne ha d b c, fun ha hf => ?_, fun ha hb => exec_fmaii_of_ne ha hb d c, fun h hf => ?_⟩
  · exact complete_raise_of_not_faulted (factorOperand_bind_of_eq ha _) hf _
  · exact complete_raise_of_not_faulted (factorOperands_bind_of_eq h _) hf _

end Sys2Proof.Machine
end

section
/-! PROOFS. The laws of LOGT and EXPT (41_tables_and_generator.md R145): the walk doubles until the bit M − 1 is set, and its
next step leaves POLY without bit M. -/

namespace Sys2Proof.Machine

variable {p : Params}

/-- Below bit M − 1 a step of the walk only doubles. -/
theorem walkStep_two_pow (hm : 1 ≤ p.m) {i : Nat} (hi : i < p.m - 1) : walkStep p (2 ^ i) = 2 ^ (i + 1) := by
  have hbit : (2 ^ i).testBit (p.m - 1) = false := Nat.testBit_two_pow_of_ne (by omega)
  rw [walkStep_eq hm, hbit, if_neg Bool.false_ne_true, Nat.shiftLeft_eq, pow_one, pow_succ]

theorem alphaPow_eq_two_pow (hm : 1 ≤ p.m) {i : Nat} (hi : i < p.m) : alphaPow p i = 2 ^ i := by
  induction i with
  | zero => rfl
  | succ i ih => rw [alphaPow_succ, ih (by omega), walkStep_two_pow hm (by omega)]

/-- Adding x^M to POLY, whose only bit from M up is M, removes that bit. -/
theorem q_xor_poly (hp : p.poly >>> p.m = 1) : p.q ^^^ p.poly = p.poly - p.q := by
  have hdiv : p.poly / p.q = 1 := (Nat.shiftRight_eq_div_pow p.poly p.m).symm.trans hp
  have hlow : (p.q ^^^ p.poly) / p.q = 0 := by
    rw [Params.q, Nat.xor_div_two_pow, ← Params.q, hdiv, Nat.div_self p.q_pos, Nat.xor_self]
  have hmod : (p.q ^^^ p.poly) % p.q = p.poly % p.q := by
    rw [Params.q, Nat.xor_mod_two_pow, Nat.mod_self, Nat.zero_xor]
  have hxor := Nat.div_add_mod (p.q ^^^ p.poly) p.q
  have hpoly := Nat.div_add_mod p.poly p.q
  rw [hlow, hmod] at hxor
  rw [hdiv] at hpoly
  omega

/-- The first step that subtracts POLY is the one from x^(M−1). -/
theorem alphaPow_m (hm : 1 ≤ p.m) (hp : p.poly >>> p.m = 1) : alphaPow p p.m = p.poly - p.q := by
  obtain ⟨k, hk⟩ := Nat.exists_eq_add_of_le' hm
  have hshift : 2 ^ k <<< 1 = p.q := by rw [Params.q, hk, Nat.shiftLeft_eq, pow_one, pow_succ]
  calc alphaPow p p.m
    _ = walkStep p (2 ^ k) := by rw [hk, alphaPow_succ, alphaPow_eq_two_pow hm (by omega)]
    _ = p.q ^^^ p.poly := by rw [walkStep_eq hm, show p.m - 1 = k by omega, Nat.testBit_two_pow_self, if_pos rfl, hshift]
    _ = p.poly - p.q := q_xor_poly hp

theorem m_lt_n (h : p.valid = true) : p.m < p.n := by
  obtain ⟨hm, -⟩ := Params.valid_iff.1 h
  obtain ⟨k, hk⟩ := Nat.exists_eq_add_of_le' hm
  have hpow : k < 2 ^ k := Nat.lt_two_pow_self
  have hq : p.q = 4 * 2 ^ k := by
    rw [Params.q, hk]
    ring
  rw [Params.n, hq]
  omega

theorem logt_one (h : p.valid = true) : logt p 1 = 0 := by rw [← expt_zero h, logt_expt h (n_pos h)]

theorem logt_two (h : p.valid = true) : logt p 2 = 1 := by
  obtain ⟨hm, -⟩ := Params.valid_iff.1 h
  have hn : 1 < p.n := by
    have := Params.bounds h
    omega
  have hexp : expt p 1 = 2 := BitVec.eq_of_toNat_eq (by rw [toNat_expt h hn, alphaPow_eq_two_pow (by omega) (by omega)]; rfl)
  rw [← hexp, logt_expt h hn]

/-- Settles O24: LOGT inverts the walk, which meets every nonzero value, and the first M steps of the walk double. -/
theorem tablesAreInverse : Obligations.TablesAreInverse := by
  intro p h
  obtain ⟨hm, -, hp, -⟩ := Params.valid_iff.1 h
  have hn := m_lt_n h
  exact ⟨fun i hi => logt_expt h hi, fun v h0 hv => ⟨(alphaPow_logt h h0 hv).1, expt_logt h h0 hv⟩, logt_zero p,
    expt_sentinel p, logt_one h, logt_two h,
    fun i hi => (toNat_expt h (hi.trans hn)).trans (alphaPow_eq_two_pow (by omega) hi),
    (toNat_expt h hn).trans (alphaPow_m (by omega) hp)⟩

end Sys2Proof.Machine
end

section
/-! PROOFS. The evaluation of a polynomial given by its coefficients, low degree first (46_rootfinder.md R224), coefficient by
coefficient. -/

namespace Sys2Proof.Machine

variable {p : Params}

theorem sumV_cons (x : Value) (xs : List Value) : sumV (x :: xs) = add x (sumV xs) := by
  have : Std.Associative add := ⟨BitVec.xor_assoc⟩
  have hx : add 0 x = add x 0 := BitVec.xor_comm 0 x
  rw [sumV, List.foldl_cons, hx, List.foldl_assoc, sumV]

theorem mulIv_sumV (h : p.valid = true) (i : Nat) {xs : List Value} (hxs : Symbols p xs) :
    mulIv p i (sumV xs) = sumV (xs.map (mulIv p i)) := by
  induction xs with
  | nil => exact mulIv_zero i
  | cons x xs ih =>
    obtain ⟨hx, hxs⟩ := List.forall_mem_cons.1 hxs
    rw [sumV_cons, mulIv_add h i hx (sumV_lt hxs), ih hxs, List.map_cons, sumV_cons]

theorem zero_mulIv (h : p.valid = true) {b : Value} (hb : b.toNat < p.q) : mulIv p 0 b = b := by
  rw [← mulV_expt_left h, Nat.zero_mod, expt_zero h, one_mulV h hb]

theorem Symbols.getD {xs : List Value} (hxs : Symbols p xs) (j : Nat) : (xs.getD j 0).toNat < p.q := by
  rcases Nat.lt_or_ge j xs.length with hj | hj
  · rw [List.getD_eq_getElem _ _ hj]
    exact hxs _ (List.getElem_mem hj)
  · rw [List.getD_eq_default _ _ hj]
    exact p.q_pos

theorem evalAt_nil (r : Nat) : evalAt p [] r = 0#16 := rfl

theorem evalAt_lt (h : p.valid = true) (cs : List Value) (r : Nat) : (evalAt p cs r).toNat < p.q :=
  sumV_lt (Symbols.map fun _ _ => mulIv_lt h _ _)

/-- Horner's rule. -/
theorem evalAt_cons (h : p.valid = true) {c : Value} (hc : c.toNat < p.q) {cs : List Value} (hcs : Symbols p cs) (r : Nat) :
    evalAt p (c :: cs) r = add c (mulIv p r (evalAt p cs r)) := by
  have hterm : ∀ j,
      mulIv p (((j + 1) * r) % p.n) (cs.getD j 0) = mulIv p r (mulIv p ((j * r) % p.n) (cs.getD j 0)) := fun j => by
    rw [mulIv_mod, mulIv_mod, mulIv_mulIv h _ _ (hcs.getD j), Nat.succ_mul, Nat.add_comm]
  rw [evalAt, List.length_cons, List.range_succ_eq_map, List.map_cons, sumV_cons, evalAt,
    mulIv_sumV h r (.map fun _ _ => mulIv_lt h _ _), List.map_map, List.map_map]
  congr 1
  · rw [mulIv_mod, Nat.zero_mul, List.getD_cons_zero, zero_mulIv h hc]
  · exact congrArg sumV (List.map_congr_left fun j _ => hterm j)

end Sys2Proof.Machine
end

section
/-! PROOFS. The generator polynomial (41_tables_and_generator.md R146 to R148): each pass multiplies by one more x + α^root, so
the roots stay; NR + 1 coefficients that vanish at NR consecutive powers of α are all nonzero. -/

namespace Sys2Proof.Machine

variable {p : Params}

/-- One pass of R147 by the root of index `root`, `below` standing below the constant term of `lower` with its leading 1. -/
def multiplyPass (p : Params) (root : Nat) (below : Value) (lower : List Value) : List Value :=
  List.zipWith (fmaIv p root) (lower ++ [1]) (below :: (lower ++ [1]))

theorem genPass_eq_multiplyPass (lower : List Value) (i : Nat) :
    genPass p lower i = multiplyPass p ((p.fcr + i) % p.n) 0 lower := rfl

theorem multiplyPass_cons (root : Nat) (below c : Value) (lower : List Value) :
    multiplyPass p root below (c :: lower) = fmaIv p root c below :: multiplyPass p root c lower := rfl

theorem symbols_multiplyPass (h : p.valid = true) (root : Nat) {below : Value} (hb : below.toNat < p.q) {lower : List Value}
    (hlower : Symbols p lower) : Symbols p (multiplyPass p root below lower) := by
  have htmp : Symbols p (lower ++ [1]) := hlower.append (.cons (one_lt_q h) .nil)
  exact .zipWith fun x _ y hy => fmaIv_lt h root x (Symbols.cons hb htmp y hy)

theorem evalAt_singleton_one (h : p.valid = true) (r : Nat) : evalAt p [1] r = 1 := by
  rw [evalAt_cons h (one_lt_q h) .nil, evalAt_nil, mulIv_zero]
  rfl

/-- A pass multiplies the value at α^r by α^root + α^r, and `below` is added. -/
theorem evalAt_multiplyPass (h : p.valid = true) (root r : Nat) {below : Value} (hb : below.toNat < p.q) {lower : List Value}
    (hlower : Symbols p lower) :
    evalAt p (multiplyPass p root below lower ++ [1]) r =
      add (mulIv p root (evalAt p (lower ++ [1]) r)) (add below (mulIv p r (evalAt p (lower ++ [1]) r))) := by
  have hone : Symbols p [1] := .cons (one_lt_q h) .nil
  induction lower generalizing below with
  | nil =>
    have hpass : multiplyPass p root below [] = [fmaIv p root 1 below] := rfl
    rw [hpass, List.nil_append, List.singleton_append, evalAt_cons h (fmaIv_lt h root 1 hb) hone, evalAt_singleton_one h, fmaIv]
    exact BitVec.xor_assoc _ _ _
  | cons c lower ih =>
    obtain ⟨hc, hlower⟩ : c.toNat < p.q ∧ Symbols p lower := List.forall_mem_cons.1 hlower
    have htail := evalAt_cons h hc (hlower.append hone) r
    have hpass := evalAt_cons h (fmaIv_lt h root c hb) ((symbols_multiplyPass h root hc hlower).append hone) r
    rw [ih hc hlower] at hpass
    rw [multiplyPass_cons, List.cons_append, List.cons_append, hpass, htail]
    have hval := evalAt_lt h (lower ++ [1]) r
    generalize evalAt p (lower ++ [1]) r = v at hval ⊢
    have hcomm : mulIv p r (mulIv p root v) = mulIv p root (mulIv p r v) := by
      rw [mulIv_mulIv h r root hval, mulIv_mulIv h root r hval, Nat.add_comm]
    have hrv := mulIv_lt h r v
    calc add (fmaIv p root c below) (mulIv p r (add (mulIv p root v) (add c (mulIv p r v))))
      _ = add (add (mulIv p root c) below) (add (mulIv p root (mulIv p r v)) (mulIv p r (add c (mulIv p r v)))) := by
        rw [fmaIv, mulIv_add h r (mulIv_lt h root v) (add_lt hc hrv), hcomm]
      _ = add (add (mulIv p root c) (mulIv p root (mulIv p r v))) (add below (mulIv p r (add c (mulIv p r v)))) := by
        unfold add
        ac_rfl
      _ = add (mulIv p root (add c (mulIv p r v))) (add below (mulIv p r (add c (mulIv p r v)))) := by
        rw [mulIv_add h root hc hrv]

/-- The coefficients below the leading one after `k` passes. -/
def genLower (p : Params) (k : Nat) : List Value := (List.range k).foldl (genPass p) []

theorem genLower_succ (k : Nat) : genLower p (k + 1) = multiplyPass p ((p.fcr + k) % p.n) 0 (genLower p k) := by
  rw [genLower, List.range_succ, List.foldl_append, List.foldl_cons, List.foldl_nil, genPass_eq_multiplyPass, genLower]

theorem genPoly_eq : genPoly p = genLower p p.nr ++ [1] := rfl

theorem length_genLower (k : Nat) : (genLower p k).length = k := by
  induction k with
  | zero => rfl
  | succ k ih => simp [genLower_succ, multiplyPass, ih]

theorem symbols_genLower (h : p.valid = true) (k : Nat) : Symbols p (genLower p k) := by
  induction k with
  | zero => exact .nil
  | succ k ih =>
    rw [genLower_succ]
    exact symbols_multiplyPass h _ (below := 0) p.q_pos ih

/-- After `k` passes the product vanishes at the first `k` roots: the last pass adds a root and keeps the others. -/
theorem evalAt_genLower (h : p.valid = true) {i k : Nat} (hi : i < k) :
    evalAt p (genLower p k ++ [1]) ((p.fcr + i) % p.n) = 0 := by
  induction k with
  | zero => exact absurd hi (Nat.not_lt_zero i)
  | succ k ih =>
    rw [genLower_succ, evalAt_multiplyPass h _ _ (below := 0) p.q_pos (symbols_genLower h k), add_zero_left]
    rcases Nat.lt_succ_iff_lt_or_eq.1 hi with hlt | rfl
    · rw [ih hlt]
      simp [add]
    · exact BitVec.xor_self

theorem length_genPoly : (genPoly p).length = p.nr + 1 := by simp [genPoly_eq, length_genLower]

theorem symbols_genPoly (h : p.valid = true) : Symbols p (genPoly p) :=
  (symbols_genLower h p.nr).append (.cons (one_lt_q h) .nil)

/-- The generator polynomial is monic. -/
theorem leading_genPoly : (genPoly p).getD p.nr 0 = 1 := by simp [genPoly_eq, length_genLower]

/-- Settles O27: every pass keeps the roots of the passes before it. -/
theorem generatorHasTheConsecutiveRoots : Obligations.GeneratorHasTheConsecutiveRoots := by
  intro p h
  exact ⟨length_genPoly, by rw [gRom, leading_genPoly, logt_one h], fun i hi => evalAt_genLower h hi⟩

/-- The n + 1 coefficients of a polynomial of degree n that vanishes at n consecutive powers of `a` are all nonzero: the n
coefficients besides a zero one would solve a Vandermonde system (R148). -/
theorem coeff_ne_zero_of_consecutive_roots {F : Type} [Field F] {a : F} (ha : a ≠ 0) {n b : Nat}
    (hinj : ∀ i ≤ n, ∀ j ≤ n, a ^ i = a ^ j → i = j) {c : Nat → F} (hlead : c n ≠ 0)
    (hroot : ∀ i < n, ∑ j ∈ Finset.range (n + 1), c j * (a ^ (b + i)) ^ j = 0) {k : Nat} (hk : k ≤ n) : c k ≠ 0 := by
  intro hzero
  lift k to Fin (n + 1) using Nat.lt_succ_of_le hk
  have hdistinct : Function.Injective fun j : Fin n => a ^ (k.succAbove j : Nat) := fun i j he =>
    Fin.succAbove_right_injective (Fin.ext (hinj _ (Fin.is_le _) _ (Fin.is_le _) he))
  have hothers : (fun j => c (k.succAbove j) * (a ^ b) ^ (k.succAbove j : Nat)) = 0 := by
    refine Matrix.eq_zero_of_forall_pow_sum_mul_pow_eq_zero hdistinct fun i => ?_
    rw [← hroot i i.isLt, Finset.sum_range, Fin.sum_univ_succAbove _ k, hzero, zero_mul, zero_add]
    refine Finset.sum_congr rfl fun j _ => ?_
    ring
  rcases Fin.eq_self_or_eq_succAbove k (Fin.last n) with hlast | ⟨j, hlast⟩
  · rw [← hlast] at hzero
    exact hlead hzero
  · have hj := (mul_eq_zero.1 (congrFun hothers j)).resolve_right (pow_ne_zero _ (pow_ne_zero b ha))
    rw [← hlast] at hj
    exact hlead hj

/-- The coefficients of a list of symbols as elements of the field. -/
def coeffElem {cs : List Value} (hcs : Symbols p cs) (j : Nat) : Elem p := ⟨cs.getD j 0, hcs.getD j⟩

/-- The model's evaluation at α^r is the field's. -/
theorem val_sum_coeffElem (h : p.valid = true) {cs : List Value} (hcs : Symbols p cs) (r : Nat) :
    letI := elemField h
    (∑ j ∈ Finset.range cs.length, coeffElem hcs j * powElem h r ^ j).1 = evalAt p cs r := by
  let := elemField h
  rw [val_sum_range h, evalAt]
  refine congrArg sumV (List.map_congr_left fun j _ => ?_)
  rw [powElem_pow, mul_comm]
  exact (mulV_expt_left h _ _).trans (mulIv_mod _ _).symm

theorem powElem_mod (h : p.valid = true) (r : Nat) : powElem h (r % p.n) = powElem h r :=
  Subtype.ext (congrArg (expt p) (Nat.mod_mod r p.n))

theorem coeff_genPoly_ne_zero (h : p.valid = true) {k : Nat} (hk : k ≤ p.nr) : (genPoly p).getD k 0 ≠ 0 := by
  let := elemField h
  have hsym := symbols_genPoly h
  have hnr : p.nr < p.n := by
    have := Params.bounds h
    omega
  have hpow : ∀ r, powElem h 1 ^ r = powElem h r := fun r => by rw [powElem_pow, Nat.mul_one]
  have ha : powElem h 1 ≠ 0 := fun e => expt_mod_ne_zero h 1 (congrArg Subtype.val e)
  have hinj : ∀ i ≤ p.nr, ∀ j ≤ p.nr, powElem h 1 ^ i = powElem h 1 ^ j → i = j := fun i hi j hj he => by
    rw [hpow, hpow] at he
    exact powElem_injOn h (by omega) (by omega) he
  have hlead : coeffElem hsym p.nr ≠ 0 := fun e => by
    have hval : (genPoly p).getD p.nr 0 = 0 := congrArg Subtype.val e
    rw [leading_genPoly] at hval
    exact absurd hval (by decide)
  have hroot : ∀ i < p.nr, ∑ j ∈ Finset.range (p.nr + 1), coeffElem hsym j * (powElem h 1 ^ (p.fcr + i)) ^ j = 0 :=
    fun i hi => by
      rw [hpow, ← powElem_mod, ← length_genPoly]
      exact Subtype.ext ((val_sum_coeffElem h hsym _).trans (evalAt_genLower h hi))
  exact fun hzero => coeff_ne_zero_of_consecutive_roots ha hinj hlead hroot hk (Subtype.ext hzero)

/-- Settles O28: a coefficient 0 of the generator polynomial would leave NR coefficients for its NR consecutive roots. -/
theorem generatorHoldsNoSentinel : Obligations.GeneratorHoldsNoSentinel := fun _ h _ hk =>
  (alphaPow_logt h (coeff_genPoly_ne_zero h hk) ((symbols_genPoly h).getD _)).1

end Sys2Proof.Machine
end

section
/-! PROOFS. The moves and the conversions (42_moves.md R160 to R168): what an immediate and a named location give, the loads,
the stores with their frame, and the two table reads. -/

namespace Sys2Proof.Machine

variable {s t : State} {r : Fin 8} {sp : BitVec 4} {imm idx : BitVec 16} {o : Option Space} {space : Space} {x : Symbol}
  {w : Word} {α : Type}

/-! ### NOP -/

/-- 0 is the only command word with NOP's opcode. -/
theorem eq_zero_of_decode_of_opField {i : Instr} (hop : opField w = 0) (h : decode w = .ok i) : w = 0 := by
  obtain ⟨-, rfl⟩ := checkZero_eq_ok.1 ((decode_of_opField (i := .nop) hop).symm.trans h)
  exact (encodeInvertsDecode w .nop h).symm

/-- Settles O10: a word with NOP's opcode and another bit set does not decode. -/
theorem nopChangesNothing : Obligations.NopChangesNothing := by
  refine ⟨rfl, fun _ => rfl, fun w s hop hne hf => ?_⟩
  rcases runCommand_cases w s with ⟨i, hdecode, -⟩ | ⟨-, -, hrun⟩
  · exact absurd (eq_zero_of_decode_of_opField hop hdecode) hne
  · exact hrun.trans (congrArg _ (raiseFault_of_not_faulted hf))

/-! ### Immediates -/

theorem immOperand_bind_of_lt (h : imm.toNat < s.params.q) (f : Symbol → Run α) : (immOperand s imm >>= f) = f imm := by
  rw [immOperand_eq_ok.2 ⟨h, rfl⟩, run_bind_ok]

theorem immOperand_bind_of_le (h : s.params.q ≤ imm.toNat) (f : Symbol → Run α) :
    (immOperand s imm >>= f) = .error (.raise .range) := by
  rw [immOperand, if_neg h.not_gt, run_bind_error]

/-- Settles O11: the immediate is tested against Q before the register is written. -/
theorem immediateLoads : Obligations.ImmediateLoads := by
  intro s d imm
  refine ⟨fun h => ⟨?_, ?_⟩, fun h hf => ⟨?_, ?_⟩⟩
  · exact congrArg (complete (.ldiv d imm) s) (immOperand_bind_of_lt h _)
  · exact congrArg (complete (.ldii d imm) s) (immOperand_bind_of_lt h _)
  · exact complete_raise_of_not_faulted (immOperand_bind_of_le h _) hf _
  · exact complete_raise_of_not_faulted (immOperand_bind_of_le h _) hf _

/-! ### Named locations -/

theorem memOperand_bind_of_lt (ho : o = some space) (h : idx.toNat < space.size s.params) (f : Space × Nat → Run α) :
    (memOperand s o idx >>= f) = f (space, idx.toNat) := by
  rw [memOperand_eq_ok.2 ⟨ho, h, rfl⟩, run_bind_ok]

theorem memOperand_bind_of_le (ho : o = some space) (h : space.size s.params ≤ idx.toNat) (f : Space × Nat → Run α) :
    (memOperand s o idx >>= f) = .error (.raise .range) := by
  rw [ho, memOperand, if_neg h.not_gt, run_bind_error]

/-- The operands of a load: the element of the named location. -/
theorem load_bind_of_elem (ho : o = some space) (h : idx.toNat < space.size s.params) (hx : s.elem space idx.toNat = some x)
    (f : Symbol → Run α) : (memOperand s o idx >>= fun l => readElem s l.1 l.2 >>= f) = f x := by
  rw [memOperand_bind_of_lt ho h, readElem_eq_ok.2 hx, run_bind_ok]

/-- A command with a space it does not allow is E_ILLEGAL, whatever its index (30_encoding.md R97). -/
theorem exec_of_not_wf_of_not_faulted {i : Instr} (h : i.wf = false) (hf : s.faulted = false) :
    exec i s = .next { s with status := 0x11#32, finfo := encode i } :=
  (exec_of_not_wf h s).trans (congrArg _ (raiseFault_of_not_faulted hf))

/-! ### Loads -/

/-- The spaces LDV allows with their numbers (42_moves.md R163). -/
def ldvSpaces : List (Nat × Space) :=
  [(0, .code), (2, .syn), (3, .lambda), (4, .omega), (6, .mag), (9, .expt), (10, .asit)]

/-- The spaces LDX allows with their numbers (42_moves.md R165). -/
def ldxSpaces : List (Nat × Space) := [(1, .eras), (5, .loc), (7, .g), (8, .logt)]

theorem ldvSpace_eq_some : ldvSpace sp = some space ↔ (sp.toNat, space) ∈ ldvSpaces := by
  revert sp
  cases space <;> decide

theorem ldxSpace_eq_some : ldxSpace sp = some space ↔ (sp.toNat, space) ∈ ldxSpaces := by
  revert sp
  cases space <;> decide

theorem exec_ldv_of_elem (hsp : ldvSpace sp = some space) (hidx : idx.toNat < space.size s.params)
    (hx : s.elem space idx.toNat = some x) (r : VReg) : exec (.ldv r sp idx) s = .next (s.setV r x) :=
  congrArg (complete (.ldv r sp idx) s) (load_bind_of_elem hsp hidx hx _)

theorem exec_ldx_of_elem (hsp : ldxSpace sp = some space) (hidx : idx.toNat < space.size s.params)
    (hx : s.elem space idx.toNat = some x) (r : IReg) : exec (.ldx r sp idx) s = .next (s.setI r x) :=
  congrArg (complete (.ldx r sp idx) s) (load_bind_of_elem hsp hidx hx _)

/-- Settles O12: the space is tested, then the index, and then the element is read. -/
theorem ldvFollowsItsRule : Obligations.LdvFollowsItsRule := by
  intro s r sp idx
  refine ⟨fun space hspace => ?_, fun hsp hf => exec_of_not_wf_of_not_faulted (decide_eq_false hsp) hf⟩
  have hsp : ldvSpace sp = some space := ldvSpace_eq_some.2 hspace
  exact ⟨fun hidx x hx => exec_ldv_of_elem hsp hidx hx r,
    fun hidx hf => complete_raise_of_not_faulted (memOperand_bind_of_le hsp hidx _) hf _⟩

/-- Settles O13: the space is tested, then the index, and then the element is read. -/
theorem ldxFollowsItsRule : Obligations.LdxFollowsItsRule := by
  intro s r sp idx
  refine ⟨fun space hspace => ?_, fun hsp hf => exec_of_not_wf_of_not_faulted (decide_eq_false hsp) hf⟩
  have hsp : ldxSpace sp = some space := ldxSpace_eq_some.2 hspace
  exact ⟨fun hidx x hx => exec_ldx_of_elem hsp hidx hx r,
    fun hidx hf => complete_raise_of_not_faulted (memOperand_bind_of_le hsp hidx _) hf _⟩

/-! ### Stores -/

theorem exec_stv_of_lt (hidx : idx.toNat < s.params.n) (r : VReg) :
    exec (.stv r 0 idx) s = .next (s.setElem .code idx.toNat (s.v r)) :=
  congrArg (complete (.stv r 0 idx) s) (memOperand_bind_of_lt (space := .code) rfl hidx _)

theorem exec_stx_of_lt (hidx : idx.toNat < s.params.nr) (r : IReg) :
    exec (.stx r 1 idx) s = .next (s.setElem .eras idx.toNat s.ireg[r]) :=
  congrArg (complete (.stx r 1 idx) s) (memOperand_bind_of_lt (space := .eras) rfl hidx _)

/-- A store to an array leaves the symbol there, every other part of the state, and every other location. -/
theorem setElem_spec (s : State) (harray : space.number < 7) (idx : BitVec 16) (x : Symbol) :
    (s.setElem space idx.toNat x).elem space idx.toNat = some x ∧ { s.setElem space idx.toNat x with mem := s.mem } = s ∧
      ∀ b k, k < 65536 → ¬(b = space ∧ k = idx.toNat) → (s.setElem space idx.toNat x).elem b k = s.elem b k :=
  ⟨elem_setElem_same s harray _ x, rfl, fun _ _ hk hne => elem_setElem_other s idx.isLt hk x hne⟩

/-- Settles O14: in its one space and inside it a store writes the element the command names. -/
theorem storesWriteOneElement : Obligations.StoresWriteOneElement := by
  intro s r sp idx
  refine ⟨?_, ?_, fun hf => ⟨fun hsp => ?_, fun hsp => ?_, ?_, ?_⟩⟩
  · rintro rfl hidx
    exact ⟨_, exec_stv_of_lt hidx r, setElem_spec s (by decide) idx _⟩
  · rintro rfl hidx
    exact ⟨_, exec_stx_of_lt hidx r, setElem_spec s (by decide) idx _⟩
  · exact exec_of_not_wf_of_not_faulted (decide_eq_false fun h => hsp (BitVec.eq_of_toNat_eq h)) hf
  · exact exec_of_not_wf_of_not_faulted (decide_eq_false fun h => hsp (BitVec.eq_of_toNat_eq h)) hf
  · rintro rfl hidx
    exact complete_raise_of_not_faulted (memOperand_bind_of_le (space := .code) rfl hidx _) hf _
  · rintro rfl hidx
    exact complete_raise_of_not_faulted (memOperand_bind_of_le (space := .eras) rfl hidx _) hf _

/-- `t` is `s` with `x` stored to element `k` of `space`, or with a fault recorded. -/
def StoresOrFaults (space : Space) (k : Nat) (x : Symbol) (s t : State) : Prop :=
  t = s.setElem space k x ∨ ∃ w c, t = raiseFault w c s

/-- A command that does nothing but store `x` to its location, where that can only be in `space`. -/
theorem storesOrFaults_of_complete {i : Instr} (ho : ∀ a, o = some a → a = space)
    (h : complete i s (memOperand s o idx >>= fun l => .ok (s.setElem l.1 l.2 x)) = .next t) :
    StoresOrFaults space idx.toNat x s t := by
  have hmeets : Meets storeFaults (· = s.setElem space idx.toNat x)
      (memOperand s o idx >>= fun l => .ok (s.setElem l.1 l.2 x)) :=
    (memOperand_meets (by decide) (by decide) s o idx).bind fun l ⟨hspace, _, hk⟩ => .ok (by rw [ho _ hspace, hk])
  exact (complete_meets h hmeets).imp_right fun ⟨c, _, ht⟩ => ⟨_, c, ht⟩

/-- STV stores V[r] to the element of CODE it names. -/
theorem exec_stv_storesOrFaults (h : exec (.stv r sp idx) s = .next t) : StoresOrFaults .code idx.toNat (s.v r) s t :=
  storesOrFaults_of_complete (fun _ => stvSpace_eq_some) h

/-- STX stores I[r] to the element of ERAS it names. -/
theorem exec_stx_storesOrFaults (h : exec (.stx r sp idx) s = .next t) : StoresOrFaults .eras idx.toNat s.ireg[r] s t :=
  storesOrFaults_of_complete (fun _ => stxSpace_eq_some) h

/-- A store changes one element, a fault the latch; neither changes anything else. -/
theorem StoresOrFaults.frame (h : StoresOrFaults space idx.toNat x s t) :
    (∀ b k, k < 65536 → ¬(b = space ∧ k = idx.toNat) → t.elem b k = s.elem b k) ∧
      { t with mem := s.mem, status := s.status, finfo := s.finfo } = s ∧
      ((t.status = s.status ∧ t.finfo = s.finfo) ∨ t.mem = s.mem) := by
  rcases h with rfl | ⟨w, c, rfl⟩
  · exact ⟨fun b k hk hne => elem_setElem_other s idx.isLt hk x hne, rfl, .inl ⟨rfl, rfl⟩⟩
  · refine ⟨fun b k _ _ => elem_raiseFault w c s b k, ?_, .inr (raiseFault_mem s w c)⟩
    obtain ⟨st, fi, e⟩ := exists_raiseFault_eq w c s
    rw [e]

/-- Settles O23: the command stores to the element it names, or its fault changes the latch alone. -/
theorem storeCommandFrame : Obligations.StoreCommandFrame := fun _ _ _ _ _ =>
  ⟨fun h => (exec_stv_storesOrFaults h).frame, fun h => (exec_stx_storesOrFaults h).frame⟩

/-! ### Conversions -/

theorem exec_log (d : IReg) (a : VReg) (s : State) : exec (.log d a) s = .next (s.setI d (toIndex (logt s.params (s.v a)))) := rfl

theorem exec_exp (d : VReg) (a : IReg) (s : State) : exec (.exp d a) s = .next (s.setV d (expt s.params (s.i a))) := rfl

theorem elem_logt_toNat (s : State) (v : Value) : s.elem .logt v.toNat = some (toIndex (logt s.params v)) := by
  simp [State.elem]

/-- Settles O15: LOG and EXP write the entry of their table, whose corners are LOGT[0] = N and EXPT[N] = 0. -/
theorem conversionsReadTheTables : Obligations.ConversionsReadTheTables := by
  intro s r r'
  refine ⟨fun x hx => ?_, fun h0 => ?_, fun x hx => ?_, fun hn => ?_, fun hvalid hi => ?_⟩
  · rw [elem_logt_toNat] at hx
    cases hx
    exact exec_log r r' s
  · rw [exec_log, h0, logt_zero]
    rfl
  · cases hx
    exact exec_exp r r' s
  · rw [exec_exp, hn, expt_sentinel]
    rfl
  · exact ⟨expt s.params (s.i r'), expt_ne_zero hvalid hi, if_pos hi, exec_exp r r' s⟩

end Sys2Proof.Machine
end

section
/-! PROOFS. What ENCODE reads and writes (43_encoder.md R181): the parity behind the message, and a second ENCODE, which finds
there what it writes. -/

namespace Sys2Proof.Machine

variable {s : State} {sp : Space} {k : Nat} {msg : List Value}

theorem setRange_frame (s : State) (sp : Space) (k : Nat) (xs : List Symbol) : { s.setRange sp k xs with mem := s.mem } = s := by
  induction xs generalizing s k with
  | nil => rfl
  | cons x xs ih => exact congrArg (fun u : State => { u with mem := s.mem }) (ih (s.setElem sp k x) (k + 1))

/-- In a canonical memory, listing what is listed already changes nothing. -/
theorem Memory.put_of_find {m : Memory} (h : Memory.wf m) {a : Nat} {x : Symbol} (hx : Memory.find a m = some x) :
    Memory.put a x m = m := by
  induction m with
  | nil => cases hx
  | cons c m ih =>
    obtain ⟨b, y⟩ := c
    obtain ⟨hb, hm⟩ := List.pairwise_cons.1 h
    by_cases hab : a = b
    · have hyx : y = x := by simpa [Memory.find, hab] using hx
      simp [Memory.put, hab, hyx]
    · have hfind : Memory.find a m = some x := by simpa [Memory.find, hab] using hx
      have hlt : b < a := hb _ (Memory.mem_of_find hfind)
      simp [Memory.put, hab, Nat.lt_asymm hlt, ih hm hfind]

theorem setElem_of_elem (hs : Memory.wf s.mem) (hsp : sp.number < 7) {x : Symbol} (hx : s.elem sp k = some x) :
    s.setElem sp k x = s := by
  rw [elem_array s hsp] at hx
  rw [State.setElem, Memory.put_of_find hs hx]

/-- Writing to a range what it holds changes nothing. -/
theorem setRange_of_elem (hs : Memory.wf s.mem) (hsp : sp.number < 7) {xs : List Symbol}
    (hxs : ∀ i (hi : i < xs.length), s.elem sp (k + i) = some xs[i]) : s.setRange sp k xs = s := by
  induction xs generalizing k with
  | nil => rfl
  | cons x xs ih =>
    have hx : s.elem sp k = some x := hxs 0 (by simp)
    rw [State.setRange, setElem_of_elem hs hsp hx]
    refine ih fun i hi => ?_
    rw [Nat.add_assoc, Nat.add_comm 1]
    exact hxs (i + 1) (Nat.succ_lt_succ hi)

theorem setRange_setRange (hs : Memory.wf s.mem) (hsp : sp.number < 7) {xs : List Symbol} (hk : k + xs.length ≤ 65536) :
    (s.setRange sp k xs).setRange sp k xs = s.setRange sp k xs :=
  setRange_of_elem (setRange_wf s sp k xs hs) hsp fun _ hi => elem_setRange_same s hsp xs hk hi

/-- Two adjacent ranges, read as one. -/
theorem readRange_append {a b : Nat} {xs ys : List Symbol} (hxs : readRange s sp k a = .ok xs)
    (hys : readRange s sp (k + a) b = .ok ys) : readRange s sp k (a + b) = .ok (xs ++ ys) := by
  obtain ⟨rfl, hx⟩ := readRange_eq_ok.1 hxs
  obtain ⟨rfl, hy⟩ := readRange_eq_ok.1 hys
  refine readRange_eq_ok.2 ⟨List.length_append, fun i hi => ?_⟩
  rw [List.length_append] at hi
  rcases Nat.lt_or_ge i xs.length with hlt | hge
  · rw [List.getElem_append_left hlt, hx i hlt]
  · rw [List.getElem_append_right hge, ← hy (i - xs.length) (by omega)]
    congr 1
    omega

theorem exec_encode_of_readRange (h : readRange s .code 0 s.params.k = .ok msg) :
    exec .encode s = .next (s.setRange .code s.params.k (parity s.params msg)) := by simp [exec, execEncode, h]

/-- The parity ends where CODE ends. -/
theorem k_add_length_parity {p : Params} (h : p.valid = true) (msg : List Value) : p.k + (parity p msg).length = p.n := by
  have := Params.bounds h
  rw [length_parity (by omega)]
  omega

section

variable (hv : s.params.valid = true) (hmsg : readRange s .code 0 s.params.k = .ok msg)
include hv

theorem k_add_length_parity_le : s.params.k + (parity s.params msg).length ≤ 65536 := by
  have := Params.bounds hv
  rw [k_add_length_parity hv]
  omega

/-- ENCODE changes CODE[K..N) alone. -/
theorem elem_encoded_other (msg : List Value) {b : Space} {j : Nat} (hj : j < 65536)
    (h : ¬(b = .code ∧ s.params.k ≤ j ∧ j < s.params.n)) :
    (s.setRange .code s.params.k (parity s.params msg)).elem b j = s.elem b j :=
  elem_setRange_other s _ (k_add_length_parity_le hv) hj (by rwa [k_add_length_parity hv])

include hmsg

/-- ENCODE leaves the message. -/
theorem readRange_encoded_message :
    readRange (s.setRange .code s.params.k (parity s.params msg)) .code 0 s.params.k = .ok msg := by
  have := Params.bounds hv
  obtain ⟨hlen, helem⟩ := readRange_eq_ok.1 hmsg
  refine readRange_eq_ok.2 ⟨hlen, fun i hi => ?_⟩
  rw [elem_encoded_other hv msg (by omega) (by omega), helem i hi]

/-- After ENCODE, CODE is the message and its parity. -/
theorem readRange_encoded :
    readRange (s.setRange .code s.params.k (parity s.params msg)) .code 0 s.params.n = .ok (msg ++ parity s.params msg) := by
  rw [← k_add_length_parity hv msg]
  refine readRange_append (readRange_encoded_message hv hmsg) ?_
  rw [Nat.zero_add]
  exact readRange_setRange s (by decide) _ _ (k_add_length_parity_le hv)

end

/-- Settles O29: the write of the parity over the specified message. -/
theorem encodeWritesTheParity : Obligations.EncodeWritesTheParity := by
  intro s msg hv hmsg
  have hnr : 1 ≤ s.params.nr := by
    have := Params.bounds hv
    omega
  have hlen : (parity s.params msg).length = s.params.nr := length_parity hnr msg
  refine ⟨_, exec_encode_of_readRange hmsg, setRange_frame _ _ _ _, hlen, fun j hj => ?_,
    fun _ _ => elem_encoded_other hv msg⟩
  rw [← hlen] at hj
  rw [elem_setRange_same s (by decide) _ (k_add_length_parity_le hv) hj, List.getD_eq_getElem _ _ hj]

/-- Settles O30: the second ENCODE reads the same message, so it writes the parity that is there. -/
theorem encodeIsIdempotent : Obligations.EncodeIsIdempotent := by
  intro s t hs h
  obtain ⟨msg, hmsg, rfl⟩ := execEncode_eq_next h
  rw [exec_encode_of_readRange (by simpa using readRange_encoded_message hs.paramsLegal hmsg), State.setRange_params,
    setRange_setRange hs.memCanonical (by decide) (k_add_length_parity_le hs.paramsLegal)]

end Sys2Proof.Machine
end

section
/-! PROOFS. The word ENCODE leaves vanishes at every root of the generator polynomial (43_encoder.md R182): a pass of the LFSR,
with the message symbol before it, subtracts a multiple of the generator polynomial from the word before the pass. -/

namespace Sys2Proof.Machine

variable {p : Params}

/-- The Horner recurrence of R191 at α^r from the running value `acc`, over further symbols `xs`, the highest degree first. -/
def hornerFrom (p : Params) (r : Nat) (acc : Value) (xs : List Value) : Value := xs.foldl (fmaIv p r) acc

theorem hornerFrom_cons (r : Nat) (acc x : Value) (xs : List Value) :
    hornerFrom p r acc (x :: xs) = hornerFrom p r (fmaIv p r acc x) xs := rfl

theorem hornerFrom_append (r : Nat) (acc : Value) (xs ys : List Value) :
    hornerFrom p r acc (xs ++ ys) = hornerFrom p r (hornerFrom p r acc xs) ys := List.foldl_append

theorem zero_fmaIv (r : Nat) (x : Value) : fmaIv p r 0 x = x := by
  rw [fmaIv, BitVec.ofNat_eq_ofNat, mulIv_zero]
  exact add_zero_left x

theorem horner_eq_hornerFrom (r : Nat) (xs : List Value) : horner p r xs = hornerFrom p r 0 xs := by
  cases xs with
  | nil => rfl
  | cons x xs => rw [hornerFrom_cons, zero_fmaIv, horner, hornerFrom]

theorem hornerFrom_lt (h : p.valid = true) (r : Nat) {acc : Value} (hacc : acc.toNat < p.q) {xs : List Value}
    (hxs : Symbols p xs) : (hornerFrom p r acc xs).toNat < p.q :=
  foldl_lt (fun a x hx _ => fmaIv_lt h r a (hxs x hx)) hacc

theorem hornerFrom_replicate_zero (r k : Nat) : hornerFrom p r 0 (List.replicate k 0) = 0 := by
  induction k with
  | zero => rfl
  | succ k ih => rw [List.replicate_succ, hornerFrom_cons, zero_fmaIv, ih]

/-- The recurrence on the coefficients, highest first, is the evaluation of R224. -/
theorem hornerFrom_reverse (h : p.valid = true) (r : Nat) {cs : List Value} (hcs : Symbols p cs) :
    hornerFrom p r 0 cs.reverse = evalAt p cs r := by
  induction cs with
  | nil => rfl
  | cons c cs ih =>
    obtain ⟨hc, hcs⟩ := List.forall_mem_cons.1 hcs
    rw [List.reverse_cons, hornerFrom_append, ih hcs, evalAt_cons h hc hcs]
    exact BitVec.xor_comm _ _

/-- A step of the recurrence and the addition of a multiple by α^i can be done in either order. -/
theorem fmaIv_fmaIv_fmaIv (h : p.valid = true) (r i : Nat) {a b g x : Value} (ha : a.toNat < p.q) (hb : b.toNat < p.q)
    (hg : g.toNat < p.q) : fmaIv p r (fmaIv p i a b) (fmaIv p i g x) = fmaIv p i (fmaIv p r a g) (fmaIv p r b x) := by
  have hcomm : mulIv p r (mulIv p i a) = mulIv p i (mulIv p r a) := by
    rw [mulIv_mulIv h r i ha, mulIv_mulIv h i r ha, Nat.add_comm]
  simp only [fmaIv]
  rw [mulIv_add h r (mulIv_lt h i a) hb, mulIv_add h i (mulIv_lt h r a) hg, hcomm]
  unfold add
  ac_rfl

/-- The recurrence on a word to which the multiple by α^i of a word of the same length is added. -/
theorem hornerFrom_zipWith (h : p.valid = true) (r i : Nat) {a b : Value} (ha : a.toNat < p.q) (hb : b.toNat < p.q)
    {gs xs : List Value} (hlen : gs.length = xs.length) (hgs : Symbols p gs) (hxs : Symbols p xs) :
    hornerFrom p r (fmaIv p i a b) (List.zipWith (fmaIv p i) gs xs) =
      fmaIv p i (hornerFrom p r a gs) (hornerFrom p r b xs) := by
  induction gs generalizing a b xs with
  | nil =>
    obtain rfl := List.length_eq_zero_iff.1 hlen.symm
    rfl
  | cons g gs ih =>
    cases xs with
    | nil => cases hlen
    | cons x xs =>
      obtain ⟨hg, hgs⟩ := List.forall_mem_cons.1 hgs
      obtain ⟨hx, hxs⟩ := List.forall_mem_cons.1 hxs
      rw [List.zipWith_cons_cons, hornerFrom_cons, fmaIv_fmaIv_fmaIv h r i ha hb hg,
        ih (fmaIv_lt h r a hg) (fmaIv_lt h r b hx) (Nat.succ.inj hlen) hgs hxs, hornerFrom_cons, hornerFrom_cons]

/-! ### A pass of the LFSR -/

theorem feedbackTaps_eq : feedbackTaps p = (genLower p p.nr).map (logt p) := by
  refine List.ext_getElem (by simp [feedbackTaps, length_genLower]) fun k hk _ => ?_
  have hk : k < (genLower p p.nr).length := by simpa [feedbackTaps, length_genLower] using hk
  simp only [feedbackTaps, List.getElem_map, List.getElem_range]
  rw [gRom, genPoly_eq, List.getD_append _ _ _ _ hk, List.getD_eq_getElem _ _ hk]

theorem ne_zero_of_mem_genLower (h : p.valid = true) {g : Value} (hg : g ∈ genLower p p.nr) : g ≠ 0 := by
  obtain ⟨k, hk, rfl⟩ := List.getElem_of_mem hg
  have hne := coeff_genPoly_ne_zero h (length_genLower (p := p) p.nr ▸ hk).le
  rwa [genPoly_eq, List.getD_append _ _ _ _ hk, List.getD_eq_getElem _ _ hk] at hne

/-- Where its factor is no sentinel, `fma_ii` is `fma_iv` of the value (R116). -/
theorem fmaIi_logt (i : Nat) {g : Value} (hg : g ≠ 0) (x : Value) : fmaIi p i (logt p g) x = fmaIv p i g x := by
  rw [fmaIi, fmaIv, mulIv, if_neg hg]

theorem zipWith_fmaIi_map_logt (i : Nat) {gs : List Value} (hgs : ∀ g ∈ gs, g ≠ 0) (xs : List Value) :
    List.zipWith (fmaIi p i) (gs.map (logt p)) xs = List.zipWith (fmaIv p i) gs xs := by
  induction gs generalizing xs with
  | nil => rfl
  | cons g gs ih =>
    obtain ⟨hg, hgs⟩ := List.forall_mem_cons.1 hgs
    cases xs with
    | nil => rfl
    | cons x xs => rw [List.map_cons, List.zipWith_cons_cons, List.zipWith_cons_cons, fmaIi_logt i hg, ih hgs]

theorem fmaIv_zero_right (i : Nat) {g : Value} (hg : g ≠ 0) : fmaIv p i g 0 = expt p ((logt p g + i) % p.n) := by
  rw [fmaIv, mulIv, if_neg hg, Nat.add_comm]
  exact BitVec.xor_zero

/-- The feedback as a factor of the leading coefficient gives itself. -/
theorem fmaIv_logt_one (h : p.valid = true) {fb : Value} (h0 : fb ≠ 0) (hfb : fb.toNat < p.q) (x : Value) :
    fmaIv p (logt p fb) 1 x = add fb x := by
  rw [fmaIv, mulIv, if_neg (by decide), logt_one h, Nat.add_zero, Nat.mod_eq_of_lt (alphaPow_logt h h0 hfb).1, expt_logt h h0 hfb]

theorem encodePass_of_eq {c x : Value} (hfb : add c x = 0) (taps : List Nat) (xs : List Value) :
    encodePass p taps (x :: xs) c = xs ++ [0] := if_pos hfb

theorem encodePass_of_ne {c x : Value} (hfb : add c x ≠ 0) (tap : Nat) (taps : List Nat) (xs : List Value) :
    encodePass p (tap :: taps) (x :: xs) c =
      List.zipWith (fmaIi p (logt p (add c x))) taps.reverse xs ++ [expt p ((tap + logt p (add c x)) % p.n)] := if_neg hfb

/-- With a zero feedback the message symbol and the stages after the pass are the stages before it, shifted. -/
theorem cons_encodePass_of_eq {c x : Value} (hfb : add c x = 0) (taps : List Nat) (xs : List Value) :
    c :: encodePass p taps (x :: xs) c = (x :: xs) ++ [0] := by
  have hcx : c = x := BitVec.xor_eq_zero_iff.1 hfb
  rw [encodePass_of_eq hfb, hcx, List.cons_append]

/-- With a nonzero feedback α^i the multiple of the generator polynomial by α^i is added to them. -/
theorem cons_encodePass_of_ne (h : p.valid = true) {c x : Value} (hc : c.toNat < p.q) (hx : x.toNat < p.q) (hfb : add c x ≠ 0)
    {xs : List Value} (hlen : (x :: xs).length = p.nr) :
    c :: encodePass p (feedbackTaps p) (x :: xs) c =
      List.zipWith (fmaIv p (logt p (add c x))) (genPoly p).reverse ((x :: xs) ++ [0]) := by
  have hlower : (genLower p p.nr).length = xs.length + 1 := (length_genLower p.nr).trans hlen.symm
  obtain ⟨g, gs, hg⟩ := List.exists_cons_of_length_eq_add_one hlower
  have hgs : gs.reverse.length = xs.length := by simpa [hg] using hlower
  have hne : ∀ y ∈ g :: gs, y ≠ 0 := fun y hy => ne_zero_of_mem_genLower h (hg ▸ hy)
  obtain ⟨hg0, hgs0⟩ := List.forall_mem_cons.1 hne
  have hrev : (genPoly p).reverse = 1 :: (gs.reverse ++ [g]) := by simp [genPoly_eq, hg]
  have hhead : fmaIv p (logt p (add c x)) 1 x = c := by
    rw [fmaIv_logt_one h hfb (add_lt hc hx), add, add, BitVec.xor_assoc, BitVec.xor_self, BitVec.xor_zero]
  rw [hrev, List.cons_append, List.zipWith_cons_cons, List.zipWith_append hgs, hhead, List.zipWith_cons_cons,
    List.zipWith_nil_left, fmaIv_zero_right _ hg0, feedbackTaps_eq, hg, List.map_cons, encodePass_of_ne hfb, ← List.map_reverse,
    zipWith_fmaIi_map_logt _ fun y hy => hgs0 y (List.mem_reverse.1 hy)]

/-! ### The word and its syndromes -/

theorem parity_concat (msg : List Value) (c : Value) :
    parity p (msg ++ [c]) = encodePass p (feedbackTaps p) (parity p msg) c := by
  rw [parity, List.foldl_concat, parity]

/-- A pass keeps the word a multiple of the generator polynomial: `acc` is the value of the message symbols already taken. -/
theorem hornerFrom_cons_encodePass (h : p.valid = true) {r : Nat} (hr : evalAt p (genPoly p) r = 0) {acc c : Value}
    (hacc : acc.toNat < p.q) (hc : c.toNat < p.q) {par : List Value} (hlen : par.length = p.nr) (hpar : Symbols p par)
    (hzero : hornerFrom p r acc par = 0) : hornerFrom p r acc (c :: encodePass p (feedbackTaps p) par c) = 0 := by
  have hnr := Params.bounds h
  have hshift : hornerFrom p r acc (par ++ [0]) = 0 := by
    rw [hornerFrom_append, hzero]
    exact zero_fmaIv r 0
  obtain ⟨x, xs, rfl⟩ := List.exists_cons_of_length_pos (l := par) (by omega)
  by_cases hfb : add c x = 0
  · rw [cons_encodePass_of_eq hfb, hshift]
  · have hgen : hornerFrom p r 0 (genPoly p).reverse = 0 := (hornerFrom_reverse h r (symbols_genPoly h)).trans hr
    have hsum := hornerFrom_zipWith h r (logt p (add c x)) (a := 0) p.q_pos hacc (gs := (genPoly p).reverse)
      (xs := (x :: xs) ++ [0]) (by simp [length_genPoly, ← hlen]) (fun g hg => symbols_genPoly h g (List.mem_reverse.1 hg))
      (hpar.append (.cons p.q_pos .nil))
    rw [cons_encodePass_of_ne h hc (hpar x List.mem_cons_self) hfb hlen]
    rwa [zero_fmaIv, hgen, hshift, zero_fmaIv] at hsum

/-- The message and its parity vanish at every root of the generator polynomial. -/
theorem hornerFrom_encoded (h : p.valid = true) {r : Nat} (hr : evalAt p (genPoly p) r = 0) {msg : List Value}
    (hmsg : Symbols p msg) : hornerFrom p r 0 (msg ++ parity p msg) = 0 := by
  have hnr := Params.bounds h
  induction msg using List.reverseRecOn with
  | nil => exact hornerFrom_replicate_zero r p.nr
  | append_singleton msg c ih =>
    obtain ⟨hmsg, hc⟩ := List.forall_mem_append.1 hmsg
    rw [parity_concat, List.append_assoc, List.singleton_append, hornerFrom_append]
    refine hornerFrom_cons_encodePass h hr (hornerFrom_lt h r (acc := 0) p.q_pos hmsg) (hc c List.mem_cons_self)
      (length_parity (by omega) msg) (symbols_parity h msg) ?_
    rw [← hornerFrom_append, ih hmsg]

theorem syndromes_encoded (h : p.valid = true) {msg : List Value} (hmsg : Symbols p msg) :
    syndromes p (msg ++ parity p msg) = List.replicate p.nr 0 := by
  refine List.eq_replicate_iff.2 ⟨syndromes_length _ _, List.forall_mem_map.2 fun i hi => ?_⟩
  rw [horner_eq_hornerFrom]
  exact hornerFrom_encoded h (evalAt_genLower h (List.mem_range.1 hi)) hmsg

theorem exec_synd_of_readSyndromes {s : State} {syn : List Value} (h : readSyndromes s = .ok syn) :
    exec .synd s = .next ((s.setRange .syn 0 syn).setResult (countWord syn)) := by simp [exec, execSynd, h]

theorem elem_setResult (s : State) (w : Word) (sp : Space) (k : Nat) : (s.setResult w).elem sp k = s.elem sp k :=
  elem_congr rfl rfl rfl rfl sp k

theorem countWord_replicate_zero (k : Nat) : countWord (List.replicate k 0) = 0 := by simp [countWord, countNonzero]

/-- Settles O31: every root of SYND is one of the generator polynomial. G holds no sentinel in any legal unit (R148). -/
theorem encodedWordHasZeroSyndromes : Obligations.EncodedWordHasZeroSyndromes := by
  intro s t hs _ h
  obtain ⟨msg, hmsg, rfl⟩ := execEncode_eq_next h
  have hnr := Params.bounds hs.paramsLegal
  have hsyn : readSyndromes (s.setRange .code s.params.k (parity s.params msg)) = .ok (List.replicate s.params.nr 0) := by
    refine readSyndromes_eq_ok.2 ⟨msg ++ parity s.params msg, ?_, ?_⟩ <;> rw [State.setRange_params]
    · exact readRange_encoded hs.paramsLegal hmsg
    · exact (syndromes_encoded hs.paramsLegal (hs.symbols_of_readRange hmsg)).symm
  refine ⟨_, exec_synd_of_readSyndromes hsyn, countWord_replicate_zero _, fun i hi => ?_⟩
  rw [elem_setResult, ← Nat.zero_add i, elem_setRange_same _ (by decide) _ (by simp; omega) (by simpa using hi),
    List.getElem_replicate]

end Sys2Proof.Machine
end

section
/-! PROOFS. A syndrome is the value of the received polynomial at its root (44_syndrome.md R190): the coefficients of R(x) are
CODE read backwards, so the sum of `evalAt` over them is the sum over CODE in reverse. -/

namespace Sys2Proof.Machine

variable {p : Params}

theorem sumV_reverse (xs : List Value) : sumV xs.reverse = sumV xs :=
  have : RightCommutative add := ⟨fun _ _ _ => by unfold add; ac_rfl⟩
  (List.reverse_perm xs).foldl_eq 0

/-- The value of the polynomial whose coefficients are listed with the highest degree first. -/
theorem evalAt_reverse (xs : List Value) (r : Nat) : evalAt p xs.reverse r =
    sumV ((List.range xs.length).map fun j => mulIv p ((r * (xs.length - 1 - j)) % p.n) (xs.getD j 0)) := by
  rw [evalAt, List.length_reverse, ← sumV_reverse, ← List.map_reverse, List.range_eq_range', List.reverse_range', List.map_map,
    ← List.range_eq_range', Nat.zero_add]
  refine congrArg sumV (List.map_congr_left fun j hj => ?_)
  have hj : j < xs.length := List.mem_range.1 hj
  have hcoeff : xs.reverse.getD (xs.length - 1 - j) 0 = xs.getD j 0 := by
    rw [List.getD_reverse _ (by omega), Nat.sub_sub_self (by omega)]
  rw [Function.comp_apply, hcoeff, Nat.mul_comm]

theorem evalAt_mod (cs : List Value) (r : Nat) : evalAt p cs (r % p.n) = evalAt p cs r := by
  simp only [evalAt, Nat.mul_mod_mod]

/-- S_i = R(α^(FCR+i)). -/
theorem getD_syndromes (h : p.valid = true) {code : List Value} (hcode : Symbols p code) {i : Nat} (hi : i < p.nr) :
    (syndromes p code).getD i 0 = evalAt p code.reverse (p.fcr + i) := by
  have hrev : Symbols p code.reverse := fun x hx => hcode x (List.mem_reverse.1 hx)
  have hhorner : hornerFrom p (rootIndex p i) 0 code = evalAt p code.reverse (rootIndex p i) := by
    rw [← hornerFrom_reverse h _ hrev, List.reverse_reverse]
  rw [List.getD_eq_getElem _ _ (by simpa using hi)]
  simp only [syndromes, List.getElem_map, List.getElem_range]
  rw [horner_eq_hornerFrom, hhorner, rootIndex, evalAt_mod]

theorem toNat_countWord {xs : List Value} (h : xs.length < 2 ^ 32) : (countWord xs).toNat = countNonzero xs := by
  have hcount : countNonzero xs < 2 ^ 32 := (List.length_filter_le _ _).trans_lt h
  rw [countWord, BitVec.toNat_ofNat, Nat.mod_eq_of_lt hcount]

/-- Settles O32: SYND writes the values that Horner's rule gives, and their count. -/
theorem syndWritesTheSyndromes : Obligations.SyndWritesTheSyndromes := by
  intro s code hs hcode
  have hv := hs.paramsLegal
  have hbounds := Params.bounds hv
  have hlen : (syndromes s.params code).length = s.params.nr := syndromes_length _ _
  have hfits : 0 + (syndromes s.params code).length ≤ 65536 := by omega
  refine ⟨_, _, exec_synd_of_readSyndromes (readSyndromes_eq_ok.2 ⟨code, hcode, rfl⟩), hlen, fun i hi => ?_, fun i hi => ?_,
    toNat_countWord (by omega), ?_, fun b k hk hne => ?_⟩
  · rw [getD_syndromes hv (hs.symbols_of_readRange hcode) hi, evalAt_reverse, length_of_readRange hcode]
  · have hi : i < (syndromes s.params code).length := hlen ▸ hi
    have helem := elem_setRange_same s (a := .syn) (by decide) _ hfits hi
    rw [elem_setResult, ← Nat.zero_add i, helem, Nat.zero_add, List.getD_eq_getElem _ _ hi]
  · exact congrArg (State.setResult · s.result) (setRange_frame s .syn 0 _)
  · rw [elem_setResult]
    exact elem_setRange_other s _ hfits hk (by rwa [hlen, Nat.zero_add, and_iff_right (Nat.zero_le k)])

end Sys2Proof.Machine
end

section
/-! PROOFS. The erasure locator (45_eseed_bm.md R201, R202): a pass multiplies by 1 + X·x, so it keeps the roots of the passes
before it and adds X^(−1), as long as the coefficient the array has no room for is 0. -/

namespace Sys2Proof.Machine

variable {p : Params}

/-- One pass of R201 by the locator value of index `x`, `below` standing below the constant term of `lam`. -/
def locatorPass (p : Params) (x : Nat) (below : Value) (lam : List Value) : List Value :=
  List.zipWith (fun c b => add c (mulIv p x b)) lam (below :: lam)

theorem seedPass_eq_locatorPass (lam : List Value) (pos : Nat) :
    seedPass p lam pos = locatorPass p (locatorIndex p pos) 0 lam := rfl

theorem locatorPass_cons (x : Nat) (below c : Value) (lam : List Value) :
    locatorPass p x below (c :: lam) = add c (mulIv p x below) :: locatorPass p x c lam := rfl

theorem symbols_locatorPass (h : p.valid = true) (x : Nat) (below : Value) {lam : List Value} (hlam : Symbols p lam) :
    Symbols p (locatorPass p x below lam) :=
  .zipWith fun c hc b _ => add_lt (hlam c hc) (mulIv_lt h x b)

/-- A pass multiplies the value at α^r by 1 + α^x · α^r, and α^x · `below` is added, if the coefficient it drops is 0. -/
theorem evalAt_locatorPass (h : p.valid = true) (x r : Nat) {below : Value} (hb : below.toNat < p.q) {lam : List Value}
    (hlam : Symbols p lam) (hlast : lam.getLastD below = 0) :
    evalAt p (locatorPass p x below lam) r = add (evalAt p lam r) (mulIv p x (add below (mulIv p r (evalAt p lam r)))) := by
  induction lam generalizing below with
  | nil =>
    obtain rfl : below = 0 := hlast
    simp [locatorPass, evalAt_nil, add]
  | cons c lam ih =>
    obtain ⟨hc, hlam⟩ : c.toNat < p.q ∧ Symbols p lam := List.forall_mem_cons.1 hlam
    have hlast : lam.getLastD c = 0 := by rwa [List.getLastD_cons] at hlast
    have hpass := evalAt_cons h (add_lt hc (mulIv_lt h x below)) (symbols_locatorPass h x c hlam) r
    rw [ih hc hlam hlast] at hpass
    rw [locatorPass_cons, hpass, evalAt_cons h hc hlam r]
    have hval := evalAt_lt h lam r
    generalize evalAt p lam r = v at hval ⊢
    have hw := add_lt hc (mulIv_lt h r v)
    have hcomm : mulIv p r (mulIv p x (add c (mulIv p r v))) = mulIv p x (mulIv p r (add c (mulIv p r v))) := by
      rw [mulIv_mulIv h r x hw, mulIv_mulIv h x r hw, Nat.add_comm]
    calc add (add c (mulIv p x below)) (mulIv p r (add v (mulIv p x (add c (mulIv p r v)))))
      _ = add (add c (mulIv p x below)) (add (mulIv p r v) (mulIv p x (mulIv p r (add c (mulIv p r v))))) := by
        rw [mulIv_add h r hval (mulIv_lt h x _), hcomm]
      _ = add (add c (mulIv p r v)) (add (mulIv p x below) (mulIv p x (mulIv p r (add c (mulIv p r v))))) := by
        unfold add
        ac_rfl
      _ = add (add c (mulIv p r v)) (mulIv p x (add below (mulIv p r (add c (mulIv p r v))))) := by
        rw [mulIv_add h x hb (mulIv_lt h r _)]

theorem seedLocator_nil : seedLocator p [] = 1 :: List.replicate p.nr 0 := rfl

theorem seedLocator_concat (es : List Nat) (e : Nat) : seedLocator p (es ++ [e]) = seedPass p (seedLocator p es) e := by
  rw [seedLocator, List.foldl_append, List.foldl_cons, List.foldl_nil, seedLocator]

/-- A pass raises the degree by at most 1. -/
theorem getD_seedPass_succ {lam : List Value} {k : Nat} (hk : lam.getD k 0 = 0) (hk' : lam.getD (k + 1) 0 = 0) (pos : Nat) :
    (seedPass p lam pos).getD (k + 1) 0 = 0 := by
  rcases Nat.lt_or_ge (k + 1) lam.length with hlt | hge
  · rw [List.getD_eq_getElem _ _ (Nat.lt_of_succ_lt hlt)] at hk
    rw [List.getD_eq_getElem _ _ hlt] at hk'
    rw [List.getD_eq_getElem _ _ (by rwa [length_seedPass])]
    simp [seedPass, hk, hk', add]
  · exact List.getD_eq_default _ _ (by rwa [length_seedPass])

/-- The locator of `es` has degree at most the number of erasures. -/
theorem getD_seedLocator_of_length_lt {es : List Nat} {k : Nat} (hk : es.length < k) : (seedLocator p es).getD k 0 = 0 := by
  induction es using List.reverseRecOn generalizing k with
  | nil =>
    obtain ⟨k, rfl⟩ := Nat.exists_eq_add_one.2 hk
    simp [seedLocator_nil]
  | append_singleton es e ih =>
    rw [List.length_append, List.length_singleton] at hk
    obtain ⟨k, rfl⟩ := Nat.exists_eq_add_one.2 (Nat.zero_lt_of_lt hk)
    rw [seedLocator_concat]
    exact getD_seedPass_succ (ih (by omega)) (ih (by omega)) e

/-- With fewer than NR erasures so far, the coefficient of x^NR is still 0. -/
theorem getLastD_seedLocator {es : List Nat} (hes : es.length < p.nr) : (seedLocator p es).getLastD 0 = 0 := by
  rw [List.getLastD_eq_getLast?, List.getLast?_eq_getElem?, length_seedLocator, Nat.add_sub_cancel, ← List.getD_eq_getElem?_getD]
  exact getD_seedLocator_of_length_lt hes

/-- X_e and the root of position e are inverse powers of α (R200). -/
theorem locatorIndex_add_rootOfPosition {e : Nat} (he : e < p.n) : (locatorIndex p e + rootOfPosition p e) % p.n = 0 := by
  have hx : locatorIndex p e = p.n - 1 - e := by
    rw [locatorIndex, idiv, Int.emod_eq_of_lt (by omega) (by omega)]
    omega
  rw [hx, rootOfPosition, Nat.add_mod_mod, show p.n - 1 - e + (e + 1) = p.n by omega, Nat.mod_self]

/-- One more erasure multiplies the locator's value at α^r by 1 + X_e · α^r. -/
theorem evalAt_seedLocator_concat (h : p.valid = true) {es : List Nat} (hes : es.length < p.nr) (e r : Nat) :
    evalAt p (seedLocator p (es ++ [e])) r =
      add (evalAt p (seedLocator p es) r) (mulIv p (locatorIndex p e + r) (evalAt p (seedLocator p es) r)) := by
  rw [seedLocator_concat, seedPass_eq_locatorPass,
    evalAt_locatorPass h _ r (below := 0) p.q_pos (symbols_seedLocator h es) (getLastD_seedLocator hes), add_zero_left,
    mulIv_mulIv h _ r (evalAt_lt h _ r)]

/-- Settles O34: the pass of an erasure adds its root, and every pass keeps the roots of the passes before it. -/
theorem seededLocatorVanishesAtErasures : Obligations.SeededLocatorVanishesAtErasures := by
  intro p es h hlen hes e he
  induction es using List.reverseRecOn with
  | nil => cases he
  | append_singleton es last ih =>
    rw [List.length_append, List.length_singleton] at hlen
    obtain ⟨hes, hlast⟩ := List.forall_mem_append.1 hes
    rw [evalAt_seedLocator_concat h (by omega)]
    rcases List.mem_append.1 he with he | he
    · rw [ih (by omega) hes he]
      simp [add]
    · obtain rfl := List.mem_singleton.1 he
      have hinv : (locatorIndex p e + (e + 1) % p.n) % p.n = 0 := locatorIndex_add_rootOfPosition (hlast e he)
      rw [← mulIv_mod, hinv, zero_mulIv h (evalAt_lt h _ _)]
      exact BitVec.xor_self

end Sys2Proof.Machine
end

section
/-! PROOFS. What ESEED and BM read, write and leave (45_eseed_bm.md R201, R205), and the faults of the erasures in ESEED, BM and
DECODE (60_exceptions.md R261). -/

namespace Sys2Proof.Machine

variable {s : State}

/-- What an array holds after its first elements were written. -/
theorem elem_setRange_zero_same (s : State) {sp : Space} (hsp : sp.number < 7) {xs : List Symbol} (hlen : xs.length ≤ 65536)
    {k : Nat} (hk : k < xs.length) : (s.setRange sp 0 xs).elem sp k = some (xs.getD k 0) := by
  have helem := elem_setRange_same s hsp (j := 0) xs (by omega) hk
  rw [Nat.zero_add] at helem
  rw [helem, List.getD_eq_getElem _ _ hk]

/-- Writing the first elements of an array leaves every other location. -/
theorem elem_setRange_zero_other (s : State) {sp b : Space} {xs : List Symbol} (hlen : xs.length ≤ 65536) {k : Nat}
    (hk : k < 65536) (h : ¬(b = sp ∧ k < xs.length)) : (s.setRange sp 0 xs).elem b k = s.elem b k :=
  elem_setRange_other s xs (by omega) hk fun ⟨hb, _, hlt⟩ => h ⟨hb, by omega⟩

/-! ### ESEED -/

/-- Specified erasures without the sentinel are read as positions. -/
theorem readErasures_of_readRange {k count : Nat} {es : List Symbol} (h : readRange s .eras k count = .ok es)
    (hes : ∀ e ∈ es, e.toNat ≠ s.params.n) : readErasures s k count = .ok (es.map BitVec.toNat) := by
  induction count generalizing k es with
  | zero => cases h; rfl
  | succ count ih =>
    obtain ⟨e, he, h⟩ := run_bind_eq_ok.1 h
    obtain ⟨es', hread, h⟩ := run_bind_eq_ok.1 h
    cases h
    obtain ⟨hne, hes'⟩ := List.forall_mem_cons.1 hes
    rw [readErasures, he, run_bind_ok, if_neg hne, ih hread hes', run_bind_ok, List.map_cons]

theorem exec_eseed_of_readErasures {es : List Nat} (he : s.ecnt.toNat ≤ s.params.nr)
    (h : readErasures s 0 s.ecnt.toNat = .ok es) : exec .eseed s = .next (s.setRange .lambda 0 (seedLocator s.params es)) := by
  simp [exec, execEseed, eseedStage, Nat.not_lt.2 he, h]

/-- Settles O33: the write of the locator of the specified erasures. -/
theorem eseedWritesTheErasureLocator : Obligations.EseedWritesTheErasureLocator := by
  intro s es hv he hread hes
  have hbounds := Params.bounds hv
  have hlen := length_seedLocator (p := s.params) (es.map BitVec.toNat)
  refine ⟨_, _, exec_eseed_of_readErasures he (readErasures_of_readRange hread hes), setRange_frame _ _ _ _, rfl, hlen,
    fun k hk => elem_setRange_zero_same s (by decide) (by omega) (by omega), head_seedLocator _, fun k hk => ?_,
    fun b k hk hne => elem_setRange_zero_other s (by omega) hk (by rwa [hlen, Nat.lt_succ_iff])⟩
  exact getD_seedLocator_of_length_lt (by rwa [List.length_map, length_of_readRange hread])

/-! ### The faults of the erasures -/

theorem eseedStage_of_lt_ecnt (h : s.params.nr < s.ecnt.toNat) : eseedStage s = .error (.raise .ecnt) := if_pos h

theorem bmStage_of_lt_ecnt (h : s.params.nr < s.ecnt.toNat) : bmStage s = .error (.raise .ecnt) := if_pos h

theorem execDecode_of_lt_ecnt (h : s.params.nr < s.ecnt.toNat) :
    execDecode s = complete .decode s (.error (.raise .ecnt)) := if_pos h

/-- A fault of ESEED ends DECODE over the state with SYN written (48_decode.md R250). -/
theorem decodeNonzero_of_raise {c : Cause} (h : eseedStage s = .error (.raise c)) :
    decodeNonzero s = complete .decode s (.error (.raise c)) := by simp [decodeNonzero, decodeStage, h]

theorem faulted_setRange (s : State) (sp : Space) (k : Nat) (xs : List Symbol) :
    (s.setRange sp k xs).faulted = s.faulted := by rw [State.faulted, State.setRange_status, State.faulted]

/-- DECODE of a word that is not clean, with the sentinel met in the erasures: SYN is written and the fault is latched. -/
theorem exec_decode_of_sentinel {code : List Value} (hf : s.faulted = false) (he : s.ecnt.toNat ≤ s.params.nr)
    (hread : readErasures s 0 s.ecnt.toNat = .error (.raise .sentinel)) (hv : s.params.valid = true)
    (hcode : readRange s .code 0 s.params.n = .ok code) (hne : ∃ x ∈ syndromes s.params code, x ≠ 0) :
    exec .decode s = .next { s.setRange .syn 0 (syndromes s.params code) with
      status := faultStatus .sentinel, finfo := encode .decode } := by
  have hstage : eseedStage (s.setRange .syn 0 (syndromes s.params code)) = .error (.raise .sentinel) :=
    eseedStage_of_error (by simpa using he)
      (by rw [State.setRange_ecnt, readErasures_setRange_syn hv (syndromes_length _ _), hread])
  rw [exec_decode_of_ne_zero he (readSyndromes_eq_ok.2 ⟨code, hcode, rfl⟩) hne, decodeNonzero_of_raise hstage]
  exact complete_raise_of_not_faulted rfl (by rwa [faulted_setRange]) _

/-- Settles O35: the count is tested before the arrays are read, and DECODE writes SYN before ESEED reads ERAS. -/
theorem erasureFaults : Obligations.ErasureFaults := by
  intro s hf
  refine ⟨fun h => ⟨?_, ?_, ?_⟩, fun he k hk hn hspec => ?_⟩
  · exact complete_raise_of_not_faulted (eseedStage_of_lt_ecnt h) hf .eseed
  · exact complete_raise_of_not_faulted (bmStage_of_lt_ecnt h) hf .bm
  · exact (execDecode_of_lt_ecnt h).trans (complete_raise_of_not_faulted rfl hf .decode)
  · have hread : readErasures s 0 s.ecnt.toNat = .error (.raise .sentinel) :=
      readErasures_sentinel hk (by simpa using hn) (by simpa using hspec)
    refine ⟨complete_raise_of_not_faulted (eseedStage_of_error he hread) hf .eseed, fun code hv hcode hne => ?_⟩
    have hbounds := Params.bounds hv
    have hlen : (syndromes s.params code).length = s.params.nr := syndromes_length _ _
    refine ⟨_, exec_decode_of_sentinel hf he hread hv hcode hne, rfl, rfl, fun i hi => ?_, ?_, fun b j hj hout => ?_⟩
    · exact elem_setRange_zero_same s (sp := .syn) (by decide) (by omega) (by omega)
    · exact congrArg (fun u : State => { u with status := s.status, finfo := s.finfo }) (setRange_frame s .syn 0 _)
    · exact elem_setRange_zero_other s (by omega) hj (by rwa [hlen])

/-! ### BM -/

/-- With NR erasures there is no pass (R205). -/
theorem berlekampMassey_nr (p : Params) (syn lam : List Value) :
    berlekampMassey p syn lam p.nr = { lam := lam, b := lam, dprev := 1, len := p.nr } := by
  rw [berlekampMassey, Nat.sub_self, List.range'_zero, List.foldl_nil]

/-- BM's next state: with ECNT = NR nothing of SYN is read and any `syn` gives it (log entry 11). -/
theorem exec_bm_of_readRange {lam syn : List Value} (he : s.ecnt.toNat ≤ s.params.nr)
    (hlam : readRange s .lambda 0 (s.params.nr + 1) = .ok lam)
    (hsyn : s.ecnt.toNat < s.params.nr → readRange s .syn 0 s.params.nr = .ok syn) :
    exec .bm s = .next { s.setRange .lambda 0 (berlekampMassey s.params syn lam s.ecnt.toNat).lam with
      lreg := BitVec.ofNat 16 (berlekampMassey s.params syn lam s.ecnt.toNat).len } := by
  rcases Nat.lt_or_eq_of_le he with hlt | heq
  · simp [exec, execBm, bmStage, Nat.not_lt.2 he, hlam, readSynForBm, hlt, hsyn hlt]
  · simp [exec, execBm, bmStage, hlam, readSynForBm, heq, berlekampMassey_nr]

theorem elem_lreg (s : State) (x : Half) (sp : Space) (k : Nat) : ({ s with lreg := x } : State).elem sp k = s.elem sp k :=
  elem_congr rfl rfl rfl rfl sp k

/-- Settles O36: every pass keeps the shape of BM's temporaries, so the results fit LAMBDA and LREG. -/
theorem bmWritesTheLocator : Obligations.BmWritesTheLocator := by
  intro s lam syn hv he hlam hsyn
  have hbounds := Params.bounds hv
  obtain ⟨hlamLen, helem⟩ := readRange_eq_ok.1 hlam
  obtain ⟨hlen, -, hhead, hlower, hupper⟩ := bmShape_berlekampMassey (syn := syn) he hlamLen
  have hwritten : ∀ k, k ≤ s.params.nr →
      (s.setRange .lambda 0 (berlekampMassey s.params syn lam s.ecnt.toNat).lam).elem .lambda k =
        some ((berlekampMassey s.params syn lam s.ecnt.toNat).lam.getD k 0) := fun k hk =>
    elem_setRange_zero_same s (by decide) (by omega) (by omega)
  refine ⟨_, _, exec_bm_of_readRange he hlam fun _ => hsyn, rfl, hlen, ?_, hlower, hupper, fun k hk => ?_, ?_, ?_,
    fun b k hk hne => ?_⟩
  · rw [BitVec.toNat_ofNat, Nat.mod_eq_of_lt (by omega)]
  · rw [elem_lreg, hwritten k hk]
  · have hpos : 0 < lam.length := by omega
    rw [elem_lreg, hwritten 0 (Nat.zero_le _), hhead, List.getD_eq_getElem _ _ hpos, ← helem 0 hpos]
  · exact congrArg (fun u : State => { u with lreg := s.lreg }) (setRange_frame s .lambda 0 _)
  · rw [elem_lreg]
    exact elem_setRange_zero_other s (by omega) hk (by rwa [hlen, Nat.lt_succ_iff])

/-- Settles O37: no pass runs, and LAMBDA is written with what it holds. -/
theorem bmWithAllErasuresRunsNoPass : Obligations.BmWithAllErasuresRunsNoPass := by
  intro s lam hs he hlam
  obtain ⟨-, helem⟩ := readRange_eq_ok.1 hlam
  have hnext := exec_bm_of_readRange (syn := []) he.le hlam fun hlt => absurd he hlt.ne
  have hkept : s.setRange .lambda 0 lam = s := setRange_of_elem hs.memCanonical (by decide) helem
  rw [he, berlekampMassey_nr, hkept, ← he, BitVec.ofNat_toNat, BitVec.setWidth_eq] at hnext
  exact hnext

end Sys2Proof.Machine
end

section
/-! PROOFS. ROOTS writes the trimmed degree of LAMBDA and the locations found (46_rootfinder.md R220). -/

namespace Sys2Proof.Machine

variable {s : State} {lam : List Value}

/-- Above the trimmed degree every coefficient is 0. -/
theorem getD_eq_zero_of_trimmedDegree_lt {d k : Nat} (hlen : lam.length = d + 1) (hk : trimmedDegree lam d < k) :
    lam.getD k 0 = 0 := by
  obtain ⟨-, -, hhigh⟩ := trimmedDegree_spec lam d
  rcases Nat.lt_or_ge d k with hgt | hle
  · exact List.getD_eq_default _ _ (by omega)
  · exact hhigh k hk hle

theorem exec_roots_of_readRange (hlam : readRange s .lambda 0 (s.params.nr + 1) = .ok lam) :
    exec .roots s = .next { s.setRange .loc 0 ((findRoots s.params lam (trimmedDegree lam s.params.nr)).map toIndex) with
      deg := BitVec.ofNat 16 (trimmedDegree lam s.params.nr),
      nroots := BitVec.ofNat 16 (findRoots s.params lam (trimmedDegree lam s.params.nr)).length } := by
  simp [exec, execRoots, rootsStage, hlam]

theorem elem_deg_nroots (s : State) (d n : Half) (sp : Space) (k : Nat) :
    ({ s with deg := d, nroots := n } : State).elem sp k = s.elem sp k := elem_congr rfl rfl rfl rfl sp k

/-- Settles O38: no more than N locations are found, so they fit LOC and their count fits NROOTS. -/
theorem rootsWritesDegreeAndLocations : Obligations.RootsWritesDegreeAndLocations := by
  intro s lam hv hlam
  have hbounds := Params.bounds hv
  obtain ⟨hdeg, hlead, -⟩ := trimmedDegree_spec lam s.params.nr
  have hcount := length_findRoots_le_n hv lam (trimmedDegree lam s.params.nr)
  have hlen : ((findRoots s.params lam (trimmedDegree lam s.params.nr)).map toIndex).length =
      (findRoots s.params lam (trimmedDegree lam s.params.nr)).length := List.length_map _
  refine ⟨_, _, _, exec_roots_of_readRange hlam, ?_, hdeg, hlead,
    fun k hk => getD_eq_zero_of_trimmedDegree_lt (length_of_readRange hlam) hk, rfl, ?_, fun k hk => ?_, ?_, fun b k hk hne => ?_⟩
  · rw [BitVec.toNat_ofNat, Nat.mod_eq_of_lt (by omega)]
  · rw [BitVec.toNat_ofNat, Nat.mod_eq_of_lt (by omega)]
  · rw [elem_deg_nroots, elem_setRange_zero_same s (by decide) (by omega) (by omega), List.getD_eq_getElem _ _ hk,
      List.getD_eq_getElem _ _ (by omega), List.getElem_map, toIndex]
  · exact congrArg (fun u : State => { u with deg := s.deg, nroots := s.nroots }) (setRange_frame s .loc 0 _)
  · rw [elem_deg_nroots]
    exact elem_setRange_zero_other s (by omega) hk (by rwa [hlen])

end Sys2Proof.Machine
end

section
/-! PROOFS. The locations are pairwise different (46_rootfinder.md R225): different nonzero roots have different positions, and
the quadratic solver's two values R and R + 1 are different and nonzero. -/

namespace Sys2Proof.Machine

variable {p : Params} {lam : List Value}

/-- The root of a nonzero symbol's position has the symbol's logarithm as its index. -/
theorem rootOfPosition_positionOfRoot (h : p.valid = true) {x : Value} (h0 : x ≠ 0) (hx : x.toNat < p.q) :
    rootOfPosition p (positionOfRoot p x) = logt p x := by
  obtain ⟨hlog, -⟩ := alphaPow_logt h h0 hx
  obtain ⟨-, hsum⟩ := idiv_spec (n_pos h) (logt p x) 1
  rw [rootOfPosition, positionOfRoot, hsum, Nat.mod_eq_of_lt hlog]

/-- `positionOfRoot` inverts `rootOfPosition`: a position is that of a nonzero symbol exactly when the symbol is its root. -/
theorem eq_positionOfRoot_iff (h : p.valid = true) {x : Value} (h0 : x ≠ 0) (hx : x.toNat < p.q) {pos : Nat} (hpos : pos < p.n) :
    pos = positionOfRoot p x ↔ expt p (rootOfPosition p pos) = x := by
  constructor
  · rintro rfl
    rw [rootOfPosition_positionOfRoot h h0 hx, expt_logt h h0 hx]
  · rintro rfl
    refine rootOfPosition_injOn hpos (idiv_lt h _ _) ?_
    rw [rootOfPosition_positionOfRoot h h0 hx, logt_expt h (rootOfPosition_lt h pos)]

theorem positionOfRoot_inj (h : p.valid = true) {x y : Value} (hx0 : x ≠ 0) (hx : x.toNat < p.q) (hy0 : y ≠ 0)
    (hy : y.toNat < p.q) (he : positionOfRoot p x = positionOfRoot p y) : x = y := by
  have hroot := (eq_positionOfRoot_iff h hx0 hx (idiv_lt h _ _)).1 rfl
  rw [← hroot]
  exact (eq_positionOfRoot_iff h hy0 hy (idiv_lt h _ _)).1 he

theorem mulV_ne_zero (h : p.valid = true) {x y : Value} (hx : x ≠ 0) (hy : y ≠ 0) : mulV p x y ≠ 0 := by
  rw [mulV_of_ne hx hy]
  exact expt_mod_ne_zero h _

theorem rcp_ne_zero (h : p.valid = true) (x : Value) : rcp p x ≠ 0 := expt_mod_ne_zero h _

theorem divV_ne_zero (h : p.valid = true) {x : Value} (hx : x ≠ 0) (y : Value) : divV p x y ≠ 0 := by
  rw [divV_eq_mulV_rcp h]
  exact mulV_ne_zero h hx (rcp_ne_zero h y)

theorem mulV_left_cancel (h : p.valid = true) {a x y : Value} (h0 : a ≠ 0) (ha : a.toNat < p.q) (hx : x.toNat < p.q)
    (hy : y.toNat < p.q) (he : mulV p a x = mulV p a y) : x = y := by
  let := elemField h
  have ha0 : (⟨a, ha⟩ : Elem p) ≠ 0 := fun e => h0 (congrArg Subtype.val e)
  have hxy : (⟨x, hx⟩ : Elem p) = ⟨y, hy⟩ := mul_left_cancel₀ ha0 (Subtype.ext he)
  exact congrArg Subtype.val hxy

theorem add_one_ne_self (x : Value) : add x 1 ≠ x := by simp [add]

/-- The constant of the quadratic equation in y that the substitution x = (b/a)·y gives (R223). -/
def quadraticConstant (p : Params) (lam : List Value) : Value :=
  divV p (mulV p (lam.getD 2 0) (lam.getD 0 0)) (mulV p (lam.getD 1 0) (lam.getD 1 0))

theorem rootsDeg2_of_zero (hz : lam.getD 1 0 = 0 ∨ lam.getD 0 0 = 0) : rootsDeg2 p lam = [] := if_pos hz

theorem rootsDeg2_of_asit_eq_zero (hr : asit p (quadraticConstant p lam) = 0) : rootsDeg2 p lam = [] :=
  ite_eq_left_iff.2 fun _ => if_pos hr

theorem rootsDeg2_of_asit_ne_zero (hb : lam.getD 1 0 ≠ 0) (hc : lam.getD 0 0 ≠ 0) (hr : asit p (quadraticConstant p lam) ≠ 0) :
    rootsDeg2 p lam =
      [positionOfRoot p (mulV p (divV p (lam.getD 1 0) (lam.getD 2 0)) (asit p (quadraticConstant p lam))),
        positionOfRoot p (mulV p (divV p (lam.getD 1 0) (lam.getD 2 0)) (add (asit p (quadraticConstant p lam)) 1))] :=
  (if_neg (not_or.2 ⟨hb, hc⟩)).trans (if_neg hr)

/-- The second solution R + 1 is nonzero, because an entry R of ASIT is not 1. -/
theorem asit_add_one_ne_zero (h : p.valid = true) (y : Value) : add (asit p y) 1 ≠ 0 := fun e => by
  have hone : asit p y = 1 := BitVec.xor_eq_zero_iff.1 e
  rcases asit_cases h y with ⟨h2, -⟩ | ⟨hzero, -⟩
  · rw [hone] at h2
    exact absurd h2 (by decide)
  · exact absurd (hzero.symm.trans hone) (by decide)

theorem nodup_rootsDeg2 (h : p.valid = true) (lam : List Value) : (rootsDeg2 p lam).Nodup := by
  by_cases hz : lam.getD 1 0 = 0 ∨ lam.getD 0 0 = 0
  · rw [rootsDeg2_of_zero hz]
    exact List.nodup_nil
  by_cases hr : asit p (quadraticConstant p lam) = 0
  · rw [rootsDeg2_of_asit_eq_zero hr]
    exact List.nodup_nil
  obtain ⟨hb, hc⟩ := not_or.1 hz
  rw [rootsDeg2_of_asit_ne_zero hb hc hr, List.nodup_cons, List.mem_singleton]
  refine ⟨fun he => ?_, List.nodup_singleton _⟩
  have hba := divV_ne_zero h hb (lam.getD 2 0)
  have hprod := positionOfRoot_inj h (mulV_ne_zero h hba hr) (mulV_lt h _ _)
    (mulV_ne_zero h hba (asit_add_one_ne_zero h _)) (mulV_lt h _ _) he
  exact add_one_ne_self _ (mulV_left_cancel h hba (divV_lt h _ _) (asit_lt _) (add_lt (asit_lt _) (one_lt_q h)) hprod).symm

theorem nodup_findRoots (h : p.valid = true) (lam : List Value) (d : Nat) : (findRoots p lam d).Nodup :=
  match d with
  | 0 => List.nodup_nil
  | 1 => List.nodup_singleton _
  | 2 => nodup_rootsDeg2 h lam
  | _ + 3 => List.nodup_range.filter _

/-- Settles O39: a polynomial of degree DEG has at most DEG roots. -/
theorem rootCountIsAtMostTheDegree : Obligations.RootCountIsAtMostTheDegree := by
  intro p lam h hlen hsym
  obtain ⟨hdeg, hlead, -⟩ := trimmedDegree_spec lam p.nr
  exact ⟨length_findRoots_le h (by omega) hsym hlead, nodup_findRoots h lam _, fun _ hl => lt_of_mem_findRoots h hl⟩

end Sys2Proof.Machine
end

section
/-! PROOFS. The locations are exactly the zeros of the locator (46_rootfinder.md R222 to R225): the closed forms solve the linear
and the quadratic equation in the unit's field, and the Chien search tries every position. -/

namespace Sys2Proof.Machine

variable {p : Params} {lam : List Value}

/-! ### The value of a locator of small degree -/

theorem evalAt_eq_zero_of_forall_getD {cs : List Value} (hz : ∀ k, cs.getD k 0 = 0) (r : Nat) : evalAt p cs r = 0 := by
  have hterm : ∀ x ∈ (List.range cs.length).map fun j => mulIv p ((j * r) % p.n) (cs.getD j 0), x = 0 :=
    List.forall_mem_map.2 fun j _ => (congrArg (mulIv p _) (hz j)).trans (mulIv_zero _)
  exact List.foldlRecOn _ add (motive := (· = 0)) rfl fun acc hacc x hx => by
    rw [hacc, hterm x hx, add_zero_left]

/-- Horner's rule, for a list that may be empty. -/
theorem evalAt_eq_add_tail (h : p.valid = true) {cs : List Value} (hcs : Symbols p cs) (r : Nat) :
    evalAt p cs r = add (cs.getD 0 0) (mulIv p r (evalAt p cs.tail r)) := by
  cases cs with
  | nil => simp [evalAt_nil, add]
  | cons c cs =>
    obtain ⟨hc, hcs⟩ := List.forall_mem_cons.1 hcs
    exact evalAt_cons h hc hcs r

theorem Symbols.tail {xs : List Value} (hxs : Symbols p xs) : Symbols p xs.tail := fun x hx => hxs x (List.mem_of_mem_tail hx)

theorem getD_tail (xs : List Value) (k : Nat) : xs.tail.getD k 0 = xs.getD (k + 1) 0 := by cases xs <;> simp

/-- Coefficients 0 at the end do not count. -/
theorem evalAt_take (h : p.valid = true) {cs : List Value} (hcs : Symbols p cs) {n : Nat} (hz : ∀ k, n ≤ k → cs.getD k 0 = 0)
    (r : Nat) : evalAt p (cs.take n) r = evalAt p cs r := by
  induction cs generalizing n with
  | nil => rw [List.take_nil]
  | cons c cs ih =>
    cases n with
    | zero => exact (evalAt_nil r).trans (evalAt_eq_zero_of_forall_getD (fun k => hz k (Nat.zero_le k)) r).symm
    | succ n =>
      obtain ⟨hc, hcs⟩ : c.toNat < p.q ∧ Symbols p cs := List.forall_mem_cons.1 hcs
      have htake : Symbols p (cs.take n) := fun x hx => hcs x (List.mem_of_mem_take hx)
      rw [List.take_succ_cons, evalAt_cons h hc htake, evalAt_cons h hc hcs, ih hcs fun k hk => hz (k + 1) (by omega)]

theorem evalAt_of_degree_one (h : p.valid = true) (hsym : Symbols p lam) (hz : ∀ k, 1 < k → lam.getD k 0 = 0) (r : Nat) :
    evalAt p lam r = add (lam.getD 0 0) (mulV p (expt p (r % p.n)) (lam.getD 1 0)) := by
  have hrest : evalAt p lam.tail.tail r = 0#16 := evalAt_eq_zero_of_forall_getD (fun k => by
    rw [getD_tail, getD_tail]
    exact hz _ (by omega)) r
  have hlinear : evalAt p lam.tail r = lam.getD 1 0 := by
    rw [evalAt_eq_add_tail h hsym.tail, hrest, mulIv_zero, getD_tail]
    exact BitVec.xor_zero
  rw [evalAt_eq_add_tail h hsym, hlinear, mulV_expt_left h]

theorem evalAt_of_degree_two (h : p.valid = true) (hsym : Symbols p lam) (hz : ∀ k, 2 < k → lam.getD k 0 = 0) (r : Nat) :
    evalAt p lam r = add (lam.getD 0 0) (mulV p (expt p (r % p.n))
      (add (lam.getD 1 0) (mulV p (expt p (r % p.n)) (lam.getD 2 0)))) := by
  have htail := evalAt_of_degree_one h hsym.tail (fun k hk => (getD_tail lam k).trans (hz _ (by omega))) r
  rw [getD_tail, getD_tail] at htail
  rw [evalAt_eq_add_tail h hsym, htail, mulV_expt_left h r (add _ _)]

/-! ### The field's equations -/

theorem val_div (h : p.valid = true) (x : Elem p) {y : Elem p} (hy : y.1 ≠ 0) :
    letI := elemField h; (x / y).1 = divV p x.1 y.1 := by
  let := elemField h
  have hinv : (y⁻¹).1 = rcp p y.1 := congrArg Subtype.val (if_neg hy)
  rw [div_eq_mul_inv, divV_eq_mulV_rcp h, ← hinv]
  rfl

/-- The equation of degree 1 has the solution 1/b (R222). -/
theorem add_one_mulV_eq_zero_iff (h : p.valid = true) {b x : Value} (h0 : b ≠ 0) (hb : b.toNat < p.q) (hx : x.toNat < p.q) :
    add 1 (mulV p x b) = 0 ↔ x = rcp p b := by
  have hrcp : mulV p b (rcp p b) = 1 := mulV_rcp h h0 hb
  constructor
  · intro he
    have hone : mulV p b x = 1 := (mulV_comm b x).trans (BitVec.xor_eq_zero_iff.1 he).symm
    exact mulV_left_cancel h h0 hb hx (expt_lt h _) (hone.trans hrcp.symm)
  · rintro rfl
    rw [mulV_comm, hrcp]
    exact BitVec.xor_self

/-- The substitution x = (b/a)·y takes c + b·x + a·x² = 0 to y² + y = (a·c)/b² (R223). -/
theorem quadratic_eq_zero_iff_artinSchreier (h : p.valid = true) {a b c y : Value} (ha0 : a ≠ 0) (hb0 : b ≠ 0) (ha : a.toNat < p.q)
    (hb : b.toNat < p.q) (hc : c.toNat < p.q) (hy : y.toNat < p.q) :
    add c (mulV p (mulV p (divV p b a) y) (add b (mulV p (mulV p (divV p b a) y) a))) = 0 ↔
      artinSchreier p y = divV p (mulV p a c) (mulV p b b) := by
  let := elemField h
  let a' : Elem p := ⟨a, ha⟩
  let b' : Elem p := ⟨b, hb⟩
  let c' : Elem p := ⟨c, hc⟩
  let y' : Elem p := ⟨y, hy⟩
  have ha' : a' ≠ 0 := fun e => ha0 (congrArg Subtype.val e)
  have hb' : b' ≠ 0 := fun e => hb0 (congrArg Subtype.val e)
  have htwo : (1 : Elem p) + 1 = 0 := Subtype.ext (BitVec.xor_self (x := 1))
  have hfield : c' + b' / a' * y' * (b' + b' / a' * y' * a') = 0 ↔ y' * y' + y' = a' * c' / (b' * b') := by
    rw [eq_div_iff (mul_ne_zero hb' hb')]
    field_simp
    constructor <;> intro he
    · linear_combination he - a' * c' * htwo
    · linear_combination he + a' * c' * htwo
  have hscale : (b' / a').1 = divV p b a := val_div h b' ha0
  have hconstant : (a' * c' / (b' * b')).1 = divV p (mulV p a c) (mulV p b b) := val_div h (a' * c') (mulV_ne_zero h hb0 hb0)
  rw [← hscale, ← hconstant]
  exact (Subtype.ext_iff.symm.trans hfield).trans Subtype.ext_iff

/-- The two solutions of an Artin-Schreier equation differ by 1. -/
theorem artinSchreier_add_one (h : p.valid = true) {y : Value} (hy : y.toNat < p.q) :
    artinSchreier p (add y 1) = artinSchreier p y := by
  let := elemField h
  let y' : Elem p := ⟨y, hy⟩
  have htwo : (1 : Elem p) + 1 = 0 := Subtype.ext (BitVec.xor_self (x := 1))
  have hfield : (y' + 1) * (y' + 1) + (y' + 1) = y' * y' + y' := by linear_combination (y' + 1) * htwo
  exact congrArg Subtype.val hfield

theorem add_one_add_one (y : Value) : add (add y 1) 1 = y := by simp [add]

/-- The even solution for a nonzero constant is the one that ASIT holds, and is not 0. -/
theorem asit_of_even_solution (h : p.valid = true) {k z : Value} (hk : k ≠ 0) (hz : z.toNat < p.q) (heven : z.toNat % 2 = 0)
    (he : artinSchreier p z = k) : asit p k ≠ 0 ∧ asit p k = z := by
  subst he
  obtain ⟨-, hinv, -⟩ := asitInvertsTheArtinSchreierMap p h
  have h0 : z ≠ 0 := fun e => hk ((congrArg _ e).trans (artinSchreier_zero p))
  have hpos := BitVec.toNat_pos_of_ne_zero h0
  have hentry : asit p (artinSchreier p z) = z := hinv z (by omega) hz heven
  exact ⟨hentry.trans_ne h0, hentry⟩

/-- The solver is complete: y² + y = K ≠ 0 has the solutions R and R + 1, R the entry of ASIT, and none when R = 0 (R223). -/
theorem artinSchreier_eq_iff (h : p.valid = true) {k y : Value} (hk : k ≠ 0) (hy : y.toNat < p.q) :
    artinSchreier p y = k ↔ asit p k ≠ 0 ∧ (y = asit p k ∨ y = add (asit p k) 1) := by
  constructor
  · intro he
    rcases Nat.mod_two_eq_zero_or_one y.toNat with heven | hodd
    · obtain ⟨hr, hentry⟩ := asit_of_even_solution h hk hy heven he
      exact ⟨hr, .inl hentry.symm⟩
    · have heven : (add y 1).toNat % 2 = 0 := by
        rw [add, BitVec.toNat_xor, Nat.xor_mod_two_eq, Nat.add_mod, hodd]
        rfl
      obtain ⟨hr, hentry⟩ :=
        asit_of_even_solution h hk (add_lt hy (one_lt_q h)) heven ((artinSchreier_add_one h hy).trans he)
      exact ⟨hr, .inr (by rw [hentry, add_one_add_one])⟩
  · rintro ⟨hr, hcase⟩
    obtain ⟨-, -, hentry⟩ := asitInvertsTheArtinSchreierMap p h
    obtain ⟨-, -, himage⟩ := hentry k hr
    rcases hcase with rfl | rfl
    · exact himage
    · exact (artinSchreier_add_one h (asit_lt k)).trans himage

/-! ### The three paths of the root finder -/

variable {pos : Nat}

/-- Every symbol is the product of a nonzero symbol `a` with some symbol. -/
theorem exists_mulV_eq (h : p.valid = true) {a x : Value} (h0 : a ≠ 0) (ha : a.toNat < p.q) (hx : x.toNat < p.q) :
    ∃ y : Value, y.toNat < p.q ∧ mulV p a y = x := by
  refine ⟨mulV p (rcp p a) x, mulV_lt h _ _, ?_⟩
  have hassoc := mulV_assoc h ha (b := rcp p a) (expt_lt h _) hx
  rw [← hassoc, mulV_rcp h h0 ha, one_mulV h hx]

theorem mem_rootsDeg1_iff (h : p.valid = true) (hsym : Symbols p lam) (hc : lam.getD 0 0 = 1) (hb : lam.getD 1 0 ≠ 0)
    (hz : ∀ k, 1 < k → lam.getD k 0 = 0) (hpos : pos < p.n) :
    pos ∈ rootsDeg1 p lam ↔ evalAt p lam (rootOfPosition p pos) = 0 := by
  have hr := Nat.mod_eq_of_lt (rootOfPosition_lt h pos)
  rw [evalAt_of_degree_one h hsym hz, hr, hc, add_one_mulV_eq_zero_iff h hb (hsym.getD 1) (expt_lt h _),
    ← eq_positionOfRoot_iff h (rcp_ne_zero h _) (expt_lt h _) hpos, rootsDeg1, List.mem_singleton]

/-- A position is found by the quadratic solver exactly when its root is (b/a)·R or (b/a)·(R + 1), with R ≠ 0. -/
theorem mem_rootsDeg2_iff_root (h : p.valid = true) (hc : lam.getD 0 0 ≠ 0) (hb : lam.getD 1 0 ≠ 0) (hpos : pos < p.n) :
    pos ∈ rootsDeg2 p lam ↔ asit p (quadraticConstant p lam) ≠ 0 ∧
      (expt p (rootOfPosition p pos) = mulV p (divV p (lam.getD 1 0) (lam.getD 2 0)) (asit p (quadraticConstant p lam)) ∨
        expt p (rootOfPosition p pos) =
          mulV p (divV p (lam.getD 1 0) (lam.getD 2 0)) (add (asit p (quadraticConstant p lam)) 1)) := by
  by_cases hr : asit p (quadraticConstant p lam) = 0
  · simp [rootsDeg2_of_asit_eq_zero hr, hr]
  · have hba := divV_ne_zero h hb (lam.getD 2 0)
    rw [and_iff_right hr, rootsDeg2_of_asit_ne_zero hb hc hr, List.mem_pair,
      eq_positionOfRoot_iff h (mulV_ne_zero h hba hr) (mulV_lt h _ _) hpos,
      eq_positionOfRoot_iff h (mulV_ne_zero h hba (asit_add_one_ne_zero h _)) (mulV_lt h _ _) hpos]

theorem mem_rootsDeg2_iff (h : p.valid = true) (hsym : Symbols p lam) (hc : lam.getD 0 0 ≠ 0) (hb : lam.getD 1 0 ≠ 0)
    (ha : lam.getD 2 0 ≠ 0) (hz : ∀ k, 2 < k → lam.getD k 0 = 0) (hpos : pos < p.n) :
    pos ∈ rootsDeg2 p lam ↔ evalAt p lam (rootOfPosition p pos) = 0 := by
  have hba := divV_ne_zero h hb (lam.getD 2 0)
  have hcancel : ∀ {y z : Value}, y.toNat < p.q → z.toNat < p.q →
      (mulV p (divV p (lam.getD 1 0) (lam.getD 2 0)) y = mulV p (divV p (lam.getD 1 0) (lam.getD 2 0)) z ↔ y = z) :=
    fun hy hz => ⟨mulV_left_cancel h hba (divV_lt h _ _) hy hz, congrArg _⟩
  have hconstant : quadraticConstant p lam ≠ 0 := divV_ne_zero h (mulV_ne_zero h ha hc) _
  obtain ⟨y, hy, hroot⟩ := exists_mulV_eq h hba (divV_lt h _ _) (expt_lt h (rootOfPosition p pos))
  rw [mem_rootsDeg2_iff_root h hc hb hpos, evalAt_of_degree_two h hsym hz, Nat.mod_eq_of_lt (rootOfPosition_lt h pos), ← hroot,
    hcancel hy (asit_lt _), hcancel hy (add_lt (asit_lt _) (one_lt_q h)),
    quadratic_eq_zero_iff_artinSchreier h ha hb (hsym.getD 2) (hsym.getD 1) (hsym.getD 0) hy, ← quadraticConstant,
    artinSchreier_eq_iff h hconstant hy]

theorem mem_rootsChien_iff (h : p.valid = true) (hsym : Symbols p lam) {d : Nat} (hz : ∀ k, d < k → lam.getD k 0 = 0)
    (hpos : pos < p.n) : pos ∈ rootsChien p lam d ↔ evalAt p lam (rootOfPosition p pos) = 0 := by
  rw [rootsChien, List.mem_filter, List.mem_range, and_iff_right hpos, decide_eq_true_iff, evalAt_take h hsym hz]

/-- Whichever path the degree selects, it finds the zeros of a locator with LAMBDA[0] = 1. -/
theorem mem_findRoots_iff (h : p.valid = true) (hsym : Symbols p lam) (hc : lam.getD 0 0 = 1) {d : Nat}
    (hlead : d ≠ 0 → lam.getD d 0 ≠ 0) (hz : ∀ k, d < k → lam.getD k 0 = 0) (hdouble : ¬(d = 2 ∧ lam.getD 1 0 = 0))
    (hpos : pos < p.n) : pos ∈ findRoots p lam d ↔ evalAt p lam (rootOfPosition p pos) = 0 := by
  match d with
  | 0 =>
    have hone : evalAt p lam (rootOfPosition p pos) = 1 := by
      rw [evalAt_of_degree_one h hsym fun k hk => hz k (by omega), hz 1 (by omega), hc]
      exact congrArg (add 1) (mulV_zero _)
    simp [findRoots, hone]
  | 1 => exact mem_rootsDeg1_iff h hsym hc (hlead one_ne_zero) hz hpos
  | 2 =>
    have hc0 : lam.getD 0 0 ≠ 0 := by
      rw [hc]
      decide
    exact mem_rootsDeg2_iff h hsym hc0 (fun hb => hdouble ⟨rfl, hb⟩) (hlead two_ne_zero) hz hpos
  | d + 3 => exact mem_rootsChien_iff h hsym hz hpos

/-- Settles O40: every path solves the equation of its degree, and the solver declares failure on b = 0. -/
theorem rootsAreTheZerosOfTheLocator : Obligations.RootsAreTheZerosOfTheLocator := by
  intro p lam h hlen hsym hc
  obtain ⟨-, hlead, -⟩ := trimmedDegree_spec lam p.nr
  refine ⟨fun hd hb => ?_, fun hdouble pos hpos => ?_⟩
  · rw [hd]
    exact rootsDeg2_of_zero (.inl hb)
  · exact mem_findRoots_iff h hsym hc hlead (fun k hk => getD_eq_zero_of_trimmedDegree_lt hlen hk) hdouble hpos

end Sys2Proof.Machine
end

section
/-! PROOFS. FORNEY (47_forney.md R241): the corrections of pairwise different locations, each element by its own magnitude, and
the fault where Λ′ vanishes, before anything is written. -/

namespace Sys2Proof.Machine

variable {s t : State}

/-- The corrections answer where CODE is specified at every location. -/
theorem applyMagnitudes_isOk {xs : List (Nat × Value)} (hlt : ∀ x ∈ xs, x.1 < 65536)
    (hspec : ∀ x ∈ xs, ∃ c, s.elem .code x.1 = some c) : ∃ t, applyMagnitudes s xs = .ok t := by
  induction xs generalizing s with
  | nil => exact ⟨s, rfl⟩
  | cons x xs ih =>
    obtain ⟨c, hc⟩ := hspec x List.mem_cons_self
    have hspec' : ∀ y ∈ xs, ∃ d, (s.setElem .code x.1 (add c x.2)).elem .code y.1 = some d := fun y hy => by
      by_cases he : y.1 = x.1
      · exact ⟨_, by rw [he, elem_setElem_same s (by decide)]⟩
      · rw [elem_setElem_other s (hlt x List.mem_cons_self) (hlt y (List.mem_cons_of_mem _ hy)) _ fun h => he h.2]
        exact hspec y (List.mem_cons_of_mem _ hy)
    obtain ⟨t, ht⟩ := ih (fun y hy => hlt y (List.mem_cons_of_mem _ hy)) hspec'
    exact ⟨t, by rw [applyMagnitudes, readElem_eq_ok.2 hc, run_bind_ok, ht]⟩

/-- Where the locations are pairwise different, each gets its own magnitude added once. -/
theorem elem_of_applyMagnitudes {xs : List (Nat × Value)} (hlt : ∀ x ∈ xs, x.1 < 65536) (hnd : (xs.map Prod.fst).Nodup)
    (h : applyMagnitudes s xs = .ok t) {x : Nat × Value} (hx : x ∈ xs) {c : Value} (hc : s.elem .code x.1 = some c) :
    t.elem .code x.1 = some (add c x.2) := by
  induction xs generalizing s with
  | nil => cases hx
  | cons y ys ih =>
    obtain ⟨d, hd, h⟩ := run_bind_eq_ok.1 h
    rw [List.map_cons, List.nodup_cons] at hnd
    obtain ⟨hy, hnd⟩ := hnd
    have hlt' : ∀ z ∈ ys, z.1 < 65536 := fun z hz => hlt z (List.mem_cons_of_mem _ hz)
    rcases List.mem_cons.1 hx with rfl | hx
    · obtain ⟨-, hkeep⟩ := applyMagnitudes_frame h hlt'
      obtain rfl : d = c := Option.some.inj ((readElem_eq_ok.1 hd).symm.trans hc)
      rw [hkeep .code x.1 (hlt x List.mem_cons_self) fun e => hy e.2, elem_setElem_same s (by decide)]
    · have hne : x.1 ≠ y.1 := fun e => hy (e ▸ List.mem_map_of_mem hx)
      refine ih hlt' hnd h hx ?_
      rwa [elem_setElem_other s (hlt y List.mem_cons_self) (hlt' x hx) _ fun e => hne e.2]

/-- Λ′ that vanishes at a recorded root is E_DIVZERO. -/
theorem magnitudes_raise {p : Params} {om lam : List Value} {ls : List Nat}
    (h : ∃ l ∈ ls, derivativeAt p lam (rootOfPosition p l) = 0) : magnitudes p om lam ls = .error (.raise .divZero) := by
  induction ls with
  | nil => simp at h
  | cons l ls ih =>
    rw [magnitudes]
    cases hm : magnitude p om lam l with
    | error e =>
      obtain ⟨-, rfl⟩ := magnitude_eq_error.1 hm
      rfl
    | ok m =>
      have hl : derivativeAt p lam (rootOfPosition p l) ≠ 0 := fun e => by
        rw [magnitude_eq_error.2 ⟨e, rfl⟩] at hm
        cases hm
      obtain ⟨k, hk, hzero⟩ := h
      have hk' : k ∈ ls := (List.mem_cons.1 hk).resolve_left fun e => hl (e ▸ hzero)
      rw [run_bind_ok, ih ⟨k, hk', hzero⟩, run_bind_error]

section

variable {syn lam locs : List Symbol} (hsyn : readRange s .syn 0 s.params.nr = .ok syn)
  (hlam : readRange s .lambda 0 (s.params.nr + 1) = .ok lam) (hlocs : readRange s .loc 0 s.nroots.toNat = .ok locs)
include hsyn hlam hlocs

theorem forneyStage_of_magnitudes_error {e : Stop}
    (h : magnitudes s.params (evaluator s.params lam syn) lam (locs.map BitVec.toNat) = .error e) : forneyStage s = .error e := by
  simp [forneyStage, hsyn, hlam, hlocs, h]

theorem forneyStage_of_applyMagnitudes {mags : List Value} {u : State}
    (hmags : magnitudes s.params (evaluator s.params lam syn) lam (locs.map BitVec.toNat) = .ok mags)
    (h : applyMagnitudes ((s.setRange .omega 0 (evaluator s.params lam syn)).setRange .mag 0 mags)
      ((locs.map BitVec.toNat).zip mags) = .ok u) : forneyStage s = .ok (u.setResult (countWord mags)) := by
  simp [forneyStage, hsyn, hlam, hlocs, hmags, h]

end

section

variable {lam syn mags : List Value} {b : Space} {k : Nat} (hv : s.params.valid = true) (hlen : mags.length ≤ 65536)

include hlen in
theorem elem_mag_setRange_omega_mag (om : List Value) (hk : k < mags.length) :
    ((s.setRange .omega 0 om).setRange .mag 0 mags).elem .mag k = some (mags.getD k 0) :=
  elem_setRange_zero_same _ (by decide) hlen hk

include hv hlen

theorem elem_omega_setRange_omega_mag (hk : k < s.params.nr) :
    ((s.setRange .omega 0 (evaluator s.params lam syn)).setRange .mag 0 mags).elem .omega k =
      some ((evaluator s.params lam syn).getD k 0) := by
  have hbounds := Params.bounds hv
  have homega : (evaluator s.params lam syn).length = s.params.nr := evaluator_length _ _ _
  rw [elem_setRange_zero_other _ hlen (by omega) fun e => absurd e.1 (by decide),
    elem_setRange_zero_same s (by decide) (by omega) (by omega)]

theorem elem_setRange_omega_mag_other (hk : k < 65536) (homega : ¬(b = .omega ∧ k < s.params.nr))
    (hmag : ¬(b = .mag ∧ k < mags.length)) :
    ((s.setRange .omega 0 (evaluator s.params lam syn)).setRange .mag 0 mags).elem b k = s.elem b k := by
  have hbounds := Params.bounds hv
  have hom : (evaluator s.params lam syn).length = s.params.nr := evaluator_length _ _ _
  rw [elem_setRange_zero_other _ hlen hk hmag, elem_setRange_zero_other s (by omega) hk (by rwa [hom])]

end

/-- The corrections and the writes of OMEGA and MAG change the memory alone. -/
theorem frame_of_applyMagnitudes {om mags : List Value} {xs : List (Nat × Value)}
    (h : applyMagnitudes ((s.setRange .omega 0 om).setRange .mag 0 mags) xs = .ok t) (hlt : ∀ x ∈ xs, x.1 < 65536) :
    { t with mem := s.mem } = s := by
  obtain ⟨hframe, -⟩ := applyMagnitudes_frame h hlt
  have hreset : ∀ {u v : State}, u = v → ({ u with mem := s.mem } : State) = { v with mem := s.mem } :=
    congrArg fun u : State => { u with mem := s.mem }
  exact (hreset hframe).trans ((hreset (setRange_frame _ .mag 0 mags)).trans (setRange_frame s .omega 0 om))

/-- Settles O41: the corrections are made one location after the other, over the state with OMEGA and MAG written. -/
theorem forneyCorrectsTheRecordedLocations : Obligations.ForneyCorrectsTheRecordedLocations := by
  intro s syn lam locs hs hnr hsyn hlam hlocs hnd hcode hder
  have hv := hs.paramsLegal
  have hbounds := Params.bounds hv
  obtain ⟨mags, hmags, hlen⟩ := magnitudes_isOk (om := evaluator s.params lam syn) (List.forall_mem_map.2 hder)
  rw [List.length_map] at hlen
  have hlocsLen := length_of_readRange hlocs
  have hlen' : mags.length ≤ 65536 := by omega
  have hfst : ((locs.map BitVec.toNat).zip mags).map Prod.fst = locs.map BitVec.toNat :=
    List.map_fst_zip (by simp [hlen])
  have hkept : ∀ l : Symbol, ((s.setRange .omega 0 (evaluator s.params lam syn)).setRange .mag 0 mags).elem .code l.toNat =
      s.elem .code l.toNat := fun l => elem_code_setRange_omega_mag hv lam syn mags hlen' l.isLt
  obtain ⟨u, hu⟩ := applyMagnitudes_isOk fst_lt_of_mem_zip
    (s := (s.setRange .omega 0 (evaluator s.params lam syn)).setRange .mag 0 mags) (xs := (locs.map BitVec.toNat).zip mags)
    fun x hx => by
      obtain ⟨l, hl, he⟩ := List.mem_map.1 (hfst ▸ List.mem_map_of_mem hx)
      rw [← he, hkept]
      exact hcode l hl
  obtain ⟨hframe, helem⟩ := applyMagnitudes_frame hu fst_lt_of_mem_zip
  rw [hfst] at helem
  refine ⟨u.setResult (countWord mags), mags, ?_, hmags, hlen, fun i hi => ?_, fun k hk => ?_, fun k hk x hx => ?_,
    toNat_countWord (by omega), ?_, fun b k hk hne => ?_⟩
  · simp [exec, execForney, forneyStage_of_applyMagnitudes hsyn hlam hlocs hmags hu]
  · rw [elem_setResult, helem _ _ (by omega) (by simp)]
    exact elem_omega_setRange_omega_mag hv hlen' hi
  · rw [elem_setResult, helem _ _ (by omega) (by simp)]
    exact elem_mag_setRange_omega_mag hlen' _ (by omega)
  · have hmem : ((locs.getD k 0).toNat, mags.getD k 0) ∈ (locs.map BitVec.toNat).zip mags := by
      have hk' : k < ((locs.map BitVec.toNat).zip mags).length := by simp [hlen, hk]
      have := List.getElem_mem hk'
      rwa [List.getElem_zip, List.getElem_map, ← List.getD_eq_getElem locs 0, ← List.getD_eq_getElem mags 0] at this
    rw [elem_setResult]
    exact elem_of_applyMagnitudes fst_lt_of_mem_zip (by rw [hfst]; exact hnd.map BitVec.toNat_injective) hu hmem
      (by rwa [hkept])
  · exact congrArg (State.setResult · s.result) (frame_of_applyMagnitudes hu fst_lt_of_mem_zip)
  · rw [elem_setResult, helem b k hk fun ⟨hb, hk⟩ => hne (.inr (.inr ⟨hb, by simpa using hk⟩))]
    exact elem_setRange_omega_mag_other hv hlen' hk (fun e => hne (.inl e)) fun e => hne (.inr (.inl ⟨e.1, hlen ▸ e.2⟩))

/-- Settles O42: the magnitudes are computed before anything is written. -/
theorem forneyFaultsOnAVanishingDerivative : Obligations.ForneyFaultsOnAVanishingDerivative := by
  intro s syn lam locs hf hsyn hlam hlocs ⟨l, hl, hzero⟩
  have hraise := magnitudes_raise (om := evaluator s.params lam syn) ⟨l.toNat, List.mem_map_of_mem hl, hzero⟩
  exact complete_raise_of_not_faulted (forneyStage_of_magnitudes_error hsyn hlam hlocs hraise) hf .forney

end Sys2Proof.Machine
end

section
/-! PROOFS. Taking a fault (60_exceptions.md R261, R262). A command other than DECODE that faults does so before it has written
anything. -/

namespace Sys2Proof.Machine

variable {s t : State}

/-- Settles O49: the status word of each cause. -/
theorem faultEntryWritesTheLatchOnce : Obligations.FaultEntryWritesTheLatchOnce := by
  intro s w
  refine ⟨fun hf c => raiseFault_of_faulted hf, fun hf e he => ?_⟩
  have hstatus : ∀ e ∈ [(Cause.illegal, 0x11#32), (.range, 0x21#32), (.divZero, 0x31#32), (.sentinel, 0x41#32), (.ecnt, 0x51#32),
      (.bus, 0x61#32)], faultStatus e.1 = e.2 := by decide
  rw [raiseFault_of_not_faulted hf, hstatus e he]

theorem eseedStage_status (h : eseedStage s = .ok t) : t.status = s.status := by
  obtain ⟨-, es, -, rfl⟩ := eseedStage_eq_ok h
  exact s.setRange_status _ _ _

theorem bmStage_status (h : bmStage s = .ok t) : t.status = s.status := by
  obtain ⟨-, lam, syn, -, -, rfl⟩ := bmStage_eq_ok h
  exact s.setRange_status _ _ _

theorem rootsStage_status (h : rootsStage s = .ok t) : t.status = s.status := by
  obtain ⟨lam, -, rfl⟩ := rootsStage_eq_ok h
  exact s.setRange_status _ _ _

theorem forneyStage_status (h : forneyStage s = .ok t) : t.status = s.status := by
  obtain ⟨syn, lam, locs, mags, u, -, -, -, -, hu, rfl⟩ := forneyStage_eq_ok h
  have hstatus := congrArg State.status (frame_of_applyMagnitudes hu fst_lt_of_mem_zip)
  exact hstatus

/-- A command that ends with what its stage wrote keeps STATUS if the stage does. -/
theorem complete_status {i : Instr} {r : Run State} (hr : r = .ok t → t.status = s.status) (h : complete i s r = .next t) :
    t.status = s.status ∨ ∃ c, t = raiseFault (encode i) c s :=
  (complete_eq_next h).imp hr fun ⟨c, _, ht⟩ => ⟨c, ht⟩

/-- Every command but DECODE keeps STATUS or takes a fault over the state it started from. -/
theorem exec_status_or_fault {i : Instr} (hi : i ≠ .decode) (h : exec i s = .next t) :
    t.status = s.status ∨ ∃ c, t = raiseFault (encode i) c s := by
  have hv : ∀ d, valueDest i = some d → t.status = s.status ∨ ∃ c, t = raiseFault (encode i) c s := fun d hd =>
    (exec_of_valueDest hd h).imp (fun ⟨_, _, ht⟩ => ht ▸ rfl) fun ⟨c, _, ht⟩ => ⟨c, ht⟩
  have hx : ∀ d, indexDest i = some d → t.status = s.status ∨ ∃ c, t = raiseFault (encode i) c s := fun d hd =>
    (exec_of_indexDest hd h).imp (fun ⟨_, _, ht⟩ => ht ▸ rfl) fun ⟨c, _, ht⟩ => ⟨c, ht⟩
  cases i with
  | nop => cases h; exact .inl rfl
  | stv r sp idx => exact (exec_stv h).imp (fun ⟨_, _, _, _, _, _, ht⟩ => ht ▸ rfl) fun ⟨c, _, ht⟩ => ⟨c, ht⟩
  | stx r sp idx => exact (exec_stx h).imp (fun ⟨_, _, _, _, _, _, ht⟩ => ht ▸ rfl) fun ⟨c, _, ht⟩ => ⟨c, ht⟩
  | ldiv | ldv | exp | fadd | vmul | vdiv | vrcp | fmavv | fmaiv | fmaii | asim => exact hv _ rfl
  | ldii | ldx | log | imul | idiv => exact hx _ rfl
  | encode =>
    obtain ⟨msg, -, rfl⟩ := execEncode_eq_next h
    exact .inl (s.setRange_status _ _ _)
  | synd =>
    obtain ⟨syn, -, rfl⟩ := execSynd_eq_next h
    exact .inl (s.setRange_status _ _ _)
  | eseed => exact complete_status eseedStage_status h
  | bm => exact complete_status bmStage_status h
  | roots => exact complete_status rootsStage_status h
  | forney => exact complete_status forneyStage_status h
  | decode => exact absurd rfl hi

theorem faulted_congr (h : t.status = s.status) : t.faulted = s.faulted := congrArg faultBit h

end Sys2Proof.Machine
end

section
/-! PROOFS. Everything DECODE can do (48_decode.md R250): its exits, each with the stages that ran before it. -/

namespace Sys2Proof.Machine

variable {s t : State}

/-- ESEED, BM and ROOTS run one after the other, from `s` to `t`. -/
def Locates (s t : State) : Prop :=
  ∃ s1 s2, eseedStage s = .ok s1 ∧ bmStage s1 = .ok s2 ∧ rootsStage s2 = .ok t

/-- The root count test of R250: the −1 exit. -/
def State.LocatorFailed (s : State) : Prop := s.deg.toNat = 0 ∨ s.nroots.toNat < s.deg.toNat

/-- What DECODE can do. -/
inductive DecodeExit (s : State) : State → Prop
  | ecnt (h : s.params.nr < s.ecnt.toNat) : DecodeExit s (raiseFault (encode .decode) .ecnt s)
  | clean {syn} (hsyn : readSyndromes s = .ok syn) : DecodeExit s ((s.setRange .syn 0 syn).setResult 0)
  | sentinel {syn} (hsyn : readSyndromes s = .ok syn) :
    DecodeExit s (raiseFault (encode .decode) .sentinel (s.setRange .syn 0 syn))
  | failed {syn u} (hsyn : readSyndromes s = .ok syn) (hu : Locates (s.setRange .syn 0 syn) u) :
    DecodeExit s (u.setResult 0xFFFFFFFF#32)
  | corrected {syn u t} (hsyn : readSyndromes s = .ok syn) (hu : Locates (s.setRange .syn 0 syn) u)
    (hdeg : ¬u.LocatorFailed) (ht : forneyStage u = .ok t) : DecodeExit s t
  | divZero {syn u} (hsyn : readSyndromes s = .ok syn) (hu : Locates (s.setRange .syn 0 syn) u) :
    DecodeExit s (raiseFault (encode .decode) .divZero u)

theorem readRange_meets (causes : List Cause) (s : State) (sp : Space) (k count : Nat) :
    Meets causes (fun _ => True) (readRange s sp k count) := by
  cases hread : readRange s sp k count with
  | ok xs => exact trivial
  | error e =>
    obtain ⟨i, -, -, rfl⟩ := readRange_eq_error hread
    exact trivial

theorem readSynForBm_meets (causes : List Cause) (s : State) (e : Nat) : Meets causes (fun _ => True) (readSynForBm s e) := by
  unfold readSynForBm
  split
  · exact readRange_meets causes s _ _ _
  · exact trivial

/-- Once ECNT is at most NR, ESEED can raise E_SENTINEL alone (45_eseed_bm.md R201). -/
theorem eseedStage_meets (he : s.ecnt.toNat ≤ s.params.nr) : Meets [.sentinel] (fun _ => True) (eseedStage s) := by
  rw [eseedStage, if_neg (Nat.not_lt.2 he)]
  refine Meets.bind (mid := fun _ => True) ?_ fun _ _ => trivial
  match hread : readErasures s 0 s.ecnt.toNat with
  | .ok es => exact trivial
  | .error (.raise c) => exact List.mem_singleton.2 (readErasures_eq_raise hread)
  | .error (.refuse r) => exact trivial

/-- Once ECNT is at most NR, BM raises nothing (45_eseed_bm.md R205). -/
theorem bmStage_meets (he : s.ecnt.toNat ≤ s.params.nr) : Meets [] (fun _ => True) (bmStage s) := by
  rw [bmStage, if_neg (Nat.not_lt.2 he)]
  exact (readRange_meets _ s _ _ _).bind fun lam _ => (readSynForBm_meets _ s _).bind fun syn _ => trivial

theorem rootsStage_meets (s : State) : Meets [] (fun _ => True) (rootsStage s) :=
  (readRange_meets _ s _ _ _).bind fun _ _ => trivial

theorem magnitudes_meets (p : Params) (om lam : List Value) (ls : List Nat) :
    Meets [.divZero] (fun _ => True) (magnitudes p om lam ls) := by
  by_cases h : ∃ l ∈ ls, derivativeAt p lam (rootOfPosition p l) = 0
  · rw [magnitudes_raise h]
    exact List.mem_singleton.2 rfl
  · obtain ⟨ms, hms, -⟩ := magnitudes_isOk (om := om) fun l hl hz => h ⟨l, hl, hz⟩
    rw [hms]
    exact trivial

theorem applyMagnitudes_meets (causes : List Cause) (s : State) (xs : List (Nat × Value)) :
    Meets causes (fun _ => True) (applyMagnitudes s xs) := by
  induction xs generalizing s with
  | nil => exact trivial
  | cons x xs ih => exact (readElem_meets causes s .code x.1).bind fun c _ => ih _

/-- FORNEY can raise E_DIVZERO alone (47_forney.md R241). -/
theorem forneyStage_meets (s : State) : Meets [.divZero] (fun _ => True) (forneyStage s) :=
  (readRange_meets _ s _ _ _).bind fun _ _ => (readRange_meets _ s _ _ _).bind fun _ _ =>
    (readRange_meets _ s _ _ _).bind fun _ _ => (magnitudes_meets _ _ _ _).bind fun _ _ =>
      (applyMagnitudes_meets _ _ _).bind fun _ _ => trivial

/-- A stage of DECODE goes on, or one of its faults is latched. -/
theorem decodeStage_of_meets {causes : List Cause} {stage : State → Run State} {rest : State → Host.Outcome State Fault Refusal}
    (hm : Meets causes (fun _ => True) (stage s)) (h : decodeStage stage s rest = .next t) :
    (∃ u, stage s = .ok u ∧ rest u = .next t) ∨ ∃ c ∈ causes, t = raiseFault (encode .decode) c s := by
  refine (decodeStage_eq_next h).imp id fun ⟨c, hc, ht⟩ => ⟨c, ?_, ht⟩
  rw [hc] at hm
  exact hm

theorem eseedStage_ecnt (h : eseedStage s = .ok t) : t.ecnt.toNat ≤ t.params.nr := by
  obtain ⟨he, es, -, rfl⟩ := eseedStage_eq_ok h
  simpa using he

theorem decodeExit_of_decodeNonzero {syn : List Value} (he : s.ecnt.toNat ≤ s.params.nr) (hsyn : readSyndromes s = .ok syn)
    (h : decodeNonzero (s.setRange .syn 0 syn) = .next t) : DecodeExit s t := by
  rcases decodeStage_of_meets (eseedStage_meets (by simpa using he)) h with ⟨s1, h1, h⟩ | ⟨c, hc, rfl⟩
  · rcases decodeStage_of_meets (bmStage_meets (eseedStage_ecnt h1)) h with ⟨s2, h2, h⟩ | ⟨c, hc, -⟩
    · rcases decodeStage_of_meets (rootsStage_meets s2) h with ⟨s3, h3, h⟩ | ⟨c, hc, -⟩
      · have hu : Locates (s.setRange .syn 0 syn) s3 := ⟨s1, s2, h1, h2, h3⟩
        split at h
        · cases h
          exact .failed hsyn hu
        · rename_i hdeg
          rcases decodeStage_of_meets (forneyStage_meets s3) h with ⟨s4, h4, h⟩ | ⟨c, hc, rfl⟩
          · cases h
            exact .corrected hsyn hu hdeg h4
          · obtain rfl := List.mem_singleton.1 hc
            exact .divZero hsyn hu
      · cases hc
    · cases hc
  · obtain rfl := List.mem_singleton.1 hc
    exact .sentinel hsyn

theorem execDecode_exit (h : execDecode s = .next t) : DecodeExit s t := by
  unfold execDecode at h
  split at h
  · rename_i he
    cases h
    exact .ecnt he
  · rename_i he
    split at h
    · rename_i e hread
      have hm : Meets [] (fun _ => True) (readSyndromes s) := (readRange_meets _ s _ _ _).bind fun _ _ => trivial
      rw [hread] at hm
      match e, hm, h with
      | .refuse r, _, h => cases h
      | .raise c, hm, _ => cases hm
    · rename_i syn hsyn
      split at h
      · cases h
        exact .clean hsyn
      · exact decodeExit_of_decodeNonzero (Nat.not_lt.1 he) hsyn h

/-- ESEED, BM and ROOTS keep STATUS. -/
theorem Locates.status (h : Locates s t) : t.status = s.status := by
  obtain ⟨s1, s2, h1, h2, h3⟩ := h
  rw [rootsStage_status h3, bmStage_status h2, eseedStage_status h1]

theorem Locates.codecFrame (h : Locates s t) : CodecFrame s t := by
  obtain ⟨s1, s2, h1, h2, h3⟩ := h
  exact (CodecFrame.eseedStage h1).trans ((CodecFrame.bmStage h2).trans (CodecFrame.rootsStage h3))

section

variable {b : Space} {k : Nat} (hv : s.params.valid = true) (hk : k < 65536)
include hv hk

theorem eseedStage_elem_other (h : eseedStage s = .ok t) (hb : b ≠ .lambda) : t.elem b k = s.elem b k := by
  have hbounds := Params.bounds hv
  obtain ⟨-, es, -, rfl⟩ := eseedStage_eq_ok h
  exact elem_setRange_zero_other s (by rw [length_seedLocator]; omega) hk fun e => hb e.1

theorem bmStage_elem_other (h : bmStage s = .ok t) (hb : b ≠ .lambda) : t.elem b k = s.elem b k := by
  have hbounds := Params.bounds hv
  obtain ⟨he, lam, syn, hlam, -, rfl⟩ := bmStage_eq_ok h
  have hlen := (bmShape_berlekampMassey (syn := syn) he (length_of_readRange hlam)).lamLength
  rw [elem_lreg]
  exact elem_setRange_zero_other s (by omega) hk fun e => hb e.1

theorem rootsStage_elem_other (h : rootsStage s = .ok t) (hb : b ≠ .loc) : t.elem b k = s.elem b k := by
  have hbounds := Params.bounds hv
  obtain ⟨lam, -, rfl⟩ := rootsStage_eq_ok h
  have hlen := length_findRoots_le_n hv lam (trimmedDegree lam s.params.nr)
  rw [elem_deg_nroots]
  exact elem_setRange_zero_other s (by rw [List.length_map]; omega) hk fun e => hb e.1

/-- ESEED, BM and ROOTS write LAMBDA and LOC alone. -/
theorem Locates.elem_other (h : Locates s t) (hlambda : b ≠ .lambda) (hloc : b ≠ .loc) : t.elem b k = s.elem b k := by
  obtain ⟨s1, s2, h1, h2, h3⟩ := h
  have hv1 : s1.params.valid = true := (CodecFrame.eseedStage h1).params ▸ hv
  have hv2 : s2.params.valid = true := (CodecFrame.bmStage h2).params ▸ hv1
  rw [rootsStage_elem_other hv2 hk h3 hloc, bmStage_elem_other hv1 hk h2 hlambda, eseedStage_elem_other hv hk h1 hlambda]

end

/-- The fault codes of DECODE tell which exit it took. -/
theorem faulted_decodeExit (hf : s.faulted = false) (h : DecodeExit s t) (ht : t.faulted = true) :
    t = raiseFault (encode .decode) .ecnt s ∨
    (∃ syn, syn.length = s.params.nr ∧ t = raiseFault (encode .decode) .sentinel (s.setRange .syn 0 syn)) ∨
    ∃ u : State, u.faulted = false ∧ t = raiseFault (encode .decode) .divZero u := by
  have hsynStatus := fun syn : List Value => s.setRange_status .syn 0 syn
  have hkept : t.status ≠ s.status := fun e => by
    rw [faulted_congr e, hf] at ht
    cases ht
  cases h with
  | ecnt he => exact .inl rfl
  | clean hsyn => exact absurd (hsynStatus _) hkept
  | sentinel hsyn => exact .inr (.inl ⟨_, length_of_readSyndromes hsyn, rfl⟩)
  | failed hsyn hu => exact absurd (hu.status.trans (hsynStatus _)) hkept
  | corrected hsyn hu hdeg h4 => exact absurd ((forneyStage_status h4).trans (hu.status.trans (hsynStatus _))) hkept
  | divZero hsyn hu => exact .inr (.inr ⟨_, (faulted_congr (hu.status.trans (hsynStatus _))).trans hf, rfl⟩)

/-- Settles O50: every command but DECODE faults over the state it started from; of DECODE's faults E_ECNT comes first, and
E_SENTINEL after SYN has been written. -/
theorem faultingCommandChangesOnlyTheLatch : Obligations.FaultingCommandChangesOnlyTheLatch := by
  intro i s t hv hf h ht
  by_cases hi : i = .decode
  · subst hi
    rcases faulted_decodeExit hf (execDecode_exit h) ht with rfl | ⟨syn, hsyn, rfl⟩ | ⟨u, hu, rfl⟩
    · simp [hf, ecodeField_faultStatus, causeCode]
    · have hbounds := Params.bounds hv
      have hf' : (s.setRange .syn 0 syn).faulted = false := (faulted_setRange s _ _ _).trans hf
      rw [raiseFault_of_not_faulted hf']
      refine ⟨rfl, fun hne => absurd rfl hne, fun _ hcode => ?_, fun _ _ => ⟨?_, fun b k hk hne => ?_⟩⟩
      · exact absurd ((ecodeField_faultStatus .sentinel).symm.trans hcode) (by decide)
      · exact congrArg (fun u : State => { u with status := s.status, finfo := s.finfo }) (setRange_frame s .syn 0 syn)
      · exact elem_setRange_zero_other s (by omega) hk (by rwa [hsyn])
    · rw [raiseFault_of_not_faulted hu]
      have hcode : ecodeField (faultStatus .divZero) = 3 := ecodeField_faultStatus .divZero
      simp [hcode]
  · rcases exec_status_or_fault hi h with hkept | ⟨c, rfl⟩
    · rw [faulted_congr hkept, hf] at ht
      cases ht
    · rw [raiseFault_of_not_faulted hf]
      exact ⟨rfl, fun _ => rfl, fun e => absurd e hi, fun e => absurd e hi⟩

end Sys2Proof.Machine
end

section
/-! PROOFS. DECODE of a clean word, DECODE that fails, and DECODE against the stage commands (48_decode.md R250, R251). -/

namespace Sys2Proof.Machine

variable {s t u : State}

theorem countNonzero_eq_zero_iff {xs : List Value} : countNonzero xs = 0 ↔ ∀ x ∈ xs, x = 0 := by
  simp [countNonzero]

theorem exec_decode_of_clean {syn : List Value} (he : s.ecnt.toNat ≤ s.params.nr) (hsyn : readSyndromes s = .ok syn)
    (hzero : ∀ x ∈ syn, x = 0) : exec .decode s = .next ((s.setRange .syn 0 syn).setResult 0) := by
  simp [exec, execDecode, Nat.not_lt.2 he, hsyn, countNonzero_eq_zero_iff.2 hzero]

/-- Settles O43: DECODE ends behind SYND. -/
theorem decodeOfACleanWordWritesOnlySynAndResult : Obligations.DecodeOfACleanWordWritesOnlySynAndResult := by
  intro s code hv he hcode hzero
  have hbounds := Params.bounds hv
  have hlen : (syndromes s.params code).length = s.params.nr := syndromes_length _ _
  refine ⟨_, exec_decode_of_clean he (readSyndromes_eq_ok.2 ⟨code, hcode, rfl⟩) hzero, rfl, fun i hi => ?_,
    congrArg (State.setResult · s.result) (setRange_frame s .syn 0 _), fun b k hk hne => ?_⟩
  · have hi' : i < (syndromes s.params code).length := by omega
    rw [elem_setResult, elem_setRange_zero_same s (by decide) (by omega) hi', List.getD_eq_getElem _ _ hi',
      hzero _ (List.getElem_mem hi')]
  · rw [elem_setResult]
    exact elem_setRange_zero_other s (by omega) hk (by rwa [hlen])

/-! ### The −1 exits -/

/-- FORNEY counts at most NROOTS magnitudes, so RESULT is not −1. -/
theorem forneyStage_result_le (h : forneyStage s = .ok t) : t.result.toNat ≤ s.nroots.toNat := by
  obtain ⟨syn, lam, locs, mags, u, -, -, hlocs, hmags, -, rfl⟩ := forneyStage_eq_ok h
  have hlen := length_magnitudes hmags
  rw [List.length_map, length_of_readRange hlocs] at hlen
  exact hlen ▸ toNat_countWord_le mags

theorem forneyStage_result_ne (h : forneyStage s = .ok t) : t.result ≠ 0xFFFFFFFF#32 := fun e => by
  have hle := forneyStage_result_le h
  have hlt := s.nroots.isLt
  rw [e, BitVec.toNat_ofNat] at hle
  omega

/-- The spaces that ESEED, BM and ROOTS, and SYND before them, leave. -/
theorem elem_of_locates {syn : List Value} (hv : s.params.valid = true) (hsyn : readSyndromes s = .ok syn)
    (hu : Locates (s.setRange .syn 0 syn) u) {b : Space} {k : Nat} (hk : k < 65536) (hb : b ∉ [Space.syn, .lambda, .loc]) :
    u.elem b k = s.elem b k := by
  have hbounds := Params.bounds hv
  have hlen := length_of_readSyndromes hsyn
  simp only [List.mem_cons, List.not_mem_nil, or_false, not_or] at hb
  obtain ⟨hsyn', hlambda, hloc⟩ := hb
  rw [hu.elem_other ((s.setRange_params .syn 0 syn).symm ▸ hv) hk hlambda hloc,
    elem_setRange_zero_other s (by omega) hk fun e => hsyn' e.1]

/-- Settles O46: only FORNEY writes CODE, OMEGA and MAG, and it leaves a count in RESULT. -/
theorem failedDecodeLeavesTheWord : Obligations.FailedDecodeLeavesTheWord := by
  intro s t hs h hresult k hk
  have hv := hs.paramsLegal
  have hbounds := Params.bounds hv
  suffices hkept : ∀ b ∉ [Space.syn, .lambda, .loc], t.elem b k = s.elem b k from
    ⟨hkept .code (by decide), hkept .omega (by decide), hkept .mag (by decide)⟩
  intro b hb
  have hsynKept : ∀ {syn : List Value}, readSyndromes s = .ok syn → (s.setRange .syn 0 syn).elem b k = s.elem b k :=
    fun hsyn => elem_setRange_zero_other s (by rw [length_of_readSyndromes hsyn]; omega) hk fun e => hb (by simp [e.1])
  cases execDecode_exit h with
  | ecnt he => exact elem_raiseFault _ _ _ _ _
  | clean hsyn => exact (elem_setResult _ _ _ _).trans (hsynKept hsyn)
  | sentinel hsyn => exact (elem_raiseFault _ _ _ _ _).trans (hsynKept hsyn)
  | failed hsyn hu => exact (elem_setResult _ _ _ _).trans (elem_of_locates hv hsyn hu hk hb)
  | corrected hsyn hu hdeg h4 => exact absurd hresult (forneyStage_result_ne h4)
  | divZero hsyn hu => exact (elem_raiseFault _ _ _ _ _).trans (elem_of_locates hv hsyn hu hk hb)

/-! ### The stage commands -/

theorem eseedStage_of_readErasures {es : List Nat} (he : s.ecnt.toNat ≤ s.params.nr)
    (hes : readErasures s 0 s.ecnt.toNat = .ok es) : eseedStage s = .ok (s.setRange .lambda 0 (seedLocator s.params es)) := by
  rw [eseedStage, if_neg (Nat.not_lt.2 he), hes, run_bind_ok]

theorem bmStage_of_read {lam syn : List Value} (he : s.ecnt.toNat ≤ s.params.nr)
    (hlam : readRange s .lambda 0 (s.params.nr + 1) = .ok lam) (hsyn : readSynForBm s s.ecnt.toNat = .ok syn) :
    bmStage s = .ok { s.setRange .lambda 0 (berlekampMassey s.params syn lam s.ecnt.toNat).lam with
      lreg := BitVec.ofNat 16 (berlekampMassey s.params syn lam s.ecnt.toNat).len } := by
  rw [bmStage, if_neg (Nat.not_lt.2 he), hlam, run_bind_ok, hsyn, run_bind_ok]

theorem rootsStage_of_readRange {lam : List Value} (hlam : readRange s .lambda 0 (s.params.nr + 1) = .ok lam) :
    rootsStage s = .ok { s.setRange .loc 0 ((findRoots s.params lam (trimmedDegree lam s.params.nr)).map toIndex) with
      deg := BitVec.ofNat 16 (trimmedDegree lam s.params.nr),
      nroots := BitVec.ofNat 16 (findRoots s.params lam (trimmedDegree lam s.params.nr)).length } := by
  rw [rootsStage, hlam, run_bind_ok]

section

variable (w : Word)

theorem setRange_setResult (s : State) (sp : Space) (k : Nat) (xs : List Symbol) :
    (s.setResult w).setRange sp k xs = (s.setRange sp k xs).setResult w := by
  induction xs generalizing s k with
  | nil => rfl
  | cons x xs ih => exact ih (s.setElem sp k x) (k + 1)

theorem readRange_setResult (s : State) (sp : Space) (k count : Nat) :
    readRange (s.setResult w) sp k count = readRange s sp k count := by
  induction count generalizing k with
  | zero => rfl
  | succ count ih => rw [readRange, readRange, ih, readElem, readElem, elem_setResult]

theorem readErasures_setResult (s : State) (k count : Nat) :
    readErasures (s.setResult w) k count = readErasures s k count :=
  readErasures_congr rfl fun _ _ => elem_setResult s w .eras _

/-- RESULT is not read by ESEED, BM and ROOTS, and stays. -/
theorem eseedStage_of_setResult (h : eseedStage (s.setResult w) = .ok t) : ∃ u, eseedStage s = .ok u ∧ t = u.setResult w := by
  obtain ⟨he, es, hes, rfl⟩ := eseedStage_eq_ok h
  have hread : readErasures s 0 s.ecnt.toNat = .ok es := (readErasures_setResult w s _ _).symm.trans hes
  exact ⟨_, eseedStage_of_readErasures he hread, setRange_setResult w _ _ _ _⟩

theorem bmStage_of_setResult (h : bmStage (s.setResult w) = .ok t) : ∃ u, bmStage s = .ok u ∧ t = u.setResult w := by
  obtain ⟨he, lam, syn, hlam, hsyn, rfl⟩ := bmStage_eq_ok h
  have hlam' : readRange s .lambda 0 (s.params.nr + 1) = .ok lam := (readRange_setResult w s _ _ _).symm.trans hlam
  have hsyn' : readSynForBm s s.ecnt.toNat = .ok syn := by
    rw [readSynForBm, readRange_setResult] at hsyn
    exact hsyn
  refine ⟨_, bmStage_of_read he hlam' hsyn', ?_⟩
  rw [setRange_setResult]
  rfl

theorem rootsStage_of_setResult (h : rootsStage (s.setResult w) = .ok t) : ∃ u, rootsStage s = .ok u ∧ t = u.setResult w := by
  obtain ⟨lam, hlam, rfl⟩ := rootsStage_eq_ok h
  have hlam' : readRange s .lambda 0 (s.params.nr + 1) = .ok lam := (readRange_setResult w s _ _ _).symm.trans hlam
  refine ⟨_, rootsStage_of_readRange hlam', ?_⟩
  rw [setRange_setResult]
  rfl

theorem applyMagnitudes_of_setResult {xs : List (Nat × Value)} (h : applyMagnitudes (s.setResult w) xs = .ok t) :
    ∃ u, applyMagnitudes s xs = .ok u ∧ t = u.setResult w := by
  induction xs generalizing s with
  | nil => cases h; exact ⟨s, rfl, rfl⟩
  | cons x xs ih =>
    obtain ⟨c, hc, h⟩ := run_bind_eq_ok.1 h
    obtain ⟨u, hu, rfl⟩ := ih (s := s.setElem .code x.1 (add c x.2)) h
    have hc' : readElem s .code x.1 = .ok c := hc
    exact ⟨u, by rw [applyMagnitudes, hc', run_bind_ok, hu], rfl⟩

/-- FORNEY overwrites RESULT. -/
theorem forneyStage_of_setResult (h : forneyStage (s.setResult w) = .ok t) : forneyStage s = .ok t := by
  obtain ⟨syn, lam, locs, mags, u, hsyn, hlam, hlocs, hmags, hu, rfl⟩ := forneyStage_eq_ok h
  rw [readRange_setResult] at hsyn hlam hlocs
  rw [setRange_setResult, setRange_setResult] at hu
  obtain ⟨v, hv, rfl⟩ := applyMagnitudes_of_setResult w hu
  change forneyStage s = .ok (v.setResult (countWord mags))
  exact forneyStage_of_applyMagnitudes hsyn hlam hlocs hmags hv

/-- ESEED, BM and ROOTS run after SYND leave what they leave in DECODE, but for RESULT. -/
theorem locates_of_setResult {s2 s3 s4 : State} (h2 : eseedStage (s.setResult w) = .ok s2) (h3 : bmStage s2 = .ok s3)
    (h4 : rootsStage s3 = .ok s4) : ∃ u, Locates s u ∧ s4 = u.setResult w := by
  obtain ⟨u2, hu2, rfl⟩ := eseedStage_of_setResult w h2
  obtain ⟨u3, hu3, rfl⟩ := bmStage_of_setResult w h3
  obtain ⟨u4, hu4, rfl⟩ := rootsStage_of_setResult w h4
  exact ⟨u4, ⟨u2, u3, hu2, hu3, hu4⟩, rfl⟩

end

/-- The ends of DECODE, once LAMBDA and LOC are written. -/
theorem decodeNonzero_of_failed (h : Locates s u) (hfail : u.LocatorFailed) :
    decodeNonzero s = .next (u.setResult 0xFFFFFFFF#32) := by
  obtain ⟨s1, s2, h1, h2, h3⟩ := h
  simp only [decodeNonzero, decodeStage, h1, h2, h3]
  exact if_pos hfail

theorem decodeNonzero_of_forney (h : Locates s u) (hdeg : ¬u.LocatorFailed) (ht : forneyStage u = .ok t) :
    decodeNonzero s = .next t := by
  obtain ⟨s1, s2, h1, h2, h3⟩ := h
  simp only [decodeNonzero, decodeStage, h1, h2, h3, ht]
  exact if_neg hdeg

theorem ok_of_complete {i : Instr} {r : Run State} (h : complete i s r = .next t) (ht : t.faulted = false) : r = .ok t := by
  rcases complete_eq_next h with h | ⟨c, -, rfl⟩
  · exact h
  · rw [raiseFault_faulted] at ht
    cases ht

/-- With ECNT at most NR, BM ends without a fault. -/
theorem bmStage_of_execBm (he : s.ecnt.toNat ≤ s.params.nr) (h : execBm s = .next t) : bmStage s = .ok t := by
  rcases complete_eq_next h with h | ⟨c, hraise, -⟩
  · exact h
  · have hm := bmStage_meets he
    rw [hraise] at hm
    cases hm

/-- Settles O44: the stages of DECODE are those of the commands, which neither read RESULT nor, but for FORNEY, write it. -/
theorem decodeEqualsTheStagedCommands : Obligations.DecodeEqualsTheStagedCommands := by
  intro s s1 s2 s3 s4 s5 hs hf he h1
  have hbounds := Params.bounds hs.paramsLegal
  obtain ⟨syn, hsyn, rfl⟩ := execSynd_eq_next h1
  have hcount : (countWord syn).toNat = countNonzero syn := toNat_countWord (by rw [length_of_readSyndromes hsyn]; omega)
  have hresult : countWord syn = 0 ↔ ∀ x ∈ syn, x = 0 := by
    rw [← countNonzero_eq_zero_iff, ← hcount]
    exact BitVec.toNat_inj.symm
  refine ⟨fun hzero => ?_, fun hne h2 hf2 h3 h4 => ?_⟩
  · have hzero : countWord syn = 0 := hzero
    rw [hzero]
    exact exec_decode_of_clean he hsyn (hresult.1 hzero)
  · have hne : ∃ x ∈ syn, x ≠ 0 := by simpa using fun e => hne (hresult.2 e)
    have hstage2 := ok_of_complete h2 hf2
    obtain ⟨u, hu, rfl⟩ := locates_of_setResult (countWord syn) hstage2 (bmStage_of_execBm (eseedStage_ecnt hstage2) h3)
      (execRoots_eq_next h4)
    rw [exec_decode_of_ne_zero he hsyn hne]
    have hdeg : u.deg = 0 ↔ u.deg.toNat = 0 := BitVec.toNat_inj.symm
    refine ⟨fun hfail => ?_, fun hdeg0 hle h5 hf5 => ?_⟩
    · have hend := decodeNonzero_of_failed hu (hfail.imp hdeg.1 id)
      exact ⟨hend, rfl⟩
    · exact decodeNonzero_of_forney hu (not_or.2 ⟨fun e => hdeg0 (hdeg.2 e), Nat.not_lt.2 hle⟩)
        (forneyStage_of_setResult (countWord syn) (ok_of_complete h5 hf5))

end Sys2Proof.Machine
end

section
/-! PROOFS. The algebra of errors-and-erasures decoding over any field (45_eseed_bm.md R202, R206, 47_forney.md R240): the key
equation Λ · S ≡ Ω mod x^N, and Forney's quotient. `x` gives the locator value of a position, `y` its value y_j in the syndromes. -/

namespace Sys2Proof.KeyEquation

open Polynomial

variable {F : Type} [Field F] (x y : Nat → F) (P : Finset Nat)

/-- The locator polynomial ∏ (1 − X_j · x) of a set of positions. -/
noncomputable def locator : F[X] := ∏ j ∈ P, (1 - C (x j) * X)

/-- The syndrome polynomial Σ_{i < N} (Σ_j y_j · X_j^i) · x^i. -/
noncomputable def syndrome (N : Nat) : F[X] := ∑ j ∈ P, C (y j) * ∑ i ∈ Finset.range N, (C (x j) * X) ^ i

/-- The evaluator polynomial Σ_j y_j · ∏_{l ≠ j} (1 − X_l · x). -/
noncomputable def evaluatorPoly : F[X] := ∑ j ∈ P, C (y j) * locator x (P.erase j)

variable {x y P}

theorem locator_eq_mul_erase {j : Nat} (hj : j ∈ P) : locator x P = (1 - C (x j) * X) * locator x (P.erase j) :=
  (Finset.mul_prod_erase P _ hj).symm

theorem natDegree_one_sub_C_mul_X {a : F} (ha : a ≠ 0) : (1 - C a * X : F[X]).natDegree = 1 := by
  rw [natDegree_sub_eq_right_of_natDegree_lt] <;> simp [natDegree_C_mul_X _ ha]

theorem natDegree_locator (hx : ∀ j ∈ P, x j ≠ 0) : (locator x P).natDegree = P.card := by
  have hfactor : ∀ j ∈ P, (1 - C (x j) * X : F[X]).natDegree = 1 := fun j hj => natDegree_one_sub_C_mul_X (hx j hj)
  have hne : ∀ j ∈ P, (1 - C (x j) * X : F[X]) ≠ 0 := fun j hj e => by
    have := hfactor j hj
    rw [e] at this
    simp at this
  rw [locator, natDegree_prod _ _ hne, Finset.sum_congr rfl hfactor, Finset.sum_const, smul_eq_mul, mul_one]

theorem coeff_zero_locator : (locator x P).coeff 0 = 1 := by
  rw [coeff_zero_eq_eval_zero, locator, eval_prod]
  simp

theorem locator_ne_zero : locator x P ≠ 0 := fun e => by
  have hone := coeff_zero_locator (x := x) (P := P)
  rw [e, coeff_zero] at hone
  exact zero_ne_one hone

theorem locator_union {A B : Finset Nat} (h : Disjoint A B) : locator x (A ∪ B) = locator x A * locator x B :=
  Finset.prod_union h

theorem eval_locator (r : F) : (locator x P).eval r = ∏ j ∈ P, (1 - x j * r) := by simp [locator, eval_prod]

/-- The locator vanishes at X⁻¹ exactly for its positions' X. -/
theorem eval_inv_locator_eq_zero_iff {a : F} (ha : a ≠ 0) : (locator x P).eval a⁻¹ = 0 ↔ ∃ j ∈ P, x j = a := by
  rw [eval_locator, Finset.prod_eq_zero_iff]
  refine exists_congr fun j => and_congr_right fun _ => ?_
  rw [sub_eq_zero, eq_comm, mul_inv_eq_one₀ ha]

/-- The product of `1 - X_j x` with its geometric sum. -/
theorem one_sub_mul_geom (a : F) (N : Nat) :
    (1 - C a * X) * ∑ i ∈ Finset.range N, (C a * X) ^ i = 1 - C (a ^ N) * X ^ N := by
  rw [mul_neg_geom_sum, mul_pow, C_pow]

/-- The key equation (R240). -/
theorem key_equation (N : Nat) : X ^ N ∣ locator x P * syndrome x y P N - evaluatorPoly x y P := by
  rw [syndrome, evaluatorPoly, Finset.mul_sum, ← Finset.sum_sub_distrib]
  refine Finset.dvd_sum fun j hj => ⟨-(C (y j) * locator x (P.erase j) * C (x j ^ N)), ?_⟩
  rw [locator_eq_mul_erase hj]
  linear_combination C (y j) * locator x (P.erase j) * one_sub_mul_geom (x j) N

/-- A syndrome is the sum of the powers of its positions (R190). -/
theorem coeff_syndrome {N i : Nat} (hi : i < N) : (syndrome x y P N).coeff i = ∑ j ∈ P, y j * x j ^ i := by
  simp only [syndrome, finsetSum_coeff, coeff_C_mul, mul_pow, ← C_pow, coeff_X_pow]
  refine Finset.sum_congr rfl fun j _ => ?_
  rw [Finset.sum_eq_single_of_mem i (Finset.mem_range.2 hi) fun k _ hk => by rw [if_neg hk.symm, mul_zero], if_pos rfl, mul_one]

theorem coeff_syndrome_of_le {N i : Nat} (hi : N ≤ i) : (syndrome x y P N).coeff i = 0 := by
  simp only [syndrome, finsetSum_coeff, coeff_C_mul, mul_pow, ← C_pow, coeff_X_pow]
  refine Finset.sum_eq_zero fun j _ => mul_eq_zero_of_right _ (Finset.sum_eq_zero fun k hk => ?_)
  have := Finset.mem_range.1 hk
  rw [if_neg (by omega), mul_zero]

theorem degree_evaluatorPoly_lt (hx : ∀ j ∈ P, x j ≠ 0) (hP : P.Nonempty) : (evaluatorPoly x y P).natDegree < P.card := by
  have hpos := hP.card_pos
  refine (Nat.lt_of_le_pred hpos (natDegree_sum_le_of_forall_le _ _ fun j hj => ?_))
  refine (natDegree_C_mul_le _ _).trans ?_
  rw [natDegree_locator fun l hl => hx l (Finset.mem_of_mem_erase hl), Finset.card_erase_of_mem hj]
  exact le_rfl

/-- At the root of one of its positions only that position's term of Ω is left. -/
theorem eval_evaluatorPoly {j : Nat} (hj : j ∈ P) (hx : x j ≠ 0) :
    (evaluatorPoly x y P).eval (x j)⁻¹ = y j * (locator x (P.erase j)).eval (x j)⁻¹ := by
  rw [evaluatorPoly, eval_finsetSum, Finset.sum_eq_single_of_mem j hj fun l hl hne => ?_, eval_mul, eval_C]
  rw [eval_mul, (eval_inv_locator_eq_zero_iff hx).2 ⟨j, Finset.mem_erase.2 ⟨hne.symm, hj⟩, rfl⟩, mul_zero]

theorem eval_locator_erase_ne_zero (hinj : Set.InjOn x P) {j : Nat} (hj : j ∈ P) (hx : x j ≠ 0) :
    (locator x (P.erase j)).eval (x j)⁻¹ ≠ 0 := fun e => by
  obtain ⟨l, hl, he⟩ := (eval_inv_locator_eq_zero_iff hx).1 e
  obtain ⟨hne, hl⟩ := Finset.mem_erase.1 hl
  exact hne (hinj hl hj he)

/-- Λ′ at the root of one of Λ's positions. -/
theorem eval_derivative_locator {j : Nat} (hj : j ∈ P) (hx : x j ≠ 0) :
    (derivative (locator x P)).eval (x j)⁻¹ = -x j * (locator x (P.erase j)).eval (x j)⁻¹ := by
  rw [locator_eq_mul_erase hj]
  simp [derivative_mul, mul_inv_cancel₀ hx]

/-- Forney's quotient (R240): y_j from Ω, Λ′ and X_j. -/
theorem forney_quotient (hinj : Set.InjOn x P) {j : Nat} (hj : j ∈ P) (hx : x j ≠ 0) :
    (evaluatorPoly x y P).eval (x j)⁻¹ / (derivative (locator x P)).eval (x j)⁻¹ * x j = -y j := by
  have hne := eval_locator_erase_ne_zero hinj hj hx
  rw [eval_evaluatorPoly hj hx, eval_derivative_locator hj hx]
  generalize (locator x (P.erase j)).eval (x j)⁻¹ = v at hne ⊢
  field_simp

/-- With zero syndromes and no more than N positions every y_j is 0: fewer than NR + 1 errors are always seen (R253). -/
theorem eq_zero_of_syndrome_eq_zero (hinj : Set.InjOn x P) (hx : ∀ j ∈ P, x j ≠ 0) {N : Nat} (hN : P.card ≤ N)
    (h : syndrome x y P N = 0) {j : Nat} (hj : j ∈ P) : y j = 0 := by
  have hdvd : X ^ N ∣ evaluatorPoly x y P := by
    have := key_equation (x := x) (y := y) (P := P) N
    rwa [h, mul_zero, zero_sub, dvd_neg] at this
  have hzero : evaluatorPoly x y P = 0 := by
    refine eq_zero_of_dvd_of_natDegree_lt hdvd ?_
    rw [natDegree_X_pow]
    exact (degree_evaluatorPoly_lt hx ⟨j, hj⟩).trans_le hN
  have heval := eval_evaluatorPoly (y := y) hj (hx j hj)
  rw [hzero, eval_zero] at heval
  exact (mul_eq_zero.1 heval.symm).resolve_right (eval_locator_erase_ne_zero hinj hj (hx j hj))

end Sys2Proof.KeyEquation
end

section
/-! PROOFS. The Berlekamp-Massey passes over any field (45_eseed_bm.md R205, R206), started from an erasure locator Γ: what a
pass keeps, and that a locator with 2 · errors + erasures ≤ N is found. -/

namespace Sys2Proof.KeyEquation

open Polynomial

variable {F : Type} [Field F]

theorem natDegree_X_mul_le (f : F[X]) : (X * f).natDegree ≤ f.natDegree + 1 := by
  have hmul := natDegree_mul_le (p := X) (q := f)
  rwa [natDegree_X, Nat.add_comm] at hmul

/-- BM's temporaries before pass `n`, with `e` erasures: Λ · S has no coefficient from x^L to x^(n−1), and x·B · S none from
x^(n−L+e+1) to x^(n−1), while its coefficient of x^n is the discrepancy of the last length change. -/
structure Pass (S Γ : F[X]) (e n : Nat) (lam b : F[X]) (δ : F) (len : Nat) : Prop where
  dvdLam : Γ ∣ lam
  dvdB : Γ ∣ b
  lamDegree : lam.natDegree ≤ len
  bDegree : b.natDegree + len ≤ n + e
  lenLower : e ≤ len
  lenUpper : len ≤ n
  nonzero : δ ≠ 0
  lamHead : lam.coeff 0 = 1
  lamCoeff : ∀ i, len ≤ i → i < n → (lam * S).coeff i = 0
  bCoeff : ∀ i, n + e < i + len → i < n → (X * b * S).coeff i = 0
  bDiscrepancy : e < len → (X * b * S).coeff n = δ

namespace Pass

variable {S Γ lam b : F[X]} {e n len : Nat} {δ : F}

/-- Before the first pass. -/
theorem start (hdeg : Γ.natDegree ≤ e) (hhead : Γ.coeff 0 = 1) : Pass S Γ e e Γ Γ 1 e where
  dvdLam := dvd_rfl
  dvdB := dvd_rfl
  lamDegree := hdeg
  bDegree := by omega
  lenLower := le_rfl
  lenUpper := le_rfl
  nonzero := one_ne_zero
  lamHead := hhead
  lamCoeff i h1 h2 := by omega
  bCoeff i h1 h2 := by omega
  bDiscrepancy h := absurd h (lt_irrefl e)

theorem coeff_X_mul_mul (f : F[X]) (i : Nat) : (X * f * S).coeff (i + 1) = (f * S).coeff i := by
  rw [mul_assoc, coeff_X_mul]

/-- x·B is shifted once more when the length stays. -/
theorem shift_bCoeff (h : Pass S Γ e n lam b δ len) (i : Nat) (h1 : n + 1 + e < i + len) (h2 : i < n + 1) :
    (X * (X * b) * S).coeff i = 0 := by
  have hlen := h.lenUpper
  obtain ⟨i, rfl⟩ := Nat.exists_eq_add_one.2 (show 0 < i by omega)
  rw [coeff_X_mul_mul]
  exact h.bCoeff i (by omega) (by omega)

/-- A pass with discrepancy 0. -/
theorem step_zero (h : Pass S Γ e n lam b δ len) (hd : (lam * S).coeff n = 0) : Pass S Γ e (n + 1) lam (X * b) δ len where
  dvdLam := h.dvdLam
  dvdB := h.dvdB.mul_left X
  lamDegree := h.lamDegree
  bDegree := by
    have := h.bDegree
    have := natDegree_X_mul_le b
    omega
  lenLower := h.lenLower
  lenUpper := h.lenUpper.trans (Nat.le_succ n)
  nonzero := h.nonzero
  lamHead := h.lamHead
  lamCoeff i h1 h2 := by
    rcases Nat.lt_succ_iff_lt_or_eq.1 h2 with hlt | rfl
    · exact h.lamCoeff i h1 hlt
    · exact hd
  bCoeff := h.shift_bCoeff
  bDiscrepancy hlt := (coeff_X_mul_mul _ _).trans (h.bDiscrepancy hlt)

/-- The corrected locator Λ − (Δ/δ) · x·B. -/
noncomputable def correct (lam b : F[X]) (c : F) : F[X] := lam - C c * (X * b)

theorem coeff_correct_mul (c : F) (i : Nat) : (correct lam b c * S).coeff i = (lam * S).coeff i - c * (X * b * S).coeff i := by
  rw [correct, sub_mul, coeff_sub, mul_assoc, coeff_C_mul]

theorem natDegree_correct_le (c : F) {d : Nat} (hlam : lam.natDegree ≤ d) (hb : b.natDegree + 1 ≤ d) :
    (correct lam b c).natDegree ≤ d := by
  refine (natDegree_sub_le _ _).trans (max_le hlam ((natDegree_C_mul_le _ _).trans ?_))
  exact (natDegree_X_mul_le b).trans hb

theorem correct_head (h : Pass S Γ e n lam b δ len) (c : F) : (correct lam b c).coeff 0 = 1 := by
  simp [correct, h.lamHead]

theorem dvd_correct (h : Pass S Γ e n lam b δ len) (c : F) : Γ ∣ correct lam b c :=
  dvd_sub h.dvdLam ((h.dvdB.mul_left X).mul_left _)

/-- The corrected locator has no coefficient of x^n in its product with S, nor any below that both Λ and x·B leave out. -/
theorem correct_coeff (h : Pass S Γ e n lam b δ len) {i : Nat} (hlen : len ≤ i) (hb : n + e < i + len) (hi : i < n + 1) :
    (correct lam b ((lam * S).coeff n / δ) * S).coeff i = 0 := by
  rw [coeff_correct_mul]
  rcases Nat.lt_succ_iff_lt_or_eq.1 hi with hlt | rfl
  · rw [h.lamCoeff i hlen hlt, h.bCoeff i hb hlt, mul_zero, sub_zero]
  · rw [h.bDiscrepancy (by omega), div_mul_cancel₀ _ h.nonzero, sub_self]

/-- A pass that changes the length. -/
theorem step_grow (h : Pass S Γ e n lam b δ len) (hd : (lam * S).coeff n ≠ 0) (hlen : 2 * len ≤ n + e) :
    Pass S Γ e (n + 1) (correct lam b ((lam * S).coeff n / δ)) lam ((lam * S).coeff n) (n + 1 - len + e) := by
  have ⟨hdvd, _, hlam, hb, hlower, hupper, _, _, hcoeff, _, _⟩ := h
  refine ⟨h.dvd_correct _, hdvd, natDegree_correct_le _ (by omega) (by omega), by omega, by omega, by omega, hd, h.correct_head _,
    fun i h1 h2 => h.correct_coeff (by omega) (by omega) h2, fun i h1 h2 => ?_, fun _ => coeff_X_mul_mul _ _⟩
  obtain ⟨i, rfl⟩ := Nat.exists_eq_add_one.2 (show 0 < i by omega)
  rw [coeff_X_mul_mul]
  exact hcoeff i (by omega) (by omega)

/-- A pass that corrects Λ within its length. -/
theorem step_keep (h : Pass S Γ e n lam b δ len) (hlen : n + e < 2 * len) :
    Pass S Γ e (n + 1) (correct lam b ((lam * S).coeff n / δ)) (X * b) δ len := by
  have ⟨_, hdvd, hlam, hb, hlower, hupper, hδ, _, _, _, hdisc⟩ := h
  have hX := natDegree_X_mul_le b
  exact ⟨h.dvd_correct _, hdvd.mul_left X, natDegree_correct_le _ hlam (by omega), by omega, hlower, by omega, hδ,
    h.correct_head _, fun i h1 h2 => h.correct_coeff h1 (by omega) h2, h.shift_bCoeff,
    fun hlt => (coeff_X_mul_mul _ _).trans (hdisc hlt)⟩

end Pass

/-! ### The true locator -/

/-- Two polynomials below x^N that agree below x^N. -/
theorem eq_of_X_pow_dvd_sub {f g : F[X]} {N : Nat} (hf : f.natDegree < N) (hg : g.natDegree < N) (h : X ^ N ∣ f - g) : f = g := by
  refine sub_eq_zero.1 (eq_zero_of_dvd_of_natDegree_lt h ?_)
  rw [natDegree_X_pow]
  exact (natDegree_sub_le f g).trans_lt (max_lt hf hg)

/-- A polynomial without coefficients from x^m to x^(N−1) is below x^m, modulo x^N. -/
theorem exists_X_pow_dvd_sub {f : F[X]} {m N : Nat} (hm : 0 < m) (hzero : ∀ i, m ≤ i → i < N → f.coeff i = 0) :
    ∃ g : F[X], g.natDegree < m ∧ X ^ N ∣ f - g := by
  have hdeg : (f %ₘ X ^ m).natDegree < m := by
    have hlt := natDegree_modByMonic_lt f (monic_X_pow m) fun e =>
      hm.ne' (by simpa using congrArg natDegree e)
    rwa [natDegree_X_pow] at hlt
  have hlow : X ^ m ∣ f - f %ₘ X ^ m := ⟨f /ₘ X ^ m, by rw [modByMonic_eq_sub_mul_div, sub_sub_cancel]⟩
  refine ⟨f %ₘ X ^ m, hdeg, X_pow_dvd_iff.2 fun i hi => ?_⟩
  rcases Nat.lt_or_ge i m with hlt | hge
  · exact X_pow_dvd_iff.1 hlow i hlt
  · rw [coeff_sub, hzero i hge hi, coeff_eq_zero_of_natDegree_lt (hdeg.trans_le hge), sub_zero]

/-- What the errors and erasures are to BM: Γ is the locator of the `e` erasures, σ that of the `t` errors, whose roots are
`R`, and Ω, which vanishes at no root of σ, is the evaluator of both. -/
structure Truth (S Γ σ Ω : F[X]) (R : Finset F) (N e : Nat) : Prop where
  key : X ^ N ∣ Γ * σ * S - Ω
  seedDegree : Γ.natDegree = e
  seedHead : Γ.coeff 0 = 1
  errorDegree : σ.natDegree = R.card
  errorHead : σ.coeff 0 = 1
  evaluatorDegree : Ω.natDegree < e + R.card
  isRoot : ∀ r ∈ R, σ.eval r = 0
  evaluatorNe : ∀ r ∈ R, Ω.eval r ≠ 0

namespace Truth

variable {S Γ σ Ω lam b : F[X]} {R : Finset F} {N e n len : Nat} {δ : F} (h : Truth S Γ σ Ω R N e)
include h

/-- The cofactor of Γ in a locator of length `len` has degree at most `len − e`. -/
theorem natDegree_cofactor_add {τ : F[X]} (hp : Pass S Γ e n (Γ * τ) b δ len) : τ.natDegree + e ≤ len := by
  have hne : Γ * τ ≠ 0 := fun e => by
    have hone := hp.lamHead
    rw [e, coeff_zero] at hone
    exact zero_ne_one hone
  have hdeg := hp.lamDegree
  rwa [natDegree_mul (left_ne_zero_of_mul hne) (right_ne_zero_of_mul hne), h.seedDegree, Nat.add_comm] at hdeg

theorem dvd_cofactor (τ : F[X]) : X ^ N ∣ σ * (Γ * τ * S) - τ * Ω := by
  obtain ⟨f, hf⟩ := h.key
  exact ⟨τ * f, by linear_combination τ * hf⟩

/-- Massey's bound: while the length and the errors together are at most n, the discrepancy is 0. -/
theorem discrepancy_eq_zero (hp : Pass S Γ e n lam b δ len) (hn : n < N) (hlen : len + R.card ≤ n) : (lam * S).coeff n = 0 := by
  obtain ⟨τ, rfl⟩ := hp.dvdLam
  have hτ := h.natDegree_cofactor_add hp
  have hzero : (σ * (Γ * τ * S)).coeff n = 0 := by
    have hagree := X_pow_dvd_iff.1 (h.dvd_cofactor τ) n hn
    rw [coeff_sub, sub_eq_zero] at hagree
    rw [hagree]
    refine coeff_eq_zero_of_natDegree_lt ((natDegree_mul_le).trans_lt ?_)
    have := h.evaluatorDegree
    omega
  have hfirst : (σ * (Γ * τ * S)).coeff n = σ.coeff 0 * (Γ * τ * S).coeff n := by
    rw [coeff_mul]
    refine Finset.sum_eq_single_of_mem (0, n) (by simp) fun ⟨i, j⟩ hij hne => ?_
    rw [Finset.HasAntidiagonal.mem_antidiagonal] at hij
    simp only at hij ⊢
    rcases Nat.lt_or_ge σ.natDegree i with hlt | hle
    · rw [coeff_eq_zero_of_natDegree_lt hlt, zero_mul]
    · have hi : i ≠ 0 := fun e => hne (by simp [e, ← hij])
      have := h.errorDegree
      rw [hp.lamCoeff j (by omega) (by omega), mul_zero]
  rwa [hfirst, h.errorHead, one_mul] at hzero

/-- With 2 · errors + erasures at most N, BM's last locator is the true one. -/
theorem locator_eq (hp : Pass S Γ e N lam b δ len) (hlen : len ≤ e + R.card) (hbound : 2 * R.card + e ≤ N) : lam = Γ * σ := by
  obtain ⟨τ, rfl⟩ := hp.dvdLam
  have hτ := h.natDegree_cofactor_add hp
  have hΩ := h.evaluatorDegree
  have hσ := h.errorDegree
  obtain ⟨ω, hω, hdvd⟩ := exists_X_pow_dvd_sub (f := Γ * τ * S) (m := e + R.card) (N := N) (by omega) fun i h1 h2 =>
    hp.lamCoeff i (by omega) h2
  have hprod : τ * Ω = σ * ω := by
    refine eq_of_X_pow_dvd_sub (N := N) ((natDegree_mul_le).trans_lt (by omega)) ((natDegree_mul_le).trans_lt (by omega)) ?_
    have hsub := dvd_sub (hdvd.mul_left σ) (h.dvd_cofactor τ)
    have he : σ * (Γ * τ * S - ω) - (σ * (Γ * τ * S) - τ * Ω) = τ * Ω - σ * ω := by ring
    rwa [he] at hsub
  have hroot : ∀ r ∈ R, τ.eval r = σ.eval r := fun r hr => by
    have heval := congrArg (eval r) hprod
    rw [eval_mul, eval_mul, h.isRoot r hr, zero_mul] at heval
    rw [h.isRoot r hr, (mul_eq_zero.1 heval).resolve_right (h.evaluatorNe r hr)]
  have hhead : τ.eval 0 = σ.eval 0 := by
    have hone := hp.lamHead
    rw [mul_coeff_zero, h.seedHead, one_mul] at hone
    rw [← coeff_zero_eq_eval_zero, ← coeff_zero_eq_eval_zero, hone, h.errorHead]
  have h0 : (0 : F) ∉ R := fun hr => by
    have := h.isRoot 0 hr
    rw [← coeff_zero_eq_eval_zero, h.errorHead] at this
    exact one_ne_zero this
  classical
  refine congrArg (Γ * ·) (eq_of_natDegree_lt_card_of_eval_eq' τ σ (insert 0 R) (Finset.forall_mem_insert _ _ _ |>.2 ⟨hhead, hroot⟩) ?_)
  rw [Finset.card_insert_of_notMem h0]
  omega

end Truth

/-- Errors at `B` and erasures at `A`, in the terms BM meets them. -/
theorem truth_of_positions {x y : Nat → F} {A B : Finset Nat} {N : Nat} (hdisj : Disjoint A B) (hinj : Set.InjOn x ↑(A ∪ B))
    (hx : ∀ j, x j ≠ 0) (hy : ∀ j ∈ B, y j ≠ 0) (hne : (A ∪ B).Nonempty) :
    ∃ R : Finset F, R.card = B.card ∧
      Truth (syndrome x y (A ∪ B) N) (locator x A) (locator x B) (evaluatorPoly x y (A ∪ B)) R N A.card := by
  classical
  have hinjB : Set.InjOn (fun j => (x j)⁻¹) ↑B := fun i hi j hj he =>
    hinj (Finset.mem_union_right A hi) (Finset.mem_union_right A hj) (inv_injective he)
  have hcard : (B.image fun j => (x j)⁻¹).card = B.card := Finset.card_image_of_injOn hinjB
  refine ⟨B.image fun j => (x j)⁻¹, hcard, ?_, natDegree_locator fun j _ => hx j, coeff_zero_locator, ?_, coeff_zero_locator, ?_,
    fun r hr => ?_, fun r hr => ?_⟩
  · rw [← locator_union hdisj]
    exact key_equation N
  · rw [hcard, natDegree_locator fun j _ => hx j]
  · rw [hcard, ← Finset.card_union_of_disjoint hdisj]
    exact degree_evaluatorPoly_lt (fun j _ => hx j) hne
  · obtain ⟨j, hj, rfl⟩ := Finset.mem_image.1 hr
    exact (eval_inv_locator_eq_zero_iff (hx j)).2 ⟨j, hj, rfl⟩
  · obtain ⟨j, hj, rfl⟩ := Finset.mem_image.1 hr
    have hj' := Finset.mem_union_right A hj
    rw [eval_evaluatorPoly hj' (hx j)]
    exact mul_ne_zero (hy j hj) (eval_locator_erase_ne_zero hinj hj' (hx j))

end Sys2Proof.KeyEquation
end

section
/-! PROOFS. The symbols of a legal unit read in a field (40_field_alu.md R119): a map of the M-bit patterns into a field that
turns the model's `add` and `mulV` into sum and product, and what it makes of sums, of `evalAt` and of Λ′. -/

namespace Sys2Proof.Machine

open Polynomial

/-- `φ` carries the arithmetic of the M-bit patterns into the field `F`. -/
structure SymbolField (p : Params) {F : Type} [Field F] (φ : Value → F) : Prop where
  valid : p.valid = true
  one : φ 1 = 1
  add {a b : Value} (ha : a.toNat < p.q) (hb : b.toNat < p.q) : φ (add a b) = φ a + φ b
  mul {a b : Value} (ha : a.toNat < p.q) (hb : b.toNat < p.q) : φ (mulV p a b) = φ a * φ b
  inj {a b : Value} (ha : a.toNat < p.q) (hb : b.toNat < p.q) (h : φ a = φ b) : a = b

/-- A symbol as an element of the unit's field; 0 where it is no M-bit pattern. -/
def elemOf (p : Params) (x : Value) : Elem p := if hx : x.toNat < p.q then ⟨x, hx⟩ else ⟨0, p.q_pos⟩

theorem elemOf_of_lt {p : Params} {x : Value} (hx : x.toNat < p.q) : elemOf p x = ⟨x, hx⟩ := dif_pos hx

/-- Every legal tuple has such a field, that of its symbols. -/
theorem exists_symbolField {p : Params} (h : p.valid = true) :
    ∃ (F : Type) (_ : Field F) (φ : Value → F), SymbolField p φ := by
  let := elemField h
  refine ⟨Elem p, elemField h, elemOf p, h, ?_, fun {a b} ha hb => ?_, fun {a b} ha hb => ?_, fun {a b} ha hb he => ?_⟩
  · exact elemOf_of_lt (one_lt_q h)
  · rw [elemOf_of_lt ha, elemOf_of_lt hb, elemOf_of_lt (add_lt ha hb)]
    rfl
  · rw [elemOf_of_lt ha, elemOf_of_lt hb, elemOf_of_lt (mulV_lt h a b)]
    rfl
  · rw [elemOf_of_lt ha, elemOf_of_lt hb] at he
    exact congrArg Subtype.val he

/-- α in the field. -/
def alphaElem (p : Params) {F : Type} (φ : Value → F) : F := φ (expt p (1 % p.n))

/-- The locator value X_pos = α^(N−1−pos) in the field (45_eseed_bm.md R200). -/
def locatorValue (p : Params) {F : Type} [Field F] (φ : Value → F) (pos : Nat) : F := alphaElem p φ ^ locatorIndex p pos

/-- The polynomial with a list of symbols as its coefficients, low degree first. -/
noncomputable def symbolPoly {F : Type} [Field F] (φ : Value → F) (cs : List Value) : F[X] :=
  ∑ j ∈ Finset.range cs.length, monomial j (φ (cs.getD j 0))

theorem locatorIndex_eq {p : Params} {pos : Nat} (hpos : pos < p.n) : locatorIndex p pos = p.n - 1 - pos := by
  rw [locatorIndex, idiv, Int.emod_eq_of_lt (by omega) (by omega)]
  omega

namespace SymbolField

variable {p : Params} {F : Type} [Field F] {φ : Value → F} (hφ : SymbolField p φ)
include hφ

theorem zero : φ 0 = 0 := by
  have hzero := hφ.add (a := 0) (b := 0) p.q_pos p.q_pos
  exact left_eq_add.1 hzero

/-- Every symbol is its own negative. -/
theorem two_eq_zero : (2 : F) = 0 := by
  have hone := hφ.add (one_lt_q hφ.valid) (one_lt_q hφ.valid)
  have hself : Machine.add 1 1 = 0 := BitVec.xor_self
  rwa [hself, hφ.zero, hφ.one, one_add_one_eq_two, eq_comm] at hone

theorem neg_eq (x : F) : -x = x := by linear_combination -x * hφ.two_eq_zero

theorem eq_zero_iff {a : Value} (ha : a.toNat < p.q) : φ a = 0 ↔ a = 0 := by
  rw [← hφ.zero]
  exact ⟨hφ.inj ha p.q_pos, congrArg φ⟩

theorem div {a b : Value} (ha : a.toNat < p.q) (hb : b.toNat < p.q) (h0 : b ≠ 0) : φ (divV p a b) = φ a / φ b := by
  have hb0 : φ b ≠ 0 := fun e => h0 ((hφ.eq_zero_iff hb).1 e)
  have hlt : (rcp p b).toNat < p.q := expt_lt hφ.valid _
  have hrcp : φ b * φ (rcp p b) = 1 := by rw [← hφ.mul hb hlt, mulV_rcp hφ.valid h0 hb, hφ.one]
  rw [divV_eq_mulV_rcp hφ.valid, hφ.mul ha hlt, div_eq_mul_inv, eq_inv_of_mul_eq_one_right hrcp]

/-! ### Powers of α -/

theorem expt_mod (r : Nat) : φ (expt p (r % p.n)) = alphaElem p φ ^ r := by
  have hv := hφ.valid
  induction r with
  | zero => rw [Nat.zero_mod, expt_zero hv, hφ.one, pow_zero]
  | succ r ih =>
    have hmul := hφ.mul (expt_lt hv (r % p.n)) (expt_lt hv (1 % p.n))
    rw [mulV_expt_left hv, mulIv_expt hv] at hmul
    rw [hmul, ih, pow_succ, alphaElem]

theorem mulIv (i : Nat) {b : Value} (hb : b.toNat < p.q) : φ (mulIv p i b) = alphaElem p φ ^ i * φ b := by
  rw [← mulV_expt_left hφ.valid, hφ.mul (expt_lt hφ.valid _) hb, hφ.expt_mod]

theorem alphaElem_ne_zero : alphaElem p φ ≠ 0 := fun e =>
  expt_mod_ne_zero hφ.valid 1 ((hφ.eq_zero_iff (expt_lt hφ.valid _)).1 e)

theorem alphaElem_pow_mod (r : Nat) : alphaElem p φ ^ (r % p.n) = alphaElem p φ ^ r := by
  rw [← hφ.expt_mod, ← hφ.expt_mod, Nat.mod_mod]

theorem alphaElem_pow_inj {i j : Nat} (hi : i < p.n) (hj : j < p.n) (h : alphaElem p φ ^ i = alphaElem p φ ^ j) : i = j := by
  have hv := hφ.valid
  rw [← hφ.expt_mod, ← hφ.expt_mod, Nat.mod_eq_of_lt hi, Nat.mod_eq_of_lt hj] at h
  have hlog := congrArg (logt p) (hφ.inj (expt_lt hv i) (expt_lt hv j) h)
  rwa [logt_expt hv hi, logt_expt hv hj] at hlog

theorem alphaElem_pow_logt {b : Value} (hb : b.toNat < p.q) (h0 : b ≠ 0) : alphaElem p φ ^ logt p b = φ b := by
  rw [← hφ.expt_mod, Nat.mod_eq_of_lt (alphaPow_logt hφ.valid h0 hb).1, expt_logt hφ.valid h0 hb]

theorem alphaElem_pow_congr {i j : Nat} (h : i ≡ j [MOD p.n]) : alphaElem p φ ^ i = alphaElem p φ ^ j := by
  rw [← hφ.alphaElem_pow_mod i, h, hφ.alphaElem_pow_mod]

theorem locatorValue_ne_zero (pos : Nat) : locatorValue p φ pos ≠ 0 := pow_ne_zero _ hφ.alphaElem_ne_zero

/-- Different positions have different locator values. -/
theorem locatorValue_injOn : Set.InjOn (locatorValue p φ) (Set.Iio p.n) := fun i hi j hj he => by
  have hi : i < p.n := hi
  have hj : j < p.n := hj
  rw [locatorValue, locatorValue, locatorIndex_eq hi, locatorIndex_eq hj] at he
  have := hφ.alphaElem_pow_inj (by omega) (by omega) he
  omega

/-- The root of a position is the inverse of its locator value. -/
theorem locatorValue_inv {pos : Nat} (hpos : pos < p.n) :
    (locatorValue p φ pos)⁻¹ = alphaElem p φ ^ rootOfPosition p pos := by
  refine inv_eq_of_mul_eq_one_right ?_
  rw [locatorValue, ← pow_add, ← hφ.alphaElem_pow_mod, locatorIndex_add_rootOfPosition hpos, pow_zero]

/-! ### Sums and polynomials -/

theorem sumV {xs : List Value} (hxs : Symbols p xs) : φ (sumV xs) = (xs.map φ).sum := by
  induction xs with
  | nil => exact hφ.zero
  | cons x xs ih =>
    obtain ⟨hx, hxs⟩ := List.forall_mem_cons.1 hxs
    rw [sumV_cons, hφ.add hx (sumV_lt hxs), ih hxs, List.map_cons, List.sum_cons]

theorem sumV_range {f : Nat → Value} {n : Nat} (hf : ∀ j, (f j).toNat < p.q) :
    φ (Machine.sumV ((List.range n).map f)) = ∑ j ∈ Finset.range n, φ (f j) := by
  rw [hφ.sumV (Symbols.map fun j _ => hf j), List.map_map]
  rfl

theorem coeff_symbolPoly (cs : List Value) (j : Nat) : (symbolPoly φ cs).coeff j = φ (cs.getD j 0) := by
  rw [symbolPoly, finsetSum_coeff]
  simp only [coeff_monomial]
  rw [Finset.sum_ite_eq' (Finset.range cs.length) j]
  split
  · rfl
  · rename_i hj
    rw [List.getD_eq_default _ _ (by simpa using hj), hφ.zero]

/-- R224's sum is the value of the polynomial. -/
theorem evalAt {cs : List Value} (hcs : Symbols p cs) (r : Nat) :
    φ (evalAt p cs r) = (symbolPoly φ cs).eval (alphaElem p φ ^ r) := by
  rw [Machine.evalAt, hφ.sumV_range fun j => mulIv_lt hφ.valid _ _, symbolPoly, eval_finsetSum]
  refine Finset.sum_congr rfl fun j _ => ?_
  rw [hφ.mulIv _ (hcs.getD j), hφ.alphaElem_pow_mod, eval_monomial, ← pow_mul, Nat.mul_comm r j, mul_comm]

end SymbolField

end Sys2Proof.Machine
end

section
/-! PROOFS. The engines of the codec as operations on polynomials: Λ′ and the degree of a locator, ESEED's passes, BM's
discrepancy and corrections, Forney's evaluator (45_eseed_bm.md R202, R205, 46_rootfinder.md R220, 47_forney.md R240). -/

namespace Sys2Proof.Machine

open Polynomial

/-- A sum over the even indices alone. -/
theorem sum_range_eq_sum_even {M : Type} [AddCommMonoid M] {f : Nat → M} (hodd : ∀ i, f (2 * i + 1) = 0) (n : Nat) :
    ∑ j ∈ Finset.range n, f j = ∑ i ∈ Finset.range ((n + 1) / 2), f (2 * i) := by
  induction n with
  | zero => rfl
  | succ n ih =>
    rw [Finset.sum_range_succ, ih]
    rcases Nat.even_or_odd' n with ⟨k, rfl | rfl⟩
    · rw [show (2 * k + 1) / 2 = k by omega, show (2 * k + 1 + 1) / 2 = k + 1 by omega, Finset.sum_range_succ]
    · rw [hodd, add_zero, show (2 * k + 1 + 1) / 2 = k + 1 by omega, show (2 * k + 1 + 1 + 1) / 2 = k + 1 by omega]

theorem range'_one_two (m : Nat) : List.range' 1 m 2 = (List.range m).map fun i => 1 + 2 * i :=
  List.ext_getElem (by simp) fun i _ _ => by simp

theorem getD_zipWith {f : Value → Value → Value} {as bs : List Value} {k : Nat} (ha : k < as.length) (hb : k < bs.length) :
    (List.zipWith f as bs).getD k 0 = f (as.getD k 0) (bs.getD k 0) := by
  rw [List.getD_eq_getElem _ _ (by rw [List.length_zipWith]; omega), List.getD_eq_getElem _ _ ha, List.getD_eq_getElem _ _ hb,
    List.getElem_zipWith]

namespace SymbolField

variable {p : Params} {F : Type} [Field F] {φ : Value → F} (hφ : SymbolField p φ)
include hφ

/-! ### Degree and derivative -/

theorem natDegree_symbolPoly_le {cs : List Value} {d : Nat} (h : ∀ k, d < k → cs.getD k 0 = 0) :
    (symbolPoly φ cs).natDegree ≤ d :=
  natDegree_le_iff_coeff_eq_zero.2 fun k hk => by rw [hφ.coeff_symbolPoly, h k hk, hφ.zero]

/-- The trimmed degree is the degree (R220). -/
theorem natDegree_symbolPoly {lam : List Value} (hlam : Symbols p lam) (hlen : lam.length = p.nr + 1) :
    (symbolPoly φ lam).natDegree = trimmedDegree lam p.nr := by
  obtain ⟨-, hlead, -⟩ := trimmedDegree_spec lam p.nr
  refine le_antisymm (hφ.natDegree_symbolPoly_le fun k hk => getD_eq_zero_of_trimmedDegree_lt hlen hk) ?_
  rcases Nat.eq_zero_or_pos (trimmedDegree lam p.nr) with h0 | hpos
  · omega
  · refine le_natDegree_of_ne_zero ?_
    rw [hφ.coeff_symbolPoly]
    exact fun e => hlead hpos.ne' ((hφ.eq_zero_iff (hlam.getD _)).1 e)

/-- R241's sum over the odd coefficients is the value of the derivative. -/
theorem derivativeAt {lam : List Value} (hlam : Symbols p lam) (hlen : lam.length = p.nr + 1) (r : Nat) :
    φ (derivativeAt p lam r) = (derivative (symbolPoly φ lam)).eval (alphaElem p φ ^ r) := by
  have hdeg : (derivative (symbolPoly φ lam)).natDegree < p.nr := by
    have hle := hφ.natDegree_symbolPoly_le (cs := lam) (d := p.nr) fun k hk => List.getD_eq_default _ _ (by omega)
    have hbounds := Params.bounds hφ.valid
    have := natDegree_derivative_le (symbolPoly φ lam)
    omega
  have hodd : ∀ i : Nat, (derivative (symbolPoly φ lam)).coeff (2 * i + 1) * (alphaElem p φ ^ r) ^ (2 * i + 1) = 0 := fun i => by
    have hcast : (((2 * i + 1 : Nat) : F) + 1) = 0 := by
      push_cast
      linear_combination (i + 1) * hφ.two_eq_zero
    rw [coeff_derivative, hcast, mul_zero, zero_mul]
  have heven : ∀ i : Nat, (derivative (symbolPoly φ lam)).coeff (2 * i) * (alphaElem p φ ^ r) ^ (2 * i) =
      φ (Machine.mulIv p (((1 + 2 * i - 1) * r) % p.n) (lam.getD (1 + 2 * i) 0)) := fun i => by
    have hcast : (((2 * i : Nat) : F) + 1) = 1 := by
      push_cast
      linear_combination i * hφ.two_eq_zero
    rw [coeff_derivative, hcast, mul_one, hφ.coeff_symbolPoly, hφ.mulIv _ (hlam.getD _), hφ.alphaElem_pow_mod,
      Nat.add_sub_cancel_left, Nat.add_comm 1, ← pow_mul, Nat.mul_comm r, mul_comm]
  rw [eval_eq_sum_range' hdeg, sum_range_eq_sum_even hodd, Machine.derivativeAt, range'_one_two, List.map_map,
    Finset.sum_congr rfl fun i _ => heven i]
  exact hφ.sumV_range fun i => mulIv_lt hφ.valid _ _

/-! ### ESEED -/

/-- A pass of ESEED multiplies by 1 − X_e · x, if there is room for the new coefficient. -/
theorem symbolPoly_seedPass {lam : List Value} (hlam : Symbols p lam) (hroom : (symbolPoly φ lam).natDegree + 1 < lam.length) (e : Nat) :
    symbolPoly φ (seedPass p lam e) = (1 - C (locatorValue p φ e) * X) * symbolPoly φ lam := by
  ext k
  rw [sub_mul, one_mul, mul_assoc, coeff_sub, coeff_C_mul, hφ.coeff_symbolPoly]
  cases k with
  | zero => rw [coeff_X_mul_zero, mul_zero, sub_zero, hφ.coeff_symbolPoly, head_seedPass]
  | succ k =>
    rw [coeff_X_mul]
    rcases Nat.lt_or_ge (k + 1) lam.length with hlt | hge
    · rw [seedPass, getD_zipWith hlt (by simp; omega), hφ.add (hlam.getD _) (mulIv_lt hφ.valid _ _), List.getD_cons_succ,
        hφ.mulIv _ (hlam.getD _), hφ.coeff_symbolPoly, hφ.coeff_symbolPoly, locatorValue, sub_eq_add_neg, hφ.neg_eq]
    · rw [List.getD_eq_default _ _ (by rwa [length_seedPass]), coeff_eq_zero_of_natDegree_lt (p := symbolPoly φ lam) (n := k) (by omega),
        coeff_eq_zero_of_natDegree_lt (p := symbolPoly φ lam) (n := k + 1) (by omega), hφ.zero, mul_zero, sub_zero]

/-- ESEED's locator is ∏ (1 − X_e · x) (R202). -/
theorem symbolPoly_seedLocator {es : List Nat} (hnd : es.Nodup) (hes : es.length ≤ p.nr) :
    symbolPoly φ (seedLocator p es) = KeyEquation.locator (locatorValue p φ) es.toFinset := by
  induction es using List.reverseRecOn with
  | nil =>
    ext k
    rw [hφ.coeff_symbolPoly, seedLocator_nil, List.toFinset_nil, KeyEquation.locator, Finset.prod_empty, coeff_one]
    cases k with
    | zero => exact hφ.one
    | succ k =>
      rw [if_neg k.succ_ne_zero, List.getD_cons_succ, List.getD_eq_getElem?_getD, List.getElem?_getD_replicate_default_eq, hφ.zero]
  | append_singleton es e ih =>
    rw [List.length_append, List.length_singleton] at hes
    obtain ⟨hnd, -, hdisj⟩ := List.nodup_append.1 hnd
    have he : e ∉ es.toFinset := by simpa using fun h => hdisj e h e (by simp) rfl
    have hroom : (symbolPoly φ (seedLocator p es)).natDegree + 1 < (seedLocator p es).length := by
      have := hφ.natDegree_symbolPoly_le (cs := seedLocator p es) fun k => getD_seedLocator_of_length_lt
      rw [length_seedLocator]
      omega
    have hset : (es ++ [e]).toFinset = insert e es.toFinset := by ext; simp
    rw [seedLocator_concat, hφ.symbolPoly_seedPass (symbols_seedLocator hφ.valid es) hroom, ih hnd (by omega), hset,
      KeyEquation.locator, KeyEquation.locator, Finset.prod_insert he]

/-! ### Products -/

/-- The sums of R205 and R241 are coefficients of the product. -/
theorem coeff_symbolPoly_mul {as bs : List Value} (has : Symbols p as) (hbs : Symbols p bs) (n : Nat) :
    (symbolPoly φ as * symbolPoly φ bs).coeff n =
      φ (Machine.sumV ((List.range (n + 1)).map fun k => mulV p (as.getD k 0) (bs.getD (n - k) 0))) := by
  rw [hφ.sumV_range fun k => mulV_lt hφ.valid _ _, coeff_mul, Finset.Nat.sum_antidiagonal_eq_sum_range_succ_mk]
  refine Finset.sum_congr rfl fun k _ => ?_
  rw [hφ.coeff_symbolPoly, hφ.coeff_symbolPoly, hφ.mul (has.getD _) (hbs.getD _)]

/-- Δ is a coefficient of Λ · S (R205). -/
theorem discrepancy {syn lam : List Value} (hsyn : Symbols p syn) (hlam : Symbols p lam) {len n : Nat}
    (hdeg : (symbolPoly φ lam).natDegree ≤ len) (hlen : len ≤ n) :
    φ (discrepancy p syn lam len n) = (symbolPoly φ lam * symbolPoly φ syn).coeff n := by
  rw [hφ.coeff_symbolPoly_mul hlam hsyn, Machine.discrepancy, hφ.sumV_range fun k => mulV_lt hφ.valid _ _,
    hφ.sumV_range fun k => mulV_lt hφ.valid _ _]
  refine Finset.sum_subset (Finset.range_subset_range.2 (by omega)) fun k _ hk => ?_
  rw [hφ.mul (hlam.getD _) (hsyn.getD _), ← hφ.coeff_symbolPoly,
    coeff_eq_zero_of_natDegree_lt (hdeg.trans_lt (by simpa using hk)), zero_mul]

/-- FORNEY's Ω is Λ · S modulo x^NR (R240). -/
theorem symbolPoly_evaluator {lam syn : List Value} (hlam : Symbols p lam) (hsyn : Symbols p syn) {Ω : F[X]}
    (hdeg : Ω.natDegree < p.nr) (hkey : X ^ p.nr ∣ symbolPoly φ lam * symbolPoly φ syn - Ω) :
    symbolPoly φ (evaluator p lam syn) = Ω := by
  ext i
  rw [hφ.coeff_symbolPoly]
  rcases Nat.lt_or_ge i p.nr with hlt | hge
  · have hagree := X_pow_dvd_iff.1 hkey i hlt
    rw [coeff_sub, sub_eq_zero, hφ.coeff_symbolPoly_mul hlam hsyn] at hagree
    rw [← hagree, List.getD_eq_getElem _ _ (by simpa using hlt)]
    simp [evaluator]
  · rw [List.getD_eq_default _ _ (by simpa using hge), hφ.zero, coeff_eq_zero_of_natDegree_lt (by omega)]

/-! ### BM -/

theorem symbolPoly_shiftB {b : List Value} (hdeg : (symbolPoly φ b).natDegree < p.nr) :
    symbolPoly φ (shiftB p b) = X * symbolPoly φ b := by
  ext k
  rw [hφ.coeff_symbolPoly, shiftB]
  cases k with
  | zero => rw [coeff_X_mul_zero, List.getD_cons_zero, hφ.zero]
  | succ k =>
    rw [coeff_X_mul, List.getD_cons_succ]
    rcases Nat.lt_or_ge k p.nr with hlt | hge
    · rw [hφ.coeff_symbolPoly, List.getD_eq_getElem?_getD, List.getElem?_take_of_lt hlt, ← List.getD_eq_getElem?_getD]
    · rw [List.getD_eq_default _ _ (by simp; omega), hφ.zero, coeff_eq_zero_of_natDegree_lt (by omega)]

/-- BM's correction of the locator. -/
theorem symbolPoly_correct {lam b : List Value} (hlam : Symbols p lam) (hb : Symbols p b) (hlamLen : lam.length = p.nr + 1)
    (hbLen : b.length = p.nr + 1) (hdeg : (symbolPoly φ b).natDegree < p.nr) {c : Value} (hc : c.toNat < p.q) :
    symbolPoly φ (List.zipWith (fun l x => Machine.add l (mulV p c x)) lam (shiftB p b)) =
      KeyEquation.Pass.correct (symbolPoly φ lam) (symbolPoly φ b) (φ c) := by
  have hshift : Symbols p (shiftB p b) := .cons p.q_pos fun x hx => hb x (List.mem_of_mem_take hx)
  have hshiftLen := length_shiftB hbLen
  ext k
  rw [KeyEquation.Pass.correct, ← hφ.symbolPoly_shiftB hdeg, coeff_sub, coeff_C_mul, hφ.coeff_symbolPoly, hφ.coeff_symbolPoly,
    hφ.coeff_symbolPoly]
  rcases Nat.lt_or_ge k (p.nr + 1) with hlt | hge
  · rw [getD_zipWith (by omega) (by omega), hφ.add (hlam.getD _) (mulV_lt hφ.valid _ _), hφ.mul hc (hshift.getD _), sub_eq_add_neg,
      hφ.neg_eq]
  · rw [List.getD_eq_default _ _ (by simp [hlamLen, hshiftLen]; omega), List.getD_eq_default _ _ (by omega),
      List.getD_eq_default _ _ (by omega), hφ.zero, mul_zero, sub_zero]

end SymbolField

end Sys2Proof.Machine
end

section
/-! PROOFS. BM finds the locator of the errors and the erasures (45_eseed_bm.md R206): each pass of the engine is a pass over the
field. -/

namespace Sys2Proof.Machine

open Polynomial KeyEquation

variable {p : Params} {syn : List Value} {e n : Nat} {st : BmState}

theorem bmPass_of_zero (hd : discrepancy p syn st.lam st.len n = 0) :
    bmPass p syn e st n = { st with b := shiftB p st.b } := if_pos hd

/-- The corrected locator of a pass. -/
def correctedLam (p : Params) (syn : List Value) (st : BmState) (n : Nat) : List Value :=
  List.zipWith (fun l x => add l (mulV p (divV p (discrepancy p syn st.lam st.len n) st.dprev) x)) st.lam (shiftB p st.b)

theorem bmPass_of_grow (hd : discrepancy p syn st.lam st.len n ≠ 0) (hlen : 2 * st.len ≤ n + e) :
    bmPass p syn e st n =
      { lam := correctedLam p syn st n
        b := st.lam
        dprev := discrepancy p syn st.lam st.len n
        len := n + 1 - st.len + e } :=
  (if_neg hd).trans (if_pos hlen)

theorem bmPass_of_keep (hd : discrepancy p syn st.lam st.len n ≠ 0) (hlen : ¬2 * st.len ≤ n + e) :
    bmPass p syn e st n = { st with lam := correctedLam p syn st n, b := shiftB p st.b } :=
  (if_neg hd).trans (if_neg hlen)

variable {F : Type} [Field F] {φ : Value → F}

/-- The engine's temporaries before pass `n`, with `t` errors: they are those of a pass over the field, and the length is at
most the number of errors and erasures. -/
structure BmTracks (p : Params) (φ : Value → F) (S Γ : F[X]) (e t n : Nat) (st : BmState) : Prop where
  shape : BmShape p 1 e st
  symbols : BmSymbols p st
  dprevSymbol : st.dprev.toNat < p.q
  pass : Pass S Γ e n (symbolPoly φ st.lam) (symbolPoly φ st.b) (φ st.dprev) st.len
  bound : st.len ≤ e + t

theorem discrepancy_lt (h : p.valid = true) (syn lam : List Value) (len n : Nat) : (discrepancy p syn lam len n).toNat < p.q :=
  sumV_lt (Symbols.map fun _ _ => mulV_lt h _ _)

variable (hφ : SymbolField p φ) {Γ σ Ω : F[X]} {R : Finset F} (hsyn : Symbols p syn)
  (htruth : Truth (symbolPoly φ syn) Γ σ Ω R p.nr e)
include hφ hsyn htruth

/-- A pass keeps the engine on the track of the field's pass. -/
theorem BmTracks.bmPass (hst : BmTracks p φ (symbolPoly φ syn) Γ e R.card n st) (hn : n < p.nr) :
    BmTracks p φ (symbolPoly φ syn) Γ e R.card (n + 1) (bmPass p syn e st n) := by
  have hshape := hst.shape.bmPass hn syn
  have hsymbols := hst.symbols.bmPass hφ.valid syn e n
  obtain ⟨⟨hlamLen, hbLen, -, hlower, -⟩, ⟨hlam, hb⟩, hdprev, hpass, hbound⟩ := hst
  have hdlt := discrepancy_lt hφ.valid syn st.lam st.len n
  have hd := hφ.discrepancy hsyn hlam hpass.lamDegree hpass.lenUpper
  have hbDeg : (symbolPoly φ st.b).natDegree < p.nr := by
    have := hpass.bDegree
    omega
  have hshift := hφ.symbolPoly_shiftB hbDeg
  have hdprev0 : st.dprev ≠ 0 := fun e => hpass.nonzero (e ▸ hφ.zero)
  have hcorrect : symbolPoly φ (correctedLam p syn st n) = Pass.correct (symbolPoly φ st.lam) (symbolPoly φ st.b)
      ((symbolPoly φ st.lam * symbolPoly φ syn).coeff n / φ st.dprev) := by
    rw [← hd, ← hφ.div hdlt hdprev hdprev0]
    exact hφ.symbolPoly_correct hlam hb hlamLen hbLen hbDeg (divV_lt hφ.valid _ _)
  by_cases hzero : discrepancy p syn st.lam st.len n = 0
  · rw [bmPass_of_zero hzero] at hshape hsymbols ⊢
    refine ⟨hshape, hsymbols, hdprev, ?_, hbound⟩
    rw [hshift]
    exact hpass.step_zero (by rw [← hd, hzero, hφ.zero])
  have hne : (symbolPoly φ st.lam * symbolPoly φ syn).coeff n ≠ 0 := fun e => hzero ((hφ.eq_zero_iff hdlt).1 (hd.trans e))
  by_cases hlen : 2 * st.len ≤ n + e
  · rw [bmPass_of_grow hzero hlen] at hshape hsymbols ⊢
    refine ⟨hshape, hsymbols, hdlt, ?_, ?_⟩
    · rw [hcorrect, hd]
      exact hpass.step_grow hne hlen
    · have hmassey : ¬st.len + R.card ≤ n := fun hle => hne (htruth.discrepancy_eq_zero hpass hn hle)
      dsimp only
      omega
  · rw [bmPass_of_keep hzero hlen] at hshape hsymbols ⊢
    refine ⟨hshape, hsymbols, hdprev, ?_, hbound⟩
    rw [hcorrect, hshift]
    exact hpass.step_keep (Nat.not_le.1 hlen)

/-- All passes, from the erasure locator on. -/
theorem symbolPoly_berlekampMassey {lam : List Value} (hlam : Symbols p lam) (hlen : lam.length = p.nr + 1) (hhead : lam.getD 0 0 = 1)
    (hΓ : symbolPoly φ lam = Γ) (he : e ≤ p.nr) (hbound : 2 * R.card + e ≤ p.nr) :
    symbolPoly φ (berlekampMassey p syn lam e).lam = Γ * σ := by
  have hstart : BmTracks p φ (symbolPoly φ syn) Γ e R.card e { lam := lam, b := lam, dprev := 1, len := e } := by
    refine ⟨⟨hlen, hlen, hhead, le_rfl, he⟩, ⟨hlam, hlam⟩, one_lt_q hφ.valid, ?_, Nat.le_add_right e _⟩
    simp only
    rw [hΓ, hφ.one]
    exact Pass.start htruth.seedDegree.le htruth.seedHead
  have hloop : ∀ k, k ≤ p.nr - e → BmTracks p φ (symbolPoly φ syn) Γ e R.card (e + k)
      ((List.range' e k).foldl (bmPass p syn e) { lam := lam, b := lam, dprev := 1, len := e }) := fun k hk => by
    induction k with
    | zero => exact hstart
    | succ k ih =>
      rw [List.range'_1_concat, List.foldl_append]
      exact (ih (by omega)).bmPass (n := e + k) hφ hsyn htruth (by omega)
  have hend := hloop (p.nr - e) le_rfl
  rw [Nat.add_sub_cancel' he] at hend
  exact htruth.locator_eq hend.pass hend.bound hbound

end Sys2Proof.Machine
end

section
/-! PROOFS. The syndromes of a received word and Forney's magnitudes in the unit's field (44_syndrome.md R190, 47_forney.md R240,
R241): the magnitude at a position is the difference of the received symbol and the codeword's. -/

namespace Sys2Proof.Machine

open Polynomial KeyEquation

/-- What position `j` contributes to the syndromes: (r_j − w_j) · X_j^FCR. -/
def weightedError (p : Params) {F : Type} [Field F] (φ : Value → F) (word recv : List Value) (j : Nat) : F :=
  (φ (recv.getD j 0) - φ (word.getD j 0)) * locatorValue p φ j ^ p.fcr

namespace SymbolField

variable {p : Params} {F : Type} [Field F] {φ : Value → F} (hφ : SymbolField p φ)
include hφ

/-- S_i = Σ_j c_j · X_j^(FCR + i) (R190). -/
theorem getD_syndromes {code : List Value} (hcode : Symbols p code) (hlen : code.length = p.n) {i : Nat} (hi : i < p.nr) :
    φ ((syndromes p code).getD i 0) = ∑ j ∈ Finset.range p.n, φ (code.getD j 0) * locatorValue p φ j ^ (p.fcr + i) := by
  rw [Machine.getD_syndromes hφ.valid hcode hi, evalAt_reverse, hφ.sumV_range fun j => mulIv_lt hφ.valid _ _, hlen]
  refine Finset.sum_congr rfl fun j hj => ?_
  rw [hφ.mulIv _ (hcode.getD j), hφ.alphaElem_pow_mod, locatorValue, locatorIndex_eq (Finset.mem_range.1 hj), ← pow_mul,
    Nat.mul_comm, mul_comm]

/-- The syndromes of a received word are those of its errors, at any positions that include them. -/
theorem symbolPoly_syndromes {word recv : List Value} (hword : Symbols p word) (hrecv : Symbols p recv)
    (hwordLen : word.length = p.n) (hrecvLen : recv.length = p.n) (hzero : ∀ x ∈ syndromes p word, x = 0) {P : Finset Nat}
    (hP : ∀ j ∈ P, j < p.n) (hdiff : ∀ j, j < p.n → word.getD j 0 ≠ recv.getD j 0 → j ∈ P) :
    symbolPoly φ (syndromes p recv) = syndrome (locatorValue p φ) (weightedError p φ word recv) P p.nr := by
  ext i
  rw [hφ.coeff_symbolPoly]
  rcases Nat.lt_or_ge i p.nr with hi | hi
  · have hclean : φ ((syndromes p word).getD i 0) = 0 := by
      have hi' : i < (syndromes p word).length := by simpa using hi
      rw [List.getD_eq_getElem _ _ hi', hzero _ (List.getElem_mem hi'), hφ.zero]
    rw [hφ.getD_syndromes hword hwordLen hi] at hclean
    rw [hφ.getD_syndromes hrecv hrecvLen hi, coeff_syndrome hi, ← sub_zero (∑ _ ∈ _, _), ← hclean, ← Finset.sum_sub_distrib]
    refine (Finset.sum_subset (fun j hj => Finset.mem_range.2 (hP j hj)) fun j hj hjP => ?_).symm.trans
      (Finset.sum_congr rfl fun j _ => ?_)
    · have heq : word.getD j 0 = recv.getD j 0 := by
        by_contra hne
        exact hjP (hdiff j (Finset.mem_range.1 hj) hne)
      rw [heq, sub_self]
    · rw [weightedError, pow_add]
      ring
  · rw [coeff_syndrome_of_le hi, List.getD_eq_default _ _ (by simpa using hi), hφ.zero]

/-- `alpha(k)` for an integer exponent (R118), multiplied out. -/
theorem alpha_mul_pow {k : Int} {a b : Nat} (h : k + a = b) : φ (alpha p k) * alphaElem p φ ^ a = alphaElem p φ ^ b := by
  have hn : (p.n : Int) ≠ 0 := by
    have := n_pos hφ.valid
    omega
  have hnonneg := Int.emod_nonneg k hn
  have hlt : (k % p.n).toNat < p.n := by
    have := Int.emod_lt_of_pos k (by omega : (0 : Int) < p.n)
    omega
  have hmod : (k % p.n).toNat + a ≡ b [MOD p.n] := by
    rw [← Int.natCast_modEq_iff, Nat.cast_add, Int.toNat_of_nonneg hnonneg, ← h]
    exact (Int.mod_modEq k p.n).add_right a
  rw [alpha, ← Nat.mod_eq_of_lt hlt, hφ.expt_mod, ← pow_add]
  exact hφ.alphaElem_pow_congr hmod

/-- A magnitude is Ω/Λ′ · X^(1 − FCR) at the root of its location (R240, R241). -/
theorem magnitude_mul_pow {om lam : List Value} (hom : Symbols p om) (hlam : Symbols p lam) (hlen : lam.length = p.nr + 1)
    {l : Nat} (hl : l < p.n) {m : Value} (hm : magnitude p om lam l = .ok m) :
    φ m * locatorValue p φ l ^ p.fcr = (symbolPoly φ om).eval (locatorValue p φ l)⁻¹ /
      (derivative (symbolPoly φ lam)).eval (locatorValue p φ l)⁻¹ * locatorValue p φ l := by
  have hder : Machine.derivativeAt p lam (rootOfPosition p l) ≠ 0 := fun e => by
    rw [magnitude_eq_error.2 ⟨e, rfl⟩] at hm
    cases hm
  have hderLt : (Machine.derivativeAt p lam (rootOfPosition p l)).toNat < p.q := sumV_lt (Symbols.map fun _ _ => mulIv_lt hφ.valid _ _)
  rw [hφ.locatorValue_inv hl, ← hφ.evalAt hom, ← hφ.derivativeAt hlam hlen, ← hφ.div (evalAt_lt hφ.valid _ _) hderLt hder]
  have htLt := divV_lt hφ.valid (Machine.evalAt p om (rootOfPosition p l)) (Machine.derivativeAt p lam (rootOfPosition p l))
  simp only [magnitude, if_neg hder] at hm
  generalize divV p _ _ = t at hm htLt ⊢
  split at hm
  · rename_i h0
    cases hm
    rw [h0, hφ.zero, zero_mul, zero_mul]
  · rename_i h0
    cases hm
    rw [locatorValue, ← hφ.alphaElem_pow_logt htLt h0, ← pow_mul, ← pow_add]
    refine hφ.alpha_mul_pow ?_
    push_cast
    ring

/-- Forney's formula (R240): with the locator of positions that include all errors, the magnitude at one of them is the
difference of the codeword's symbol and the received one. -/
theorem magnitude_eq {word recv om lam : List Value} (hword : Symbols p word) (hrecv : Symbols p recv) (hom : Symbols p om)
    (hlam : Symbols p lam) (hlen : lam.length = p.nr + 1) {P : Finset Nat} (hP : ∀ j ∈ P, j < p.n)
    (homPoly : symbolPoly φ om = evaluatorPoly (locatorValue p φ) (weightedError p φ word recv) P)
    (hlamPoly : symbolPoly φ lam = locator (locatorValue p φ) P) {l : Nat} (hl : l ∈ P) {m : Value}
    (hm : magnitude p om lam l = .ok m) : m = Machine.add (recv.getD l 0) (word.getD l 0) := by
  have hx := hφ.locatorValue_ne_zero l
  have hinj := hφ.locatorValue_injOn.mono fun j hj => hP j hj
  have hmag := hφ.magnitude_mul_pow hom hlam hlen (hP l hl) hm
  rw [homPoly, hlamPoly, forney_quotient hinj hl hx, hφ.neg_eq] at hmag
  refine hφ.inj (magnitude_lt hφ.valid hm) (add_lt (hrecv.getD l) (hword.getD l)) ?_
  rw [mul_right_cancel₀ (pow_ne_zero _ hx) hmag, hφ.add (hrecv.getD l) (hword.getD l), sub_eq_add_neg, hφ.neg_eq]

end SymbolField

end Sys2Proof.Machine
end

section
/-! PROOFS. DECODE of a specified word completes (48_decode.md R252): where as many locations are found as the degree, every root
is simple and Λ′ vanishes at none (47_forney.md R242). -/

namespace Sys2Proof.KeyEquation

open Polynomial

/-- A polynomial with as many different roots as its degree has simple roots only. -/
theorem eval_derivative_ne_zero {F : Type} [Field F] {f : F[X]} (hf : f ≠ 0) {R : Finset F} (hR : ∀ r ∈ R, f.eval r = 0)
    (hcard : f.natDegree ≤ R.card) {r : F} (hr : r ∈ R) : (derivative f).eval r ≠ 0 := fun hder => by
  classical
  have hdouble : 1 < f.rootMultiplicity r := (one_lt_rootMultiplicity_iff_isRoot hf).2 ⟨hR r hr, hder⟩
  have hle : R.val + {r} ≤ f.roots := Multiset.le_iff_count.2 fun a => by
    rw [Multiset.count_add, Multiset.count_singleton, count_roots]
    have hone : R.val.count a ≤ 1 := Multiset.nodup_iff_count_le_one.1 R.nodup a
    split
    · rename_i ha
      subst ha
      omega
    · by_cases ha : a ∈ R
      · have : 0 < f.rootMultiplicity a := (rootMultiplicity_pos hf).2 (hR a ha)
        omega
      · rw [Multiset.count_eq_zero_of_notMem ha]
        exact Nat.zero_le _
  have hroots := (Multiset.card_le_card hle).trans (card_roots' f)
  rw [Multiset.card_add, Multiset.card_singleton, Finset.card_val] at hroots
  omega

end Sys2Proof.KeyEquation

namespace Sys2Proof.Machine

open Polynomial KeyEquation

variable {p : Params} {lam : List Value}

/-- What ROOTS records of a locator (46_rootfinder.md R220). -/
def locations (p : Params) (lam : List Value) : List Nat := findRoots p lam (trimmedDegree lam p.nr)

theorem nodup_locations (h : p.valid = true) (lam : List Value) : (locations p lam).Nodup := nodup_findRoots h lam _

theorem lt_of_mem_locations (h : p.valid = true) {l : Nat} (hl : l ∈ locations p lam) : l < p.n := lt_of_mem_findRoots h hl

theorem length_locations_le (h : p.valid = true) (lam : List Value) : (locations p lam).length ≤ p.n :=
  length_findRoots_le_n h lam _

/-- At most DEG locations, and DEG is at most NR (R225). -/
theorem length_locations_le_nr (h : p.valid = true) (hlam : Symbols p lam) (hlen : lam.length = p.nr + 1) :
    (locations p lam).length ≤ p.nr := by
  obtain ⟨hdeg, hlead, -⟩ := trimmedDegree_spec lam p.nr
  exact (length_findRoots_le h (by omega) hlam hlead).trans hdeg

/-- The locations are the zeros, but for a double root of degree 2 (R223 to R225). -/
theorem mem_locations_iff (h : p.valid = true) (hlam : Symbols p lam) (hlen : lam.length = p.nr + 1) (hhead : lam.getD 0 0 = 1)
    (hdouble : ¬(trimmedDegree lam p.nr = 2 ∧ lam.getD 1 0 = 0)) {pos : Nat} (hpos : pos < p.n) :
    pos ∈ locations p lam ↔ evalAt p lam (rootOfPosition p pos) = 0 :=
  (rootsAreTheZerosOfTheLocator p lam h hlen hlam hhead).2 hdouble pos hpos

/-- No double root is found: the solver of degree 2 answers none where b = 0 (R223). -/
theorem not_double_of_le_length (hdeg : trimmedDegree lam p.nr ≤ (locations p lam).length) :
    ¬(trimmedDegree lam p.nr = 2 ∧ lam.getD 1 0 = 0) := fun ⟨htwo, hb⟩ => by
  have hnone : findRoots p lam 2 = [] := rootsDeg2_of_zero (.inl hb)
  rw [locations, htwo, hnone] at hdeg
  exact absurd hdeg (by decide)

/-- Where at least DEG locations are found, Λ′ vanishes at none of their roots (R242). -/
theorem derivativeAt_ne_zero (h : p.valid = true) (hlam : Symbols p lam) (hlen : lam.length = p.nr + 1) (hhead : lam.getD 0 0 = 1)
    (hdeg : trimmedDegree lam p.nr ≤ (locations p lam).length) {l : Nat}
    (hl : l ∈ locations p lam) : derivativeAt p lam (rootOfPosition p l) ≠ 0 := fun hzero => by
  classical
  obtain ⟨F, _, φ, hφ⟩ := exists_symbolField h
  have hroot : ∀ pos ∈ locations p lam, evalAt p lam (rootOfPosition p pos) = 0 := fun pos hpos =>
    (mem_locations_iff h hlam hlen hhead (not_double_of_le_length hdeg) (lt_of_mem_locations h hpos)).1 hpos
  have hne : symbolPoly φ lam ≠ 0 := fun e => by
    have hone := hφ.coeff_symbolPoly lam 0
    rw [hhead, hφ.one, e, coeff_zero] at hone
    exact zero_ne_one hone
  have hinj : Set.InjOn (fun pos => alphaElem p φ ^ rootOfPosition p pos) ↑(locations p lam).toFinset :=
    fun i hi j hj he => by
      have hi := lt_of_mem_locations h (List.mem_toFinset.1 hi)
      have hj := lt_of_mem_locations h (List.mem_toFinset.1 hj)
      exact rootOfPosition_injOn hi hj (hφ.alphaElem_pow_inj (rootOfPosition_lt h i) (rootOfPosition_lt h j) he)
  refine eval_derivative_ne_zero hne (R := (locations p lam).toFinset.image
    fun pos => alphaElem p φ ^ rootOfPosition p pos) (fun r hr => ?_) ?_
    (Finset.mem_image_of_mem _ (List.mem_toFinset.2 hl)) ((hφ.derivativeAt hlam hlen _).symm.trans (by rw [hzero, hφ.zero]))
  · obtain ⟨pos, hpos, rfl⟩ := Finset.mem_image.1 hr
    rw [← hφ.evalAt hlam, hroot pos (List.mem_toFinset.1 hpos), hφ.zero]
  · rw [Finset.card_image_of_injOn hinj, hφ.natDegree_symbolPoly hlam hlen,
      List.toFinset_card_of_nodup (nodup_locations h lam)]
    exact hdeg

/-! ### The state in which DECODE has written LAMBDA and LOC -/

variable {s t : State} {sp : Space}

theorem readRange_congr {k count : Nat} (h : ∀ i, i < count → t.elem sp (k + i) = s.elem sp (k + i)) :
    readRange t sp k count = readRange s sp k count := by
  induction count generalizing k with
  | zero => rfl
  | succ count ih =>
    have hhead := h 0 (by omega)
    have htail := ih (k := k + 1) fun i hi => by
      rw [Nat.add_assoc, Nat.add_comm 1]
      exact h (i + 1) (by omega)
    rw [readRange, readRange, readElem, readElem, htail]
    rw [Nat.add_zero] at hhead
    rw [hhead]

/-- A range read from element 0 on, element by element. -/
theorem elem_of_readRange_zero {xs : List Symbol} {count i : Nat} (h : readRange s sp 0 count = .ok xs) (hi : i < count) :
    s.elem sp i = some (xs.getD i 0) := by
  obtain ⟨hlen, helem⟩ := readRange_eq_ok.1 h
  have hget := helem i (by omega)
  rwa [Nat.zero_add, ← List.getD_eq_getElem xs 0] at hget

/-- The elements ESEED writes. -/
theorem exists_eseedStage {es : List Symbol} (hv : s.params.valid = true) (he : s.ecnt.toNat ≤ s.params.nr)
    (heras : readRange s .eras 0 s.ecnt.toNat = .ok es) (hes : ∀ e ∈ es, e.toNat ≠ s.params.n) :
    ∃ t, eseedStage s = .ok t ∧
      readRange t .lambda 0 (s.params.nr + 1) = .ok (seedLocator s.params (es.map BitVec.toNat)) := by
  have hbounds := Params.bounds hv
  refine ⟨_, eseedStage_of_readErasures he (readErasures_of_readRange heras hes), ?_⟩
  rw [← length_seedLocator (p := s.params) (es.map BitVec.toNat)]
  exact readRange_setRange s (by decide) 0 _ (by rw [length_seedLocator]; omega)

theorem exists_bmStage {syn : List Value} (hv : s.params.valid = true) (he : s.ecnt.toNat ≤ s.params.nr)
    (hlam : readRange s .lambda 0 (s.params.nr + 1) = .ok lam) (hsyn : readRange s .syn 0 s.params.nr = .ok syn) :
    ∃ t, bmStage s = .ok t ∧
      readRange t .lambda 0 (s.params.nr + 1) = .ok (berlekampMassey s.params syn lam s.ecnt.toNat).lam := by
  have hbounds := Params.bounds hv
  have hlen := (bmShape_berlekampMassey (syn := syn) he (length_of_readRange hlam)).lamLength
  refine ⟨_, bmStage_of_execBm he (exec_bm_of_readRange he hlam fun _ => hsyn), ?_⟩
  rw [readRange_congr fun i _ => elem_lreg _ _ _ _, ← hlen]
  exact readRange_setRange s (by decide) 0 _ (by omega)

theorem exists_rootsStage (hv : s.params.valid = true) (hlam : readRange s .lambda 0 (s.params.nr + 1) = .ok lam) :
    ∃ t, rootsStage s = .ok t ∧ t.deg.toNat = trimmedDegree lam s.params.nr ∧
      t.nroots.toNat = (locations s.params lam).length ∧
      readRange t .loc 0 t.nroots.toNat = .ok ((locations s.params lam).map toIndex) := by
  have hbounds := Params.bounds hv
  obtain ⟨hdeg, -⟩ := trimmedDegree_spec lam s.params.nr
  have hlen := length_locations_le hv lam
  have hnroots : (BitVec.ofNat 16 (locations s.params lam).length).toNat =
      (locations s.params lam).length := by
    rw [BitVec.toNat_ofNat, Nat.mod_eq_of_lt (by omega)]
  refine ⟨_, rootsStage_of_readRange hlam, ?_, hnroots, ?_⟩
  · rw [BitVec.toNat_ofNat, Nat.mod_eq_of_lt (by omega)]
  · change readRange { s.setRange .loc 0 ((locations s.params lam).map toIndex) with
      deg := _, nroots := BitVec.ofNat 16 (locations s.params lam).length } .loc 0
      (BitVec.ofNat 16 (locations s.params lam).length).toNat = _
    rw [hnroots, readRange_congr fun i _ => elem_deg_nroots _ _ _ _ _, ← List.length_map (as := locations s.params lam) toIndex]
    exact readRange_setRange s (by decide) 0 _ (by rw [List.length_map]; omega)

/-- From `s`, with the syndromes `syn` written, ESEED, BM and ROOTS reach `u`: the locator is `lam`, and its locations are
found. -/
structure Located (p : Params) (s : State) (syn lam : List Value) (u : State) : Prop where
  locates : Locates s u
  inv : u.Inv
  params : u.params = p
  readSyn : readRange u .syn 0 p.nr = .ok syn
  readLam : readRange u .lambda 0 (p.nr + 1) = .ok lam
  readLoc : readRange u .loc 0 u.nroots.toNat = .ok ((locations p lam).map toIndex)
  deg : u.deg.toNat = trimmedDegree lam p.nr
  nroots : u.nroots.toNat = (locations p lam).length

/-- ESEED, BM and ROOTS complete where SYN and the erasures are specified. -/
theorem exists_located {syn es : List Symbol} (hs : s.Inv) (he : s.ecnt.toNat ≤ s.params.nr)
    (hsyn : readRange s .syn 0 s.params.nr = .ok syn) (heras : readRange s .eras 0 s.ecnt.toNat = .ok es)
    (hes : ∀ e ∈ es, e.toNat ≠ s.params.n) :
    ∃ u, Located s.params s syn
      (berlekampMassey s.params syn (seedLocator s.params (es.map BitVec.toNat)) s.ecnt.toNat).lam u := by
  have hv := hs.paramsLegal
  have hbounds := Params.bounds hv
  obtain ⟨s1, h1, hlam1⟩ := exists_eseedStage hv he heras hes
  have hframe1 := CodecFrame.eseedStage h1
  have hsyn1 : readRange s1 .syn 0 s.params.nr = .ok syn := by
    rw [readRange_congr fun i hi => eseedStage_elem_other hv (by omega) h1 (by decide), hsyn]
  have hbm := exists_bmStage (s := s1) (syn := syn) (lam := seedLocator s.params (es.map BitVec.toNat))
  rw [hframe1.params, hframe1.ecnt] at hbm
  obtain ⟨s2, h2, hlam2⟩ := hbm hv he hlam1 hsyn1
  have hv1 : s1.params.valid = true := hframe1.params ▸ hv
  have hsyn2 : readRange s2 .syn 0 s.params.nr = .ok syn := by
    rw [readRange_congr fun i hi => bmStage_elem_other hv1 (by omega) h2 (by decide), hsyn1]
  have hparams2 : s2.params = s.params := (CodecFrame.bmStage h2).params.trans hframe1.params
  generalize (berlekampMassey s.params syn (seedLocator s.params (es.map BitVec.toNat)) s.ecnt.toNat).lam = lam at hlam2 ⊢
  have hroots := exists_rootsStage (s := s2) (lam := lam)
  rw [hparams2] at hroots
  obtain ⟨u, h3, hdeg, hnroots, hloc⟩ := hroots hv hlam2
  have hv2 : s2.params.valid = true := hparams2 ▸ hv
  have hkept : ∀ {sp : Space}, sp ≠ .loc → ∀ {count : Nat}, count ≤ 65536 → readRange u sp 0 count = readRange s2 sp 0 count :=
    fun hsp _ hcount => readRange_congr fun i hi => rootsStage_elem_other hv2 (by omega) h3 hsp
  refine ⟨u, ⟨s1, s2, h1, h2, h3⟩, ((hs.eseedStage h1).bmStage h2).rootsStage h3,
    (CodecFrame.rootsStage h3).params.trans hparams2, ?_, ?_, hloc, hdeg, hnroots⟩
  · rw [hkept (by decide) (by omega), hsyn2]
  · rw [hkept (by decide) (by omega), hlam2]

/-- The state of DECODE with SYN written, and what ESEED, BM and ROOTS make of it. -/
theorem exists_located_of_code {code es : List Symbol} (hs : s.Inv) (he : s.ecnt.toNat ≤ s.params.nr)
    (hcode : readRange s .code 0 s.params.n = .ok code) (heras : readRange s .eras 0 s.ecnt.toNat = .ok es)
    (hes : ∀ e ∈ es, e.toNat ≠ s.params.n) :
    ∃ u, Located s.params (s.setRange .syn 0 (syndromes s.params code)) (syndromes s.params code)
      (berlekampMassey s.params (syndromes s.params code) (seedLocator s.params (es.map BitVec.toNat)) s.ecnt.toNat).lam u := by
  have hv := hs.paramsLegal
  have hbounds := Params.bounds hv
  have hlen : (syndromes s.params code).length = s.params.nr := syndromes_length _ _
  have hinv := hs.syndromes (readSyndromes_eq_ok.2 ⟨code, hcode, rfl⟩)
  have hread := readRange_setRange s (sp := .syn) (by decide) 0 (syndromes s.params code) (by omega)
  have heras' : readRange (s.setRange .syn 0 (syndromes s.params code)) .eras 0 s.ecnt.toNat = .ok es := by
    rw [readRange_congr fun i hi => elem_setRange_zero_other s (by omega) (by omega) fun e => absurd e.1 (by decide), heras]
  have hlocated := exists_located (syn := syndromes s.params code) (es := es) hinv
  rw [State.setRange_params, State.setRange_ecnt] at hlocated
  exact hlocated he (hlen ▸ hread) heras' hes

/-! ### The end of DECODE -/

section

variable {u : State} {syn : List Value}

/-- The locator DECODE has found is specified by M-bit patterns, with LAMBDA[0] = 1. -/
theorem Located.lam_symbols (h : Located p s syn lam u) :
    Symbols p lam ∧ lam.length = p.nr + 1 ∧ lam.getD 0 0 = 1 := by
  have hp := h.params
  subst hp
  exact ⟨h.inv.symbols_of_readRange h.readLam, length_of_readRange h.readLam,
    h.inv.head_of_readRange_lambda (Nat.succ_pos _) h.readLam⟩

theorem Located.failed_iff (h : Located p s syn lam u) : u.LocatorFailed ↔
    trimmedDegree lam p.nr = 0 ∨ (locations p lam).length < trimmedDegree lam p.nr := by
  rw [State.LocatorFailed, h.deg, h.nroots]

theorem Located.location_lt (h : Located p s syn lam u) : ∀ l ∈ locations p lam, l < p.n := fun _ hl =>
  lt_of_mem_locations (h.params ▸ h.inv.paramsLegal) hl

/-- Locations are recorded as they are: a position fits an element of LOC. -/
theorem toNat_map_toIndex (h : p.valid = true) {ls : List Nat} (hls : ∀ l ∈ ls, l < p.n) :
    (ls.map toIndex).map BitVec.toNat = ls := by
  rw [List.map_map]
  exact (List.map_congr_left fun l hl => toNat_toIndex h (hls l hl).le).trans (List.map_id _)

/-- Where the locations are as many as the degree, FORNEY completes on a specified CODE. -/
theorem Located.forney (h : Located p s syn lam u) (hok : ¬u.LocatorFailed) (hf : u.faulted = false)
    (hcode : ∀ l, l < p.n → ∃ x, u.elem .code l = some x) :
    ∃ t mags, forneyStage u = .ok t ∧ t.status = u.status ∧
      magnitudes p (evaluator p lam syn) lam (locations p lam) = .ok mags ∧
      t.result.toNat = (mags.filter fun x => x ≠ 0).length ∧
      (∀ k, k < (locations p lam).length → ∀ x, u.elem .code ((locations p lam).getD k 0) = some x →
        t.elem .code ((locations p lam).getD k 0) = some (x ^^^ mags.getD k 0)) ∧
      (∀ l, l < 65536 → l ∉ locations p lam → t.elem .code l = u.elem .code l) := by
  have hlt := h.location_lt
  have hfail := mt h.failed_iff.2 hok
  obtain ⟨hlam, hlen, hhead⟩ := h.lam_symbols
  obtain rfl := h.params
  have hv := h.inv.paramsLegal
  have htoNat := toNat_map_toIndex hv hlt
  have hmem : ∀ x ∈ (locations u.params lam).map toIndex, x.toNat ∈ locations u.params lam := fun x hx =>
    htoNat ▸ List.mem_map_of_mem hx
  have hnd : ((locations u.params lam).map toIndex).Nodup :=
    List.Nodup.of_map BitVec.toNat (htoNat.symm ▸ nodup_locations hv lam)
  have hle : u.nroots.toNat ≤ u.params.nr := h.nroots ▸ length_locations_le_nr hv hlam hlen
  obtain ⟨t, mags, ht, hmags, -, -, -, helem, hresult, hframe, hother⟩ :=
    forneyCorrectsTheRecordedLocations u syn lam _ h.inv hle h.readSyn h.readLam h.readLoc hnd
      (fun x hx => hcode _ (hlt _ (hmem x hx)))
      (fun x hx => derivativeAt_ne_zero hv hlam hlen hhead (by omega) (hmem x hx))
  have hstatus := congrArg State.status hframe
  rw [htoNat] at hmags
  refine ⟨t, mags, ok_of_complete ht ((faulted_congr hstatus).trans hf), hstatus, hmags, hresult, fun k hk x hx => ?_,
    fun l hl hnot => hother .code l hl ?_⟩
  · have hk' : k < ((locations u.params lam).map toIndex).length := by rwa [List.length_map]
    have hloc : (((locations u.params lam).map toIndex).getD k 0).toNat = (locations u.params lam).getD k 0 := by
      rw [List.getD_eq_getElem _ _ hk', List.getD_eq_getElem _ _ hk, List.getElem_map,
        toNat_toIndex hv (hlt _ (List.getElem_mem hk)).le]
    have := helem k hk' x
    rw [hloc] at this
    exact this hx
  · simp only [reduceCtorEq, false_and, true_and, false_or]
    rintro ⟨x, hx, rfl⟩
    exact hnot (hmem x hx)

end

/-- With FAULT = 0 before and after, FINFO is 0 both times (10_state.md R34). -/
theorem finfo_eq_of_inv (hs : s.Inv) (ht : t.Inv) (hf : s.faulted = false) (hstatus : t.status = s.status) : t.finfo = s.finfo := by
  have hzero : ∀ {v : State}, v.Inv → v.faulted = false → v.finfo = 0 := fun hv hf => by
    rcases hv.faultLatch with ⟨-, h0⟩ | ⟨c, hc⟩
    · exact h0
    · rw [State.faulted, hc, faultBit_faultStatus] at hf
      cases hf
  rw [hzero hs hf, hzero ht ((faulted_congr hstatus).trans hf)]

/-- Settles O45: BM, ROOTS and FORNEY find specified what they read, and where FORNEY runs Λ′ vanishes at no recorded root. -/
theorem decodeCompletesWithoutFault : Obligations.DecodeCompletesWithoutFault := by
  intro s code es hs hf he hcode heras hes
  have hv := hs.paramsLegal
  have hbounds := Params.bounds hv
  have hsyn : readSyndromes s = .ok (syndromes s.params code) := readSyndromes_eq_ok.2 ⟨code, hcode, rfl⟩
  obtain ⟨u, hu⟩ := exists_located_of_code hs he hcode heras hes
  generalize (berlekampMassey s.params (syndromes s.params code) (seedLocator s.params (es.map BitVec.toNat)) s.ecnt.toNat).lam =
    lam at hu
  have hstatus : u.status = s.status := hu.locates.status.trans (s.setRange_status _ _ _)
  obtain ⟨t, ht, htstatus, hresult⟩ : ∃ t, exec .decode s = .next t ∧ t.status = s.status ∧
      (t.result = 0xFFFFFFFF#32 ∨ t.result.toNat ≤ s.params.nr) := by
    by_cases hclean : ∀ x ∈ syndromes s.params code, x = 0
    · exact ⟨_, exec_decode_of_clean he hsyn hclean, s.setRange_status _ _ _, .inr (Nat.zero_le _)⟩
    · rw [exec_decode_of_ne_zero he hsyn (by simpa using hclean)]
      by_cases hfail : u.LocatorFailed
      · exact ⟨_, decodeNonzero_of_failed hu.locates hfail, hstatus, .inl rfl⟩
      · obtain ⟨t, mags, ht, htstatus, -⟩ := hu.forney hfail ((faulted_congr hstatus).trans hf) fun l hl =>
          ⟨_, (elem_of_locates hv hsyn hu.locates (by omega) (by decide)).trans (elem_of_readRange_zero hcode hl)⟩
        refine ⟨t, decodeNonzero_of_forney hu.locates hfail ht, htstatus.trans hstatus, .inr ?_⟩
        obtain ⟨hlam, hlen, -⟩ := hu.lam_symbols
        exact (forneyStage_result_le ht).trans (hu.nroots ▸ length_locations_le_nr hv hlam hlen)
  obtain ⟨-, hvreg, hireg, hecnt, -, -, herasKept⟩ := codecCommandsLeaveRegistersAlone .decode (by simp) s t hs ht
  exact ⟨t, ht, htstatus, finfo_eq_of_inv hs (State.Inv.codecClosed.exec (by decide) hs ht) hf htstatus, hresult, hvreg, hireg,
    hecnt, herasKept⟩

end Sys2Proof.Machine
end

section
/-! PROOFS. What DECODE computes from a word with errors and erasures within the bound (48_decode.md R253): BM ends with the
locator of these positions, ROOTS finds them, and FORNEY's evaluator is theirs. -/

namespace Sys2Proof.Machine

open Polynomial KeyEquation

variable {p : Params}

namespace SymbolField

variable {F : Type} [Field F] {φ : Value → F} (hφ : SymbolField p φ) {lam : List Value} {P : Finset Nat}
include hφ

/-! ### ROOTS on the locator of known positions -/

section

variable (hlam : Symbols p lam) (hlen : lam.length = p.nr + 1) (hpoly : symbolPoly φ lam = KeyEquation.locator (locatorValue p φ) P)
include hlam hlen hpoly

theorem trimmedDegree_eq_card : trimmedDegree lam p.nr = P.card := by
  rw [← hφ.natDegree_symbolPoly hlam hlen, hpoly, natDegree_locator fun j _ => hφ.locatorValue_ne_zero j]

/-- Different positions give no double root: with b = 0 a locator of degree 2 has the derivative 0 (R223). -/
theorem not_double (hP : ∀ j ∈ P, j < p.n) : ¬(trimmedDegree lam p.nr = 2 ∧ lam.getD 1 0 = 0) := fun ⟨htwo, hb⟩ => by
  have hder : derivative (symbolPoly φ lam) = 0 := by
    ext i
    rw [coeff_derivative, coeff_zero]
    match i with
    | 0 => rw [hφ.coeff_symbolPoly, hb, hφ.zero, zero_mul]
    | 1 => rw [Nat.cast_one, one_add_one_eq_two (R := F), hφ.two_eq_zero, mul_zero]
    | i + 2 =>
      have hdeg := hφ.natDegree_symbolPoly hlam hlen
      rw [coeff_eq_zero_of_natDegree_lt (by omega), zero_mul]
  obtain ⟨j, hj⟩ : P.Nonempty := Finset.card_pos.1 (by rw [← hφ.trimmedDegree_eq_card hlam hlen hpoly, htwo]; decide)
  have hx := hφ.locatorValue_ne_zero j
  have heval := eval_derivative_locator hj hx
  rw [← hpoly, hder, eval_zero] at heval
  exact mul_ne_zero (neg_ne_zero.2 hx) (eval_locator_erase_ne_zero (hφ.locatorValue_injOn.mono hP) hj hx) heval.symm

/-- ROOTS finds the positions of the locator and no others (R224, R225). -/
theorem mem_locations_iff (hP : ∀ j ∈ P, j < p.n) (hhead : lam.getD 0 0 = 1) {l : Nat} : l ∈ locations p lam ↔ l ∈ P := by
  have hiff : l < p.n → (l ∈ locations p lam ↔ l ∈ P) := fun hl => by
    rw [Machine.mem_locations_iff hφ.valid hlam hlen hhead (hφ.not_double hlam hlen hpoly hP) hl,
      ← hφ.eq_zero_iff (evalAt_lt hφ.valid _ _), hφ.evalAt hlam, hpoly, ← hφ.locatorValue_inv hl,
      eval_inv_locator_eq_zero_iff (hφ.locatorValue_ne_zero l)]
    refine ⟨fun ⟨j, hj, he⟩ => ?_, fun hlP => ⟨l, hlP, rfl⟩⟩
    rwa [← hφ.locatorValue_injOn (hP j hj) hl he]
  exact ⟨fun hl => (hiff (lt_of_mem_locations hφ.valid hl)).1 hl, fun hl => (hiff (hP l hl)).2 hl⟩

theorem length_locations (hP : ∀ j ∈ P, j < p.n) (hhead : lam.getD 0 0 = 1) : (locations p lam).length = P.card := by
  rw [← List.toFinset_card_of_nodup (nodup_locations hφ.valid lam)]
  exact congrArg Finset.card (Finset.ext fun l => List.mem_toFinset.trans (hφ.mem_locations_iff hlam hlen hpoly hP hhead))

end

end SymbolField

/-! ### A received word within the bound -/

/-- The positions DECODE is told of. -/
def erasedPositions (es : List Symbol) : Finset Nat := (es.map BitVec.toNat).toFinset

/-- The positions of the errors DECODE is not told of. -/
def errorList (p : Params) (word recv es : List Symbol) : List Nat :=
  (List.range p.n).filter fun j => word.getD j 0 ≠ recv.getD j 0 ∧ BitVec.ofNat 16 j ∉ es

/-- The positions at which `recv` may differ from `word`. -/
def suspectPositions (p : Params) (word recv es : List Symbol) : Finset Nat :=
  erasedPositions es ∪ (errorList p word recv es).toFinset

theorem card_errorList (p : Params) (word recv es : List Symbol) : (errorList p word recv es).toFinset.card = (errorList p word recv es).length :=
  List.toFinset_card_of_nodup (List.nodup_range.filter _)

theorem disjoint_erasedPositions (p : Params) (word recv es : List Symbol) : Disjoint (erasedPositions es) (errorList p word recv es).toFinset := by
  refine Finset.disjoint_left.2 fun j hA hB => ?_
  obtain ⟨e, he, rfl⟩ := List.mem_map.1 (List.mem_toFinset.1 hA)
  have hnot := (of_decide_eq_true (List.mem_filter.1 (List.mem_toFinset.1 hB)).2).2
  rw [BitVec.ofNat_toNat, BitVec.setWidth_eq] at hnot
  exact hnot he

/-- R253's premises: `word` has zero syndromes, and `recv` differs from it by errors and erasures within the bound. -/
structure WithinBound (p : Params) (word recv es : List Symbol) : Prop where
  valid : p.valid = true
  wordSymbols : Symbols p word
  wordLength : word.length = p.n
  wordClean : ∀ x ∈ syndromes p word, x = 0
  recvSymbols : Symbols p recv
  recvLength : recv.length = p.n
  erasedNodup : es.Nodup
  erased_lt : ∀ e ∈ es, e.toNat < p.n
  bound : 2 * (errorList p word recv es).length + es.length ≤ p.nr

namespace WithinBound

variable {word recv es : List Symbol} (h : WithinBound p word recv es)
include h

theorem card_erasedPositions : (erasedPositions es).card = es.length := by
  have hnd : (es.map BitVec.toNat).Nodup := h.erasedNodup.map fun _ _ => BitVec.eq_of_toNat_eq
  rw [erasedPositions, List.toFinset_card_of_nodup hnd, List.length_map]

theorem card_suspectPositions :
    (suspectPositions p word recv es).card = es.length + (errorList p word recv es).length := by
  rw [suspectPositions, Finset.card_union_of_disjoint (disjoint_erasedPositions p word recv es), h.card_erasedPositions,
    card_errorList]

theorem card_le_nr : (suspectPositions p word recv es).card ≤ p.nr := by
  have := h.bound
  rw [h.card_suspectPositions]
  omega

theorem lt_of_mem {j : Nat} (hj : j ∈ suspectPositions p word recv es) : j < p.n := by
  rcases Finset.mem_union.1 hj with hj | hj
  · obtain ⟨e, he, rfl⟩ := List.mem_map.1 (List.mem_toFinset.1 hj)
    exact h.erased_lt e he
  · exact List.mem_range.1 (List.mem_filter.1 (List.mem_toFinset.1 hj)).1

/-- Every position at which the words differ is among them. -/
theorem mem_of_ne {j : Nat} (hj : j < p.n) (hne : word.getD j 0 ≠ recv.getD j 0) : j ∈ suspectPositions p word recv es := by
  have hbounds := Params.bounds h.valid
  by_cases hes : BitVec.ofNat 16 j ∈ es
  · have hmem := List.mem_map_of_mem (f := BitVec.toNat) hes
    rw [BitVec.toNat_ofNat, Nat.mod_eq_of_lt (by omega)] at hmem
    exact Finset.mem_union_left _ (List.mem_toFinset.2 hmem)
  · exact Finset.mem_union_right _ (List.mem_toFinset.2
      (List.mem_filter.2 ⟨List.mem_range.2 hj, decide_eq_true ⟨hne, hes⟩⟩))

variable {F : Type} [Field F] {φ : Value → F}

theorem symbolPoly_syndromes (hφ : SymbolField p φ) : symbolPoly φ (syndromes p recv) =
    syndrome (locatorValue p φ) (weightedError p φ word recv) (suspectPositions p word recv es) p.nr :=
  hφ.symbolPoly_syndromes h.wordSymbols h.recvSymbols h.wordLength h.recvLength h.wordClean (fun _ => h.lt_of_mem) fun _ => h.mem_of_ne

theorem weightedError_eq_zero_iff (hφ : SymbolField p φ) (j : Nat) :
    weightedError p φ word recv j = 0 ↔ word.getD j 0 = recv.getD j 0 := by
  rw [weightedError, mul_eq_zero_iff_right (pow_ne_zero _ (hφ.locatorValue_ne_zero j)), sub_eq_zero]
  exact ⟨fun e => (hφ.inj (h.recvSymbols.getD j) (h.wordSymbols.getD j) e).symm, fun e => by rw [e]⟩

/-- Where all syndromes are 0 nothing was changed: NR + 1 errors are needed to meet another codeword. -/
theorem getD_eq_of_clean (hclean : ∀ x ∈ syndromes p recv, x = 0) {j : Nat} (hj : j < p.n) :
    word.getD j 0 = recv.getD j 0 := by
  by_contra hne
  obtain ⟨F, _, φ, hφ⟩ := exists_symbolField h.valid
  have hzero : symbolPoly φ (syndromes p recv) = 0 := by
    ext i
    rw [hφ.coeff_symbolPoly, coeff_zero]
    rcases Nat.lt_or_ge i (syndromes p recv).length with hi | hi
    · rw [List.getD_eq_getElem _ _ hi, hclean _ (List.getElem_mem hi), hφ.zero]
    · rw [List.getD_eq_default _ _ hi, hφ.zero]
  rw [h.symbolPoly_syndromes hφ] at hzero
  exact hne ((h.weightedError_eq_zero_iff hφ j).1 (eq_zero_of_syndrome_eq_zero
    (hφ.locatorValue_injOn.mono fun _ => h.lt_of_mem) (fun j _ => hφ.locatorValue_ne_zero j) h.card_le_nr hzero (h.mem_of_ne hj hne)))

/-- With a syndrome other than 0 there is a position to find. -/
theorem nonempty (hdirty : ∃ x ∈ syndromes p recv, x ≠ 0) : (suspectPositions p word recv es).Nonempty := by
  by_contra hempty
  obtain ⟨x, hx, hne⟩ := hdirty
  obtain ⟨F, _, φ, hφ⟩ := exists_symbolField h.valid
  have hpoly := h.symbolPoly_syndromes hφ
  rw [Finset.not_nonempty_iff_eq_empty.1 hempty, syndrome, Finset.sum_empty] at hpoly
  obtain ⟨i, hi, rfl⟩ := List.getElem_of_mem hx
  have hcoeff := hφ.coeff_symbolPoly (syndromes p recv) i
  rw [hpoly, coeff_zero, List.getD_eq_getElem _ _ hi] at hcoeff
  exact hne ((hφ.eq_zero_iff (symbols_syndromes h.valid h.recvSymbols _ hx)).1 hcoeff.symm)

/-- BM ends with the locator of the errors and erasures (R210, R253). -/
theorem symbolPoly_berlekampMassey (hφ : SymbolField p φ) (hne : (suspectPositions p word recv es).Nonempty) :
    symbolPoly φ (berlekampMassey p (syndromes p recv) (seedLocator p (es.map BitVec.toNat)) es.length).lam =
      KeyEquation.locator (locatorValue p φ) (suspectPositions p word recv es) := by
  have hbound := h.bound
  have hnd : (es.map BitVec.toNat).Nodup := h.erasedNodup.map fun _ _ => BitVec.eq_of_toNat_eq
  have hy : ∀ j ∈ (errorList p word recv es).toFinset, weightedError p φ word recv j ≠ 0 := fun j hj => by
    rw [Ne, h.weightedError_eq_zero_iff hφ]
    exact (of_decide_eq_true (List.mem_filter.1 (List.mem_toFinset.1 hj)).2).1
  have hdisj := disjoint_erasedPositions p word recv es
  obtain ⟨R, hR, htruth⟩ := truth_of_positions (N := p.nr) hdisj
    (hφ.locatorValue_injOn.mono fun _ => h.lt_of_mem) hφ.locatorValue_ne_zero hy hne
  rw [← suspectPositions, ← h.symbolPoly_syndromes hφ, h.card_erasedPositions] at htruth
  rw [card_errorList] at hR
  rw [suspectPositions, locator_union hdisj]
  exact Machine.symbolPoly_berlekampMassey hφ (symbols_syndromes h.valid h.recvSymbols) htruth (symbols_seedLocator h.valid _)
    (length_seedLocator _) (head_seedLocator _) (hφ.symbolPoly_seedLocator hnd (by rw [List.length_map]; omega)) (by omega)
    (by omega)

/-- FORNEY's Ω, from their locator. -/
theorem symbolPoly_evaluator (hφ : SymbolField p φ) (hne : (suspectPositions p word recv es).Nonempty) {lam : List Value}
    (hlam : Symbols p lam) (hpoly : symbolPoly φ lam = KeyEquation.locator (locatorValue p φ) (suspectPositions p word recv es)) :
    symbolPoly φ (evaluator p lam (syndromes p recv)) =
      evaluatorPoly (locatorValue p φ) (weightedError p φ word recv) (suspectPositions p word recv es) := by
  refine hφ.symbolPoly_evaluator hlam (symbols_syndromes h.valid h.recvSymbols)
    ((degree_evaluatorPoly_lt (fun j _ => hφ.locatorValue_ne_zero j) hne).trans_le h.card_le_nr) ?_
  rw [hpoly, h.symbolPoly_syndromes hφ]
  exact key_equation p.nr

end WithinBound

end Sys2Proof.Machine
end

section
/-! PROOFS. DECODE restores a codeword from errors and erasures within the bound (48_decode.md R253). -/

namespace Sys2Proof.Machine

variable {p : Params} {word recv es : List Symbol}

/-- The magnitudes of the locations, from what each can be. -/
theorem magnitudes_eq_map {om lam : List Value} {f : Nat → Value} {ls : List Nat} {ms : List Value}
    (hms : magnitudes p om lam ls = .ok ms) (hf : ∀ l ∈ ls, ∀ m, magnitude p om lam l = .ok m → m = f l) : ms = ls.map f := by
  induction ls generalizing ms with
  | nil => cases hms; rfl
  | cons l ls ih =>
    obtain ⟨m, hm, hrest⟩ := run_bind_eq_ok.1 hms
    obtain ⟨ms', hms', hdone⟩ := run_bind_eq_ok.1 hrest
    cases hdone
    rw [hf l List.mem_cons_self m hm, ih hms' fun l hl => hf l (List.mem_cons_of_mem _ hl), List.map_cons]

theorem add_eq_zero_iff {a b : Value} : add a b = 0 ↔ a = b := BitVec.xor_eq_zero_iff

/-- Adding the difference to one symbol gives the other. -/
theorem xor_add_cancel (a b : Value) : a ^^^ add a b = b := by
  rw [add, ← BitVec.xor_assoc, BitVec.xor_self, BitVec.zero_xor]

/-- Among different positions below N that include all with a property, as many have it as below N. -/
theorem length_filter_eq_range {ls : List Nat} {n : Nat} {g : Nat → Bool} (hnd : ls.Nodup) (hls : ∀ l ∈ ls, l < n)
    (hg : ∀ j, j < n → g j = true → j ∈ ls) : (ls.filter g).length = ((List.range n).filter g).length := by
  refine ((List.perm_ext_iff_of_nodup (hnd.filter _) (List.nodup_range.filter _)).2 fun j => ?_).length_eq
  rw [List.mem_filter, List.mem_filter, List.mem_range]
  exact ⟨fun ⟨hj, hgj⟩ => ⟨hls j hj, hgj⟩, fun ⟨hj, hgj⟩ => ⟨hg j hj hgj, hgj⟩⟩

/-- `t` holds `word` in CODE where `s` held `recv`, and counts the positions at which they differ. -/
def Restored (s : State) (word recv : List Symbol) (t : State) : Prop :=
  t.status = s.status ∧
    t.result.toNat = ((List.range s.params.n).filter fun j => word.getD j 0 ≠ recv.getD j 0).length ∧
    ∀ j, j < s.params.n → t.elem .code j = some (word.getD j 0)

namespace WithinBound

variable {s u : State} {lam : List Value}

/-- The locator has as many locations as its degree, at least one, and its magnitudes are the differences. -/
theorem locations_magnitudes (h : WithinBound p word recv es) (hdirty : ∃ x ∈ syndromes p recv, x ≠ 0) (hlam : Symbols p lam)
    (hlen : lam.length = p.nr + 1) (hhead : lam.getD 0 0 = 1)
    (hbm : lam = (berlekampMassey p (syndromes p recv) (seedLocator p (es.map BitVec.toNat)) es.length).lam) :
    (locations p lam).length = trimmedDegree lam p.nr ∧ trimmedDegree lam p.nr ≠ 0 ∧
      (∀ j, j < p.n → word.getD j 0 ≠ recv.getD j 0 → j ∈ locations p lam) ∧
      ∀ l ∈ locations p lam, ∀ m, magnitude p (evaluator p lam (syndromes p recv)) lam l = .ok m →
        m = add (recv.getD l 0) (word.getD l 0) := by
  obtain ⟨F, _, φ, hφ⟩ := exists_symbolField h.valid
  have hne := h.nonempty hdirty
  have hpoly := h.symbolPoly_berlekampMassey hφ hne
  rw [← hbm] at hpoly
  have hlt := fun j => h.lt_of_mem (j := j)
  have hmem := fun l => hφ.mem_locations_iff hlam hlen hpoly hlt hhead (l := l)
  have hdeg := hφ.trimmedDegree_eq_card hlam hlen hpoly
  refine ⟨(hφ.length_locations hlam hlen hpoly hlt hhead).trans hdeg.symm, hdeg ▸ (Finset.card_pos.2 hne).ne',
    fun j hj hdiff => (hmem j).2 (h.mem_of_ne hj hdiff), fun l hl m hm => ?_⟩
  exact hφ.magnitude_eq h.wordSymbols h.recvSymbols (symbols_evaluator h.valid lam _) hlam hlen hlt
    (h.symbolPoly_evaluator hφ hne hlam hpoly) hpoly ((hmem l).1 hl) hm

theorem restored_of_clean (h : WithinBound s.params word recv es) (hcode : readRange s .code 0 s.params.n = .ok recv)
    (hclean : ∀ x ∈ syndromes s.params recv, x = 0) :
    Restored s word recv ((s.setRange .syn 0 (syndromes s.params recv)).setResult 0) := by
  have hbounds := Params.bounds h.valid
  have heq := fun j (hj : j < s.params.n) => h.getD_eq_of_clean hclean hj
  refine ⟨s.setRange_status _ _ _, ?_, fun j hj => ?_⟩
  · rw [List.filter_eq_nil_iff.2 fun j hj => by simpa using heq j (List.mem_range.1 hj)]
    rfl
  · rw [elem_setResult, elem_setRange_zero_other s (by rw [syndromes_length]; omega) (by omega) fun e => absurd e.1 (by decide),
      elem_of_readRange_zero hcode hj, heq j hj]

/-- FORNEY restores the word from the state ROOTS leaves. -/
theorem restored_of_located (h : WithinBound s.params word recv es) (hs : s.Inv) (hf : s.faulted = false)
    (hcode : readRange s .code 0 s.params.n = .ok recv) (hdirty : ∃ x ∈ syndromes s.params recv, x ≠ 0)
    (hu : Located s.params (s.setRange .syn 0 (syndromes s.params recv)) (syndromes s.params recv) lam u)
    (hbm : lam = (berlekampMassey s.params (syndromes s.params recv) (seedLocator s.params (es.map BitVec.toNat)) es.length).lam) :
    ∃ t, decodeNonzero (s.setRange .syn 0 (syndromes s.params recv)) = .next t ∧ Restored s word recv t := by
  have hv := hs.paramsLegal
  have hbounds := Params.bounds hv
  have hsyn := readSyndromes_eq_ok.2 ⟨recv, hcode, rfl⟩
  obtain ⟨hlam, hlen, hhead⟩ := hu.lam_symbols
  obtain ⟨hcount, hpos, hdiff, hmag⟩ := h.locations_magnitudes hdirty hlam hlen hhead hbm
  have hok : ¬u.LocatorFailed := fun hfail => by
    have := hu.failed_iff.1 hfail
    omega
  have hcodeU : ∀ l, l < s.params.n → u.elem .code l = some (recv.getD l 0) := fun l hl =>
    (elem_of_locates hv hsyn hu.locates (by omega) (by decide)).trans (elem_of_readRange_zero hcode hl)
  have hstatus : u.status = s.status := hu.locates.status.trans (s.setRange_status _ _ _)
  obtain ⟨t, mags, ht, htstatus, hmags, hresult, hcorrected, hkept⟩ :=
    hu.forney hok ((faulted_congr hstatus).trans hf) fun l hl => ⟨_, hcodeU l hl⟩
  obtain rfl := magnitudes_eq_map hmags hmag
  refine ⟨t, decodeNonzero_of_forney hu.locates hok ht, htstatus.trans hstatus, ?_, fun j hj => ?_⟩
  · have hnonzero : ((fun x : Value => decide (x ≠ 0)) ∘ fun l => add (recv.getD l 0) (word.getD l 0)) =
        fun j => decide (word.getD j 0 ≠ recv.getD j 0) :=
      funext fun j => decide_eq_decide.2 (not_congr (add_eq_zero_iff.trans eq_comm))
    rw [hresult, List.filter_map, List.length_map, hnonzero]
    exact length_filter_eq_range (nodup_locations hv lam) hu.location_lt fun j hj hne => hdiff j hj (of_decide_eq_true hne)
  · by_cases hl : j ∈ locations s.params lam
    · obtain ⟨k, hk, rfl⟩ := List.getElem_of_mem hl
      have hdone := hcorrected k hk
      rw [List.getD_eq_getElem _ _ hk,
        List.getD_eq_getElem (List.map _ _) _ (by rwa [List.length_map]), List.getElem_map] at hdone
      rw [hdone _ (hcodeU _ hj), xor_add_cancel]
    · rw [hkept j (by omega) hl, hcodeU j hj]
      by_contra hne
      exact hl (hdiff j hj fun e => hne (by rw [e]))

end WithinBound

/-- Settles O48: within the bound BM ends with the locator of the errors and erasures, ROOTS finds just these, and Forney's
magnitudes are the differences. -/
theorem decodeCorrectsWithinTheBound : Obligations.DecodeCorrectsWithinTheBound := by
  intro s word recv es hs hf hcode heras hnd hsentinel hwordLen hword hzero hbound
  have heras_lt : ∀ e ∈ es, e.toNat < s.params.n := fun e he => by
    have hq : e.toNat < s.params.q := hs.symbols_of_readRange heras e he
    have hne := hsentinel e he
    rw [Params.n] at hne ⊢
    omega
  have hin : WithinBound s.params word recv es := ⟨hs.paramsLegal, hword, hwordLen, hzero, hs.symbols_of_readRange hcode,
    length_of_readRange hcode, hnd, heras_lt, hbound⟩
  have hecnt : es.length = s.ecnt.toNat := length_of_readRange heras
  have he : s.ecnt.toNat ≤ s.params.nr := by omega
  have hsyn := readSyndromes_eq_ok.2 ⟨recv, hcode, rfl⟩
  by_cases hclean : ∀ x ∈ syndromes s.params recv, x = 0
  · exact ⟨_, exec_decode_of_clean he hsyn hclean, hin.restored_of_clean hcode hclean⟩
  · have hdirty : ∃ x ∈ syndromes s.params recv, x ≠ 0 := by simpa using hclean
    obtain ⟨u, hu⟩ := exists_located_of_code hs he hcode heras hsentinel
    rw [exec_decode_of_ne_zero he hsyn hdirty]
    exact hin.restored_of_located hs hf hcode hdirty hu (by rw [hecnt])

/-- Settles O47: with every difference at an erased position no error is left to count. -/
theorem decodeFillsErasures : Obligations.DecodeFillsErasures := by
  intro s word recv es hs hf he hcode heras hnd hsentinel hwordLen hword hzero hdiff
  refine decodeCorrectsWithinTheBound s word recv es hs hf hcode heras hnd hsentinel hwordLen hword hzero ?_
  have hnone : ∀ j ∈ List.range s.params.n, ¬(decide (word.getD j 0 ≠ recv.getD j 0 ∧ BitVec.ofNat 16 j ∉ es)) = true :=
    fun j hj hbad => by
      obtain ⟨hne, hnot⟩ := of_decide_eq_true hbad
      exact hnot (hdiff j (List.mem_range.1 hj) hne)
  rw [List.filter_eq_nil_iff.2 hnone, length_of_readRange heras]
  simpa using he

end Sys2Proof.Machine
end
